-- ==== Sys2Proof/Word.lean ====
section
/-! DEFINITION. The widths the spec gives the machine's values (R9, R10, R20, R24): bytes, 32-bit words, 256-bit field
registers, byte strings, and the 4-bit register numbers of R91 and R93. -/

namespace Sys2Proof

/-- One byte of DBUF or IDBUF, or of a byte string (R10, R26, R38). -/
abbrev Byte := BitVec 8

/-- A 32-bit word: an address register, a command word, a word of the host's register window (R24, R30, R90). -/
abbrev Word := BitVec 32

/-- A field register, a point coordinate, an RNG word: an unsigned number below 2^256 (R20, R22, R41). -/
abbrev Word256 := BitVec 256

/-- A byte string, index 0 first (R10). -/
abbrev Bytes := List Byte

/-- A register number: all 16 values are legal in every register field a command uses (R93). -/
abbrev RegIdx := Fin 16

/-- A byte offset into the host's window of `0x20000` bytes (R30). -/
abbrev HostOffset := BitVec 17

end Sys2Proof
end

