-- ==== Sys2Proof/Config.lean ====
section
/-! DEFINITION. What is fixed for the machine and never changed by a step (R6, R8): the curve constants, the hash length, the
default UserID, the open implementation parameters as a record, and the free values the spec leaves open (U1, U7). The hash
function `Config.hash` is declared beside its algorithm, in Machine/Hash.lean. -/

namespace Sys2Proof

namespace Config

/-- The field prime `p` (R6). -/
def p : Nat := 0xFFFFFFFEFFFFFFFFFFFFFFFFFFFFFFFFFFFFFFFF00000000FFFFFFFFFFFFFFFF
/-- The curve coefficient `a` (R6). -/
def a : Nat := 0xFFFFFFFEFFFFFFFFFFFFFFFFFFFFFFFFFFFFFFFF00000000FFFFFFFFFFFFFFFC
/-- The curve coefficient `b` (R6). -/
def b : Nat := 0x28E9FA9E9D9F5E344D5A9E4BCF6509A7F39789F515AB8F92DDBCBD414D940E93
/-- The order `n` of the generator (R6). -/
def n : Nat := 0xFFFFFFFEFFFFFFFFFFFFFFFFFFFFFFFF7203DF6B21C6052B53BBF40939D54123
/-- The generator's x (R6). -/
def gx : Nat := 0x32C4AE2C1F1981195F9904466A39C9948FE30BBFF2660BE1715A4589334C74C7
/-- The generator's y (R6). -/
def gy : Nat := 0xBC3736A2F4F6779C59BDCEE36B692153D0A9877CC62A474002DF32E52139F0A0
/-- The cofactor (R6). No rule of the spec uses it. -/
def h : Nat := 1
/-- The Montgomery radix `MONT_R` (R6). -/
def montR : Nat := 2 ^ 256
/-- The hash output length in bytes, `HLEN` (R6). -/
def hlen : Nat := 32
/-- `R2P = 2^512 mod p` (R8). -/
def r2p : Nat := 2 ^ 512 % p
/-- `R2N = 2^512 mod n` (R8). -/
def r2n : Nat := 2 ^ 512 % n
/-- `SQRT_EXP = (p+1)/4` (R8, R174). -/
def sqrtExp : Nat := (p + 1) / 4

/-- `DEFAULT_ID`: the 16 ASCII bytes "1234567812345678" (R6). -/
def defaultId : Bytes :=
  [0x31#8, 0x32#8, 0x33#8, 0x34#8, 0x35#8, 0x36#8, 0x37#8, 0x38#8, 0x31#8, 0x32#8, 0x33#8, 0x34#8, 0x35#8, 0x36#8, 0x37#8, 0x38#8]

/-- What IDBUF holds at an address right after reset: the default UserID, then zeros (R38, R45). -/
def idbufReset (addr : Nat) : Byte := defaultId.getD addr 0#8

/-- FREE VALUE (log 1): the byte an address of DBUF holds while nothing has written it since reset number `epoch`
(R45, R70, U1). Nothing constrains it. -/
opaque unwrittenByte (epoch addr : Nat) : Byte

/-- FREE VALUE (log 2): word number `drawn` of the RNG port, where the state names no word for that draw (R41, U7).
Nothing constrains it. -/
opaque rngWord (drawn : Nat) : Word256

end Config

/-- The open implementation parameters of R6 (log 3). They stand in the state as plain data, so that a statement holds for
every value of them; no step changes them. -/
structure Params where
  /-- `BUFSZ`: the size of DBUF in bytes. -/
  bufsz : Nat
  /-- `IDMAX`: the size of IDBUF in bytes. -/
  idmax : Nat
  /-- `RETRY_MAX`: the bound of the retry loops of ENCRYPT and SIGN. -/
  retryMax : Nat
  deriving DecidableEq, Repr

/-- The defaults of R6. -/
def Params.default : Params := { bufsz := 4096, idmax := 256, retryMax := 8 }

/-- The ranges R6 gives the open parameters. -/
def Params.ok (c : Params) : Bool :=
  c.bufsz % 4 == 0 && decide (512 ≤ c.bufsz) && decide (c.bufsz ≤ 65536) &&
  c.idmax % 4 == 0 && decide (16 ≤ c.idmax) && decide (c.idmax ≤ 8188) && decide (1 ≤ c.retryMax)

end Sys2Proof
end

