-- ==== Sys2Proof/Syntax.lean ====
section
/-! DEFINITION. The command set SM2C v1 (R96): one constructor of `Instr` per row of spec/opcode_table.json, its operands in
the order of the row's fields. The selectors `cid` and `form` stay the 4-bit fields of the word, because some of their values
are reserved (R97); WellFormed.lean says which are legal. -/

namespace Sys2Proof

/-- The modulus a field command works by: bit `m` of `fn` (R97). -/
inductive Modulus where
  /-- `m = 0`: the field prime p. -/
  | p
  /-- `m = 1`: the group order n. -/
  | n
  deriving DecidableEq, Repr

/-- One command. Register operands are named as in R96: `d` destination, `a`, `b`, `s` sources, `o` the address register
that receives or holds a length, `l`, `h` lengths, `k` a scalar, `q` a public key, `g` a signature address. -/
inductive Instr where
  | nop
  | li (d : RegIdx) (imm : BitVec 16)
  | aaddi (d a : RegIdx) (imm : BitVec 16)
  | ldr (d a : RegIdx) (imm : BitVec 16)
  | str (s a : RegIdx) (imm : BitVec 16)
  | movr (d a : RegIdx)
  | ldc (d : RegIdx) (cid : BitVec 4)
  | pldg (d : RegIdx)
  | pset (d a b : RegIdx)
  | pget (d e a : RegIdx)
  | pmov (d a : RegIdx)
  | psetinf (d : RegIdx)
  | montmul (d a b : RegIdx) (m : Modulus)
  | fadd (d a b : RegIdx) (m : Modulus)
  | fsub (d a b : RegIdx) (m : Modulus)
  | padd (d a b : RegIdx)
  | pdbl (d a : RegIdx)
  | smul (d k a : RegIdx)
  | pchk (a : RegIdx)
  | pinf (a : RegIdx)
  | penc (o d a : RegIdx) (form : BitVec 4)
  | pdec (d s l : RegIdx)
  | kdf (d s l o : RegIdx)
  | encrypt (o d s l q : RegIdx)
  | decrypt (o d s l k : RegIdx) (raw : Bool)
  | za (d a : RegIdx)
  | sign (o d s l k : RegIdx)
  | verify (s l g h q : RegIdx)
  deriving DecidableEq, Repr

/-- The pseudo-instructions of R100: only ways of writing sequences of commands. -/
inductive Pseudo where
  | mova (d a : RegIdx)
  | tomont (d a t : RegIdx) (m : Modulus)
  | frommont (d a t : RegIdx) (m : Modulus)
  | fneg (d a t : RegIdx) (m : Modulus)
  | pubkey (d k : RegIdx)
  deriving DecidableEq, Repr

end Sys2Proof
end

