-- ==== Sys2Proof/WellFormed.lean ====
section
/-! DEFINITION. Which terms of `Instr` are commands (R97): the reserved values of `cid` (10 to 15) and `form` (3 to 15) are
not. Every register number and every immediate is legal (R93), and their types bound them. -/

namespace Sys2Proof

/-- Whether a term is a legal command (R97). -/
def Instr.wellFormed : Instr → Bool
  | .nop => true
  | .li _ _ => true
  | .aaddi _ _ _ => true
  | .ldr _ _ _ => true
  | .str _ _ _ => true
  | .movr _ _ => true
  | .ldc _ cid => decide (cid.toNat < 10)
  | .pldg _ => true
  | .pset _ _ _ => true
  | .pget _ _ _ => true
  | .pmov _ _ => true
  | .psetinf _ => true
  | .montmul _ _ _ _ => true
  | .fadd _ _ _ _ => true
  | .fsub _ _ _ _ => true
  | .padd _ _ _ => true
  | .pdbl _ _ => true
  | .smul _ _ _ => true
  | .pchk _ => true
  | .pinf _ => true
  | .penc _ _ _ form => decide (form.toNat < 3)
  | .pdec _ _ _ => true
  | .kdf _ _ _ _ => true
  | .encrypt _ _ _ _ _ => true
  | .decrypt _ _ _ _ _ _ => true
  | .za _ _ => true
  | .sign _ _ _ _ _ => true
  | .verify _ _ _ _ _ => true

end Sys2Proof
end

