-- ==== Sys2Proof/Decode.lean ====
section
/-! DEFINITION. The encoding of SM2C v1 (R90 to R98): the decoder of a 32-bit command word, total and rejecting by name; the
encoder, written from the same tables; the host's view `decodeTableWord`; the assembler text of R99 and the expansions of
R100. -/

namespace Sys2Proof

/-- Why a word is no command: the three steps of R98. -/
inductive DecodeError where
  /-- `w[31:24]` is no opcode of R96: `IllegalCommand(1)`. -/
  | unknownOpcode
  /-- A must-be-zero field or bit is not 0: `IllegalCommand(2)`. -/
  | nonzeroReserved
  /-- A reserved `cid` or `form`: `IllegalCommand(3)`. -/
  | badFunction
  deriving DecidableEq, Repr

/-- The unsigned number made of bits `lo + len - 1` down to `lo` of a word (R9). -/
def bitField (w : Word) (lo len : Nat) : Nat := w.toNat / 2 ^ lo % 2 ^ len

/-- `op`, bits 31:24 (R91, R92). -/
def opField (w : Word) : Nat := bitField w 24 8
/-- `f1`, bits 23:20. -/
def f1Field (w : Word) : RegIdx := Fin.ofNat 16 (bitField w 20 4)
/-- `f2`, bits 19:16. -/
def f2Field (w : Word) : RegIdx := Fin.ofNat 16 (bitField w 16 4)
/-- `f3`, bits 15:12. -/
def f3Field (w : Word) : RegIdx := Fin.ofNat 16 (bitField w 12 4)
/-- `f4`, bits 11:8. -/
def f4Field (w : Word) : RegIdx := Fin.ofNat 16 (bitField w 8 4)
/-- `f5`, bits 7:4. -/
def f5Field (w : Word) : RegIdx := Fin.ofNat 16 (bitField w 4 4)
/-- `fn`, bits 3:0. -/
def fnField (w : Word) : BitVec 4 := BitVec.ofNat 4 (bitField w 0 4)
/-- `imm16`, bits 15:0 (R92). -/
def immField (w : Word) : BitVec 16 := BitVec.ofNat 16 (bitField w 0 16)
/-- Bit `m` of `fn`: the modulus select of MONTMUL, FADD, FSUB (R97). -/
def modulusField (w : Word) : Modulus := if bitField w 0 1 = 0 then .p else .n

/-- Bit `raw` of `fn`: a prefix-less C1 of DECRYPT (R97). -/
def rawField (w : Word) : Bool := bitField w 0 1 == 1

/-- Step (2) of R98: the bits from `lo` for `len` must be 0 (R94). -/
def mustBeZero (w : Word) (lo len : Nat) (i : Instr) : Except DecodeError Instr :=
  if bitField w lo len = 0 then .ok i else .error .nonzeroReserved

/-- Step (3) of R98: a reserved `cid` or `form` is refused after the must-be-zero test. -/
def legalFunction (r : Except DecodeError Instr) : Except DecodeError Instr :=
  match r with
  | .ok i => if i.wellFormed then .ok i else .error .badFunction
  | .error e => .error e

/-- Decoding a command word (R96, R98). -/
def decode (w : Word) : Except DecodeError Instr :=
  if opField w = 0x00 then mustBeZero w 0 24 .nop
  else if opField w = 0x01 then mustBeZero w 16 4 (.li (f1Field w) (immField w))
  else if opField w = 0x02 then .ok (.aaddi (f1Field w) (f2Field w) (immField w))
  else if opField w = 0x04 then .ok (.ldr (f1Field w) (f2Field w) (immField w))
  else if opField w = 0x05 then .ok (.str (f1Field w) (f2Field w) (immField w))
  else if opField w = 0x06 then mustBeZero w 0 16 (.movr (f1Field w) (f2Field w))
  else if opField w = 0x07 then legalFunction (mustBeZero w 4 16 (.ldc (f1Field w) (fnField w)))
  else if opField w = 0x08 then mustBeZero w 0 20 (.pldg (f1Field w))
  else if opField w = 0x09 then mustBeZero w 0 12 (.pset (f1Field w) (f2Field w) (f3Field w))
  else if opField w = 0x0A then mustBeZero w 0 12 (.pget (f1Field w) (f2Field w) (f3Field w))
  else if opField w = 0x0B then mustBeZero w 0 16 (.pmov (f1Field w) (f2Field w))
  else if opField w = 0x0C then mustBeZero w 0 20 (.psetinf (f1Field w))
  else if opField w = 0x10 then mustBeZero w 1 11 (.montmul (f1Field w) (f2Field w) (f3Field w) (modulusField w))
  else if opField w = 0x11 then mustBeZero w 1 11 (.fadd (f1Field w) (f2Field w) (f3Field w) (modulusField w))
  else if opField w = 0x12 then mustBeZero w 1 11 (.fsub (f1Field w) (f2Field w) (f3Field w) (modulusField w))
  else if opField w = 0x20 then mustBeZero w 0 12 (.padd (f1Field w) (f2Field w) (f3Field w))
  else if opField w = 0x21 then mustBeZero w 0 16 (.pdbl (f1Field w) (f2Field w))
  else if opField w = 0x22 then mustBeZero w 0 12 (.smul (f1Field w) (f2Field w) (f3Field w))
  else if opField w = 0x23 then mustBeZero w 0 20 (.pchk (f1Field w))
  else if opField w = 0x24 then mustBeZero w 0 20 (.pinf (f1Field w))
  else if opField w = 0x30 then legalFunction (mustBeZero w 4 8 (.penc (f1Field w) (f2Field w) (f3Field w) (fnField w)))
  else if opField w = 0x31 then mustBeZero w 0 12 (.pdec (f1Field w) (f2Field w) (f3Field w))
  else if opField w = 0x40 then mustBeZero w 0 8 (.kdf (f1Field w) (f2Field w) (f3Field w) (f4Field w))
  else if opField w = 0x50 then mustBeZero w 0 4 (.encrypt (f1Field w) (f2Field w) (f3Field w) (f4Field w) (f5Field w))
  else if opField w = 0x51 then mustBeZero w 1 3 (.decrypt (f1Field w) (f2Field w) (f3Field w) (f4Field w) (f5Field w) (rawField w))
  else if opField w = 0x60 then mustBeZero w 0 16 (.za (f1Field w) (f2Field w))
  else if opField w = 0x61 then mustBeZero w 0 4 (.sign (f1Field w) (f2Field w) (f3Field w) (f4Field w) (f5Field w))
  else if opField w = 0x62 then mustBeZero w 0 4 (.verify (f1Field w) (f2Field w) (f3Field w) (f4Field w) (f5Field w))
  else .error .unknownOpcode

/-- The instruction the decoder reads from a row's word (the fixed name of the task); `nbits` is 32 in every row (R90). -/
def decodeTableWord (nbits w : Nat) : Option Instr :=
  match decode (BitVec.ofNat 32 (w % 2 ^ nbits)) with
  | .ok i => some i
  | .error _ => none

/-- A word of format F (R91). -/
def formatF (op f1 f2 f3 f4 f5 fn : Nat) : Word :=
  BitVec.ofNat 32 (op * 2 ^ 24 + f1 * 2 ^ 20 + f2 * 2 ^ 16 + f3 * 2 ^ 12 + f4 * 2 ^ 8 + f5 * 2 ^ 4 + fn)

/-- A word of format I (R92). -/
def formatI (op f1 f2 imm : Nat) : Word :=
  BitVec.ofNat 32 (op * 2 ^ 24 + f1 * 2 ^ 20 + f2 * 2 ^ 16 + imm)

/-- The function bit of a modulus (R97). -/
def modulusBit : Modulus → Nat
  | .p => 0
  | .n => 1

/-- The command word of an instruction (R96). -/
def encode : Instr → Word
  | .nop => formatF 0x00 0 0 0 0 0 0
  | .li d imm => formatI 0x01 d.val 0 imm.toNat
  | .aaddi d a imm => formatI 0x02 d.val a.val imm.toNat
  | .ldr d a imm => formatI 0x04 d.val a.val imm.toNat
  | .str s a imm => formatI 0x05 s.val a.val imm.toNat
  | .movr d a => formatF 0x06 d.val a.val 0 0 0 0
  | .ldc d cid => formatF 0x07 d.val 0 0 0 0 cid.toNat
  | .pldg d => formatF 0x08 d.val 0 0 0 0 0
  | .pset d a b => formatF 0x09 d.val a.val b.val 0 0 0
  | .pget d e a => formatF 0x0A d.val e.val a.val 0 0 0
  | .pmov d a => formatF 0x0B d.val a.val 0 0 0 0
  | .psetinf d => formatF 0x0C d.val 0 0 0 0 0
  | .montmul d a b m => formatF 0x10 d.val a.val b.val 0 0 (modulusBit m)
  | .fadd d a b m => formatF 0x11 d.val a.val b.val 0 0 (modulusBit m)
  | .fsub d a b m => formatF 0x12 d.val a.val b.val 0 0 (modulusBit m)
  | .padd d a b => formatF 0x20 d.val a.val b.val 0 0 0
  | .pdbl d a => formatF 0x21 d.val a.val 0 0 0 0
  | .smul d k a => formatF 0x22 d.val k.val a.val 0 0 0
  | .pchk a => formatF 0x23 a.val 0 0 0 0 0
  | .pinf a => formatF 0x24 a.val 0 0 0 0 0
  | .penc o d a form => formatF 0x30 o.val d.val a.val 0 0 form.toNat
  | .pdec d s l => formatF 0x31 d.val s.val l.val 0 0 0
  | .kdf d s l o => formatF 0x40 d.val s.val l.val o.val 0 0
  | .encrypt o d s l q => formatF 0x50 o.val d.val s.val l.val q.val 0
  | .decrypt o d s l k raw => formatF 0x51 o.val d.val s.val l.val k.val raw.toNat
  | .za d a => formatF 0x60 d.val a.val 0 0 0 0
  | .sign o d s l k => formatF 0x61 o.val d.val s.val l.val k.val 0
  | .verify s l g h q => formatF 0x62 s.val l.val g.val h.val q.val 0

/-- The row of an instruction in spec/opcode_table.json: its `match` and its `mask`. -/
def opcodeRow : Instr → Nat × Nat
  | .nop => (0x00000000, 0xFFFFFFFF)
  | .li _ _ => (0x01000000, 0xFF0F0000)
  | .aaddi _ _ _ => (0x02000000, 0xFF000000)
  | .ldr _ _ _ => (0x04000000, 0xFF000000)
  | .str _ _ _ => (0x05000000, 0xFF000000)
  | .movr _ _ => (0x06000000, 0xFF00FFFF)
  | .ldc _ _ => (0x07000000, 0xFF0FFFF0)
  | .pldg _ => (0x08000000, 0xFF0FFFFF)
  | .pset _ _ _ => (0x09000000, 0xFF000FFF)
  | .pget _ _ _ => (0x0A000000, 0xFF000FFF)
  | .pmov _ _ => (0x0B000000, 0xFF00FFFF)
  | .psetinf _ => (0x0C000000, 0xFF0FFFFF)
  | .montmul _ _ _ _ => (0x10000000, 0xFF000FFE)
  | .fadd _ _ _ _ => (0x11000000, 0xFF000FFE)
  | .fsub _ _ _ _ => (0x12000000, 0xFF000FFE)
  | .padd _ _ _ => (0x20000000, 0xFF000FFF)
  | .pdbl _ _ => (0x21000000, 0xFF00FFFF)
  | .smul _ _ _ => (0x22000000, 0xFF000FFF)
  | .pchk _ => (0x23000000, 0xFF0FFFFF)
  | .pinf _ => (0x24000000, 0xFF0FFFFF)
  | .penc _ _ _ _ => (0x30000000, 0xFF000FF0)
  | .pdec _ _ _ => (0x31000000, 0xFF000FFF)
  | .kdf _ _ _ _ => (0x40000000, 0xFF0000FF)
  | .encrypt _ _ _ _ _ => (0x50000000, 0xFF00000F)
  | .decrypt _ _ _ _ _ _ => (0x51000000, 0xFF00000E)
  | .za _ _ => (0x60000000, 0xFF00FFFF)
  | .sign _ _ _ _ _ => (0x61000000, 0xFF00000F)
  | .verify _ _ _ _ _ => (0x62000000, 0xFF00000F)

/-- The sequence a pseudo-instruction stands for (R100). -/
def expandPseudo : Pseudo → List Instr
  | .mova d a => [.aaddi d a 0#16]
  | .tomont d a t .p => [.ldc t 8#4, .montmul d a t .p]
  | .tomont d a t .n => [.ldc t 9#4, .montmul d a t .n]
  | .frommont d a t m => [.ldc t 1#4, .montmul d a t m]
  | .fneg d a t m => [.ldc t 0#4, .fsub d t a m]
  | .pubkey d k => [.pldg d, .smul d k d]

/-- A register operand as R99 writes it. -/
def asmReg (file : String) (i : RegIdx) : String := file ++ Nat.repr i.val

/-- The modulus operand as R99 writes it. -/
def asmModulus : Modulus → String
  | .p => "p"
  | .n => "n"

/-- The name of an LDC constant (R97), or its number where `cid` is reserved. -/
def asmConst (cid : BitVec 4) : String :=
  ["ZERO", "ONE", "P", "A", "B", "N", "GX", "GY", "R2P", "R2N"].getD cid.toNat (Nat.repr cid.toNat)

/-- The form operand of PENC (R99), or its number where `form` is reserved. -/
def asmForm (form : BitVec 4) : String := ["U", "C", "H"].getD form.toNat (Nat.repr form.toNat)

/-- A mnemonic and its operands, separated by commas (R99). -/
def asmLine (mnemonic : String) (operands : List String) : String :=
  match operands with
  | [] => mnemonic
  | _ => mnemonic ++ " " ++ ", ".intercalate operands

/-- A memory operand `[Aa+imm]` (R99). -/
def asmMem (a : RegIdx) (imm : BitVec 16) : String := "[" ++ asmReg "A" a ++ "+" ++ Nat.repr imm.toNat ++ "]"

/-- The assembler text of a command, in the syntax of R99. -/
def asm : Instr → String
  | .nop => asmLine "NOP" []
  | .li d imm => asmLine "LI" [asmReg "A" d, Nat.repr imm.toNat]
  | .aaddi d a imm => asmLine "AADDI" [asmReg "A" d, asmReg "A" a, Nat.repr imm.toNat]
  | .ldr d a imm => asmLine "LDR" [asmReg "R" d, asmMem a imm]
  | .str s a imm => asmLine "STR" [asmReg "R" s, asmMem a imm]
  | .movr d a => asmLine "MOVR" [asmReg "R" d, asmReg "R" a]
  | .ldc d cid => asmLine "LDC" [asmReg "R" d, asmConst cid]
  | .pldg d => asmLine "PLDG" [asmReg "P" d]
  | .pset d a b => asmLine "PSET" [asmReg "P" d, asmReg "R" a, asmReg "R" b]
  | .pget d e a => asmLine "PGET" [asmReg "R" d, asmReg "R" e, asmReg "P" a]
  | .pmov d a => asmLine "PMOV" [asmReg "P" d, asmReg "P" a]
  | .psetinf d => asmLine "PSETINF" [asmReg "P" d]
  | .montmul d a b m => asmLine "MONTMUL" [asmReg "R" d, asmReg "R" a, asmReg "R" b, asmModulus m]
  | .fadd d a b m => asmLine "FADD" [asmReg "R" d, asmReg "R" a, asmReg "R" b, asmModulus m]
  | .fsub d a b m => asmLine "FSUB" [asmReg "R" d, asmReg "R" a, asmReg "R" b, asmModulus m]
  | .padd d a b => asmLine "PADD" [asmReg "P" d, asmReg "P" a, asmReg "P" b]
  | .pdbl d a => asmLine "PDBL" [asmReg "P" d, asmReg "P" a]
  | .smul d k a => asmLine "SMUL" [asmReg "P" d, asmReg "R" k, asmReg "P" a]
  | .pchk a => asmLine "PCHK" [asmReg "P" a]
  | .pinf a => asmLine "PINF" [asmReg "P" a]
  | .penc o d a form => asmLine "PENC" [asmReg "A" o, asmReg "A" d, asmReg "P" a, asmForm form]
  | .pdec d s l => asmLine "PDEC" [asmReg "P" d, asmReg "A" s, asmReg "A" l]
  | .kdf d s l o => asmLine "KDF" [asmReg "A" d, asmReg "A" s, asmReg "A" l, asmReg "A" o]
  | .encrypt o d s l q => asmLine "ENCRYPT" [asmReg "A" o, asmReg "A" d, asmReg "A" s, asmReg "A" l, asmReg "P" q]
  | .decrypt o d s l k raw =>
    asmLine "DECRYPT" ([asmReg "A" o, asmReg "A" d, asmReg "A" s, asmReg "A" l, asmReg "R" k] ++ (if raw then ["RAW64"] else []))
  | .za d a => asmLine "ZA" [asmReg "R" d, asmReg "P" a]
  | .sign o d s l k => asmLine "SIGN" [asmReg "A" o, asmReg "A" d, asmReg "A" s, asmReg "A" l, asmReg "R" k]
  | .verify s l g h q => asmLine "VERIFY" [asmReg "A" s, asmReg "A" l, asmReg "A" g, asmReg "A" h, asmReg "P" q]

end Sys2Proof
end

