-- ==== Sys2Proof/Machine/State.lean ====
section
/-! DEFINITION. The machine's state as plain data (R20 to R45), the inputs that wait for it (R14, R28, R286), the fault codes
of R231, and the state after reset (R45). -/

namespace Sys2Proof.Machine

/-- A point register: the three fields of R22. -/
structure PointReg where
  x : Word256
  y : Word256
  inf : Bool
  deriving DecidableEq, Repr

/-- The ciphertext order `CFG.MODE` (R34). -/
inductive Mode where
  /-- 0: C1, then C3, then C2. -/
  | c1c3c2
  /-- 1: C1, then C2, then C3. -/
  | c1c2c3
  deriving DecidableEq, Repr

/-- The signature encoding `CFG.SIGENC` (R34). -/
inductive SigEnc where
  /-- 0. -/
  | der
  /-- 1. -/
  | plain
  deriving DecidableEq, Repr

/-- The form of an encoded point: `CFG.C1FORM` and the `form` of PENC (R34, R97, R170). -/
inductive PointForm where
  /-- 0, U. -/
  | uncompressed
  /-- 1, C. -/
  | compressed
  /-- 2, H. -/
  | hybrid
  deriving DecidableEq, Repr

/-- The fields of CFG. Its other bits read 0 and C1FORM never holds the reserved value 3 (R34), so neither can be said here. -/
structure Cfg where
  mode : Mode
  sigenc : SigEnc
  c1form : PointForm
  deriving DecidableEq, Repr

/-- Every class and detail the hardware can record, under the names of R231. -/
inductive FaultCode where
  /-- `CurveError(1)`. -/
  | offCurve
  /-- `CurveError(2)`. -/
  | infinity
  /-- `CurveError(3)`. -/
  | scalarRange
  /-- `CurveError(4)`. -/
  | retryExhausted
  /-- `CurveError(5)`. -/
  | noInverse
  /-- `CurveError(6)`. -/
  | noSqrt
  /-- `LengthError(1)`. -/
  | empty
  /-- `LengthError(2)`. -/
  | kdfZero
  /-- `LengthError(3)`. -/
  | shortCiphertext
  /-- `EncodingError(1)`. -/
  | badPrefix
  /-- `EncodingError(2)`. -/
  | badPointLength
  /-- `EncodingError(3)`. -/
  | hybridParity
  /-- `EncodingError(4)`. -/
  | badDer
  /-- `MacMismatchError(1)`. -/
  | mac
  /-- `SignatureFormatError(1)`. -/
  | plainLength
  /-- `SignatureFormatError(2)`. -/
  | intNegative
  /-- `SignatureFormatError(3)`. -/
  | intNonminimal
  /-- `SignatureFormatError(4)`. -/
  | intTooLong
  /-- `IllegalCommand(1)`. -/
  | unknownOpcode
  /-- `IllegalCommand(2)`. -/
  | nonzeroReserved
  /-- `IllegalCommand(3)`. -/
  | badFunction
  /-- `BufferRange(1)`. -/
  | srcRange
  /-- `BufferRange(2)`. -/
  | dstRange
  /-- `BufferRange(3)`. -/
  | sigRange
  deriving DecidableEq, Repr

/-- The two interrupt bits of IEN and of ISTAT (R39): `done` is bit 0, `err` is bit 1. -/
structure IrqBits where
  done : Bool
  err : Bool
  deriving DecidableEq, Repr

/-- The RNG port (R41, log 2): the words the port is going to deliver, as far as the state names them, and the number of
words drawn so far. A draw beyond the named words is the free value `Config.rngWord` at that number. -/
structure Rng where
  words : List Word256
  drawn : Nat
  deriving DecidableEq, Repr

/-- An access of the world outside the CORE (R30, R270, R271). -/
inductive Access where
  /-- A host write of a 32-bit word at an offset of the window. -/
  | write (off : HostOffset) (v : Word)
  /-- A host read at an offset of the window. -/
  | read (off : HostOffset)
  /-- The hardware reset input. If it abandons a running command, that command had drawn `drawn` RNG words (log 6). -/
  | hwReset (drawn : Nat)
  deriving DecidableEq, Repr

/-- When the outside world issues an access, as far as it matters to a running command (log 5). -/
inductive Arrival where
  /-- While no command runs. -/
  | afterCommand
  /-- As soon as a command runs and at most `overtaken` of the accesses issued before it still wait, held. -/
  | duringCommand (overtaken : Nat)
  deriving DecidableEq, Repr

/-- One input of the CORE. The inputs stand in the order they are issued (R281, R286). -/
structure Input where
  access : Access
  arrival : Arrival
  deriving DecidableEq, Repr

/-- A byte memory: the bytes something has written, as (address, byte) pairs with strictly rising addresses. -/
abbrev Memory := List Host.Cell

/-- The reasons a step can stop the machine with a fault: none. Every fault of the spec is a NEXT state (R236, R280 "is a
total function"), so no definition raises one. -/
inductive Fault where
  deriving DecidableEq, Repr

/-- The reasons a step can refuse. -/
inductive Refusal where
  /-- Raised by an arm of `exec` whose instruction has no meaning yet: none in this model. Safe. -/
  | notModelled (mnemonic : String)
  /-- Raised by the step for a host access whose offset is no multiple of 4: "not expressible on the interface", to be
  refused (R66, U11). Safe. -/
  | unalignedHostAccess
  deriving DecidableEq, Repr

/-- Everything the spec gives the machine, and the model's own fields (marked). -/
structure State where
  /-- Model's own: the open implementation parameters of R6 (log 3). -/
  params : Params
  /-- The field registers R0 to R15 (R20). -/
  r : Vector Word256 16
  /-- The point registers P0 to P15 (R22). -/
  p : Vector PointReg 16
  /-- The address registers A0 to A15 (R24). -/
  a : Vector Word 16
  /-- DBUF: the bytes written since reset (R26, R70). -/
  dbuf : Memory
  /-- Model's own: which unspecified contents DBUF has, counted up by each reset (log 1). -/
  dbufEpoch : Nat
  /-- IDBUF, where it differs from its contents after reset (R38). -/
  idbuf : Memory
  /-- IDLEN (R38). -/
  idlen : BitVec 16
  /-- The flag T (R27). -/
  t : Bool
  /-- STATUS.BUSY (R33). -/
  busy : Bool
  /-- STATUS.ERR (R33). -/
  err : Bool
  /-- CFG (R34). -/
  cfg : Cfg
  /-- ERRCODE: the last fault, `none` while none has been recorded since reset (R35, R230). -/
  errcode : Option FaultCode
  /-- ERRCMD (R36). -/
  errcmd : Word
  /-- CMDCNT (R37). -/
  cmdcnt : Word
  /-- IEN (R39). -/
  ien : IrqBits
  /-- ISTAT (R39). -/
  istat : IrqBits
  /-- CMD: the command word accepted last (R40). -/
  cmd : Word
  /-- The RNG port (R41). -/
  rng : Rng
  /-- The accesses the outside world has issued and the CORE has not yet performed (R281, R286, log 4). -/
  inputs : List Input
  /-- Model's own: the word the host's last performed read returned (log 7). -/
  readData : Word
  deriving DecidableEq, Repr

/-- `INF` as a point register holds it (R22). -/
def PointReg.infinity : PointReg := { x := 0, y := 0, inf := true }

/-- The machine after a hardware reset (R45), with the default parameters, no RNG word named and no access waiting. -/
def State.reset : State where
  params := Params.default
  r := Vector.replicate 16 0
  p := Vector.replicate 16 PointReg.infinity
  a := Vector.replicate 16 0
  dbuf := []
  dbufEpoch := 0
  idbuf := []
  idlen := 16
  t := false
  busy := false
  err := false
  cfg := { mode := .c1c3c2, sigenc := .der, c1form := .uncompressed }
  errcode := none
  errcmd := 0
  cmdcnt := 0
  ien := { done := false, err := false }
  istat := { done := false, err := false }
  cmd := 0
  rng := { words := [], drawn := 0 }
  inputs := []
  readData := 0

end Sys2Proof.Machine
end

