-- ==== Sys2Proof/Machine/Bytes.lean ====
section
/-! DEFINITION. Byte strings (R10): `os2i`, `i2os`, slices, the bytewise exclusive or. -/

namespace Sys2Proof.Machine

/-- `os2i(B)`: the big-endian value of a byte string (R10). -/
def os2i (bs : Bytes) : Nat := bs.foldl (fun acc b => acc * 256 + b.toNat) 0

/-- `i2os(v, w)`: the `w`-byte big-endian string of `v` (R10). It is used where `v < 256^w`. -/
def i2os (v : Nat) : Nat → Bytes
  | 0 => []
  | w + 1 => i2os (v / 256) w ++ [BitVec.ofNat 8 v]

/-- `B1 xor B2` of two strings of equal length (R10). -/
def xorBytes (b1 b2 : Bytes) : Bytes := List.zipWith (· ^^^ ·) b1 b2

/-- `B[i]` as a number (R10), read where `i < len(B)`. -/
def byteAt (bs : Bytes) (i : Nat) : Nat := (bs.getD i 0).toNat

/-- The `len` bytes of a string from index `start`: `B[start .. start+len-1]` (R10). -/
def slice (bs : Bytes) (start len : Nat) : Bytes := (bs.drop start).take len

end Sys2Proof.Machine
end

