-- ==== Sys2Proof/Machine/ModArith.lean ====
section
/-! DEFINITION. Arithmetic modulo p and n: the inverse of R11, sums and differences (R142, R143), the Montgomery product
(R140), powers (R171). All of it is exact on natural numbers and reduced at the end (R9, R144). -/

namespace Sys2Proof.Machine

/-- The modulus a command bit selects: `M = (m = 0) ? p : n` (R97, R141). -/
def modulusValue : Modulus → Nat
  | .p => Config.p
  | .n => Config.n

/-- `(x + y) mod m` (R142). -/
def addMod (x y m : Nat) : Nat := (x + y) % m

/-- `(x - y) mod m`, the mathematical remainder (R9, R143). -/
def subMod (x y m : Nat) : Nat := (x + (m - y % m)) % m

/-- `(x * y) mod m`. -/
def mulMod (x y m : Nat) : Nat := x * y % m

/-- The extended Euclidean iteration on the pairs (remainder, coefficient): every coefficient times the number inverted is
its remainder modulo `m`. -/
def invLoop (m : Nat) : Nat → Nat → Nat → Nat → Nat → Nat
  | 0, _, _, t0, _ => t0
  | fuel + 1, r0, r1, t0, t1 =>
    if r1 = 0 then t0 else invLoop m fuel r1 (r0 % r1) t1 (subMod t0 (r0 / r1 * t1) m)

/-- `inv(v, M)`: the inverse of `v` modulo `M` (R11), by the extended Euclidean algorithm. -/
def inv (v m : Nat) : Nat := invLoop m (2 * m.log2 + 4) m (v % m) 0 (1 % m)

/-- `v^e mod m` for `e < 2^fuel`, by squaring. -/
def powModAux (v m : Nat) : Nat → Nat → Nat
  | 0, _ => 1 % m
  | fuel + 1, e =>
    let s := powModAux v m fuel (e / 2)
    if e % 2 = 1 then s * s % m * v % m else s * s % m

/-- `v^e mod m` for a 256-bit exponent (R171). -/
def powMod (v e m : Nat) : Nat := powModAux (v % m) m 256 e

/-- `MontMul(x, y, M) = (x * y * RINV) mod M` with `RINV = inv(2^256 mod M, M)` (R140). -/
def montMul (x y m : Nat) : Nat := x * y * inv (Config.montR % m) m % m

end Sys2Proof.Machine
end

