-- ==== Sys2Proof/Machine/Curve.lean ====
section
/-! DEFINITION. The point values of R12 and the curve arithmetic of R150 to R153, on plain affine residues. -/

namespace Sys2Proof.Machine

/-- A point value (R12). -/
inductive Point where
  /-- The point at infinity `INF`. -/
  | inf
  /-- The pair `(x, y)`. -/
  | affine (x y : Nat)
  deriving DecidableEq, Repr

/-- The point value a point register holds (R22). -/
def regPoint (v : PointReg) : Point := if v.inf then .inf else .affine v.x.toNat v.y.toNat

/-- A point value as a point register holds it: `INF` is stored as x = 0, y = 0, inf = 1 (R22). -/
def pointReg : Point → PointReg
  | .inf => PointReg.infinity
  | .affine x y => { x := BitVec.ofNat 256 x, y := BitVec.ofNat 256 y, inf := false }

/-- The x field of a point value; 0 for `INF`, as R22 stores it (log 8). -/
def pointX : Point → Nat
  | .inf => 0
  | .affine x _ => x

/-- The y field of a point value; 0 for `INF`, as R22 stores it (log 8). -/
def pointY : Point → Nat
  | .inf => 0
  | .affine _ y => y

/-- The generator G (R6). -/
def generator : Point := .affine Config.gx Config.gy

/-- `(x*x*x + a*x + b) mod p` (R150, R171). -/
def curveRhs (x : Nat) : Nat := (x * x * x + Config.a * x + Config.b) % Config.p

/-- `OnCurve(V)` (R150): `INF` is on the curve; a pair with a coordinate not below p is not. -/
def onCurve : Point → Bool
  | .inf => true
  | .affine x y => decide (x < Config.p) && decide (y < Config.p) && y * y % Config.p == curveRhs x

/-- The third point of the line of slope `lam` through two points with abscissas `x1` and `x2`, reflected: the last lines of
R151 and R152. -/
def chord (lam x1 y1 x2 : Nat) : Point :=
  let x3 := subMod (subMod (lam * lam) x1 Config.p) x2 Config.p
  .affine x3 (subMod (lam * subMod x1 x3 Config.p) y1 Config.p)

/-- `PointDouble(V)` (R152). -/
def pointDouble : Point → Point
  | .inf => .inf
  | .affine x1 y1 =>
    if y1 = 0 then .inf
    else chord ((3 * x1 * x1 + Config.a) * inv (2 * y1 % Config.p) Config.p % Config.p) x1 y1 x1

/-- `PointAdd(V, W)` (R151). -/
def pointAdd : Point → Point → Point
  | .inf, w => w
  | .affine x1 y1, .inf => .affine x1 y1
  | .affine x1 y1, .affine x2 y2 =>
    if x1 = x2 then
      if (y1 + y2) % Config.p = 0 then .inf else pointDouble (.affine x1 y1)
    else chord (subMod y2 y1 Config.p * inv (subMod x2 x1 Config.p) Config.p % Config.p) x1 y1 x2

/-- The sum of `k` copies of V under PointAdd: the words of R153. -/
def pointSum (v : Point) : Nat → Point
  | 0 => .inf
  | k + 1 => pointAdd (pointSum v k) v

/-- Double-and-add over the bits of `k < 2^fuel`, most significant bit first. -/
def scalarMulAux (v : Point) : Nat → Nat → Point
  | 0, _ => .inf
  | fuel + 1, k =>
    if k = 0 then .inf
    else
      let d := pointDouble (scalarMulAux v fuel (k / 2))
      if k % 2 = 1 then pointAdd d v else d

/-- `ScalarMul(k, V)` for a 256-bit scalar (R153), by the double-and-add bracketing of the sum (log 9). -/
def scalarMul (k : Nat) (v : Point) : Point := scalarMulAux v 256 k

end Sys2Proof.Machine
end

