-- ==== Sys2Proof/Machine/Hash.lean ====
section
/-! DEFINITION. The hash function SM3 (R222 to R225), and the machine's hash port (R42, R220, R221). -/

namespace Sys2Proof.Machine

/-- `rotl(x, k)` (R222). -/
def rotl (x : Word) (k : Nat) : Word := x.rotateLeft (k % 32)

/-- The round constant `T(j)` (R222). -/
def sm3T (j : Nat) : Word := if j < 16 then 0x79CC4519#32 else 0x7A879D8A#32

/-- `FF(j, x, y, z)` (R222). -/
def sm3FF (j : Nat) (x y z : Word) : Word :=
  if j < 16 then x ^^^ y ^^^ z else (x &&& y) ||| (x &&& z) ||| (y &&& z)

/-- `GG(j, x, y, z)` (R222). -/
def sm3GG (j : Nat) (x y z : Word) : Word :=
  if j < 16 then x ^^^ y ^^^ z else (x &&& y) ||| (~~~x &&& z)

/-- `P0(x)` (R222). -/
def sm3P0 (x : Word) : Word := x ^^^ rotl x 9 ^^^ rotl x 17

/-- `P1(x)` (R222). -/
def sm3P1 (x : Word) : Word := x ^^^ rotl x 15 ^^^ rotl x 23

/-- The eight chaining words V0 to V7 of R222 and R225. -/
structure Sm3Words where
  a : Word
  b : Word
  c : Word
  d : Word
  e : Word
  f : Word
  g : Word
  h : Word
  deriving DecidableEq, Repr

/-- `IV` (R222). -/
def sm3IV : Sm3Words :=
  { a := 0x7380166F#32, b := 0x4914B2B9#32, c := 0x172442D7#32, d := 0xDA8A0600#32,
    e := 0xA96F30BC#32, f := 0x163138AA#32, g := 0xE38DEE4D#32, h := 0xB0FB0E4E#32 }

/-- The number of `00` bytes the padding of an `len`-byte message holds: the least `z` with `len + 1 + z` congruent to 56
modulo 64 (R223). -/
def sm3ZeroBytes (len : Nat) : Nat := (119 - len % 64) % 64

/-- The padded message (R223). -/
def sm3Pad (msg : Bytes) : Bytes :=
  msg ++ [0x80#8] ++ List.replicate (sm3ZeroBytes msg.length) 0#8 ++ i2os (8 * msg.length) 8

/-- The big-endian words of a byte string of `4 * n` bytes (R224). -/
def wordsOf (bs : Bytes) : Nat → List Word
  | 0 => []
  | n + 1 => BitVec.ofNat 32 (os2i (bs.take 4)) :: wordsOf (bs.drop 4) n

/-- `n` steps of the message expansion (R224), on the words so far with the newest first: `W[i-k]` stands at index `k - 1`. -/
def sm3Expand : Nat → List Word → List Word
  | 0, w => w
  | n + 1, w =>
    let wi := sm3P1 (w.getD 15 0 ^^^ w.getD 8 0 ^^^ rotl (w.getD 2 0) 15) ^^^ rotl (w.getD 12 0) 7 ^^^ w.getD 5 0
    sm3Expand n (wi :: w)

/-- `W[0 .. 67]` of a block (R224). -/
def sm3W (block : Bytes) : List Word := (sm3Expand 52 (wordsOf block 16).reverse).reverse

/-- `W'[0 .. 63]` of a block: `W'[i] = W[i] xor W[i+4]` (R224). -/
def sm3W' (w : List Word) : List Word := List.zipWith (· ^^^ ·) w (w.drop 4)

/-- One round `j` of R225, with `W[j]` and `W'[j]`. -/
def sm3Round (j : Nat) (wj wj' : Word) (v : Sm3Words) : Sm3Words :=
  let ss1 := rotl (rotl v.a 12 + v.e + rotl (sm3T j) (j % 32)) 7
  let ss2 := ss1 ^^^ rotl v.a 12
  let tt1 := sm3FF j v.a v.b v.c + v.d + ss2 + wj'
  let tt2 := sm3GG j v.e v.f v.g + v.h + ss1 + wj
  { a := tt1, b := v.a, c := rotl v.b 9, d := v.c, e := sm3P0 tt2, f := v.e, g := rotl v.f 19, h := v.g }

/-- The rounds from `j` on, one for each `W[j]` and `W'[j]` (R225). -/
def sm3Rounds : Nat → List Word → List Word → Sm3Words → Sm3Words
  | j, wj :: w, wj' :: w', v => sm3Rounds (j + 1) w w' (sm3Round j wj wj' v)
  | _, _, _, v => v

/-- `V xor (A, ..., Hh)`, wordwise (R225). -/
def sm3Xor (u v : Sm3Words) : Sm3Words :=
  { a := u.a ^^^ v.a, b := u.b ^^^ v.b, c := u.c ^^^ v.c, d := u.d ^^^ v.d,
    e := u.e ^^^ v.e, f := u.f ^^^ v.f, g := u.g ^^^ v.g, h := u.h ^^^ v.h }

/-- The compression of one 64-byte block (R224, R225). -/
def sm3Block (v : Sm3Words) (block : Bytes) : Sm3Words :=
  let w := sm3W block
  sm3Xor v (sm3Rounds 0 w (sm3W' w) v)

/-- The compression of the first `n` 64-byte blocks of a padded message, in order (R225). -/
def sm3Blocks : Nat → Bytes → Sm3Words → Sm3Words
  | 0, _, v => v
  | n + 1, bs, v => sm3Blocks n (bs.drop 64) (sm3Block v (bs.take 64))

/-- The eight words, each as 4 bytes big-endian, V0 first (R225). -/
def sm3Digest (v : Sm3Words) : Bytes :=
  i2os v.a.toNat 4 ++ i2os v.b.toNat 4 ++ i2os v.c.toNat 4 ++ i2os v.d.toNat 4 ++
  i2os v.e.toNat 4 ++ i2os v.f.toNat 4 ++ i2os v.g.toNat 4 ++ i2os v.h.toNat 4

/-- SM3 (R221 to R225). -/
def sm3 (msg : Bytes) : Bytes :=
  let padded := sm3Pad msg
  sm3Digest (sm3Blocks (padded.length / 64) padded sm3IV)

end Sys2Proof.Machine

/-- The configuration's hash function `H` (R42, R220): SM3 (R221). Every operation that hashes takes `H` as an argument, and
the commands pass this one. -/
def Sys2Proof.Config.hash (msg : Sys2Proof.Bytes) : Sys2Proof.Bytes := Sys2Proof.Machine.sm3 msg
end

