-- ==== Sys2Proof/Machine/Ops.lean ====
section
/-! DEFINITION. The named operations over registers, memory and the RNG port, and the two ways a command ends: completion
(R280) and a fault (R236). -/

namespace Sys2Proof.Machine

/-! ## Registers -/

/-- Read of a register of a file (R11). -/
def regGet {α : Type} (f : Vector α 16) (i : RegIdx) : α := f[i.val]

/-- Write of a register of a file (R11). No register is hard-wired (R20, R24). -/
def regSet {α : Type} (f : Vector α 16) (i : RegIdx) (v : α) : Vector α 16 := f.set i.val v

/-- `R[i]` as an unsigned number (R20). -/
def State.rNat (s : State) (i : RegIdx) : Nat := (regGet s.r i).toNat

/-- `A[i]` as an unsigned number (R24). -/
def State.aNat (s : State) (i : RegIdx) : Nat := (regGet s.a i).toNat

/-- `P[i]` as a point value (R12, R22). -/
def State.point (s : State) (i : RegIdx) : Point := regPoint (regGet s.p i)

/-- `R[i] <- v`. -/
def State.writeR (s : State) (i : RegIdx) (v : Word256) : State := { s with r := regSet s.r i v }

/-- `A[i] <- v`. -/
def State.writeA (s : State) (i : RegIdx) (v : Word) : State := { s with a := regSet s.a i v }

/-- `P[i] <- v`. -/
def State.writeP (s : State) (i : RegIdx) (v : PointReg) : State := { s with p := regSet s.p i v }

/-! ## Byte memories -/

/-- The byte something has written at an address, if any. -/
def Memory.written : Memory → Nat → Option Byte
  | [], _ => none
  | (a, b) :: m, addr => if addr = a then some b else Memory.written m addr

/-- The memory with `byte` at `addr`; `unlisted` is what an address not listed reads as there (`none`: no value), and an
entry that would say the same is not listed. -/
def Memory.put (unlisted : Nat → Option Byte) (addr : Nat) (byte : Byte) : Memory → Memory
  | [] => if unlisted addr = some byte then [] else [(addr, byte)]
  | (a, b) :: m =>
    if addr < a then (if unlisted addr = some byte then (a, b) :: m else (addr, byte) :: (a, b) :: m)
    else if addr = a then (if unlisted addr = some byte then m else (addr, byte) :: m)
    else (a, b) :: Memory.put unlisted addr byte m

/-- The memory with the bytes of a string from `addr` on. -/
def Memory.putBytes (unlisted : Nat → Option Byte) : Nat → Bytes → Memory → Memory
  | _, [], m => m
  | addr, b :: bs, m => Memory.putBytes unlisted (addr + 1) bs (Memory.put unlisted addr b m)

/-- The canonical form: addresses strictly rising, and no entry equal to what an unlisted address reads as. -/
def Memory.wf (unlisted : Nat → Option Byte) : Memory → Bool
  | [] => true
  | (a, b) :: m =>
    !(unlisted a == some b) && (match m with | [] => true | (a', _) :: _ => decide (a < a')) && Memory.wf unlisted m

/-- An unlisted address of DBUF has no value of the model's (R70): reading it gives the free value. -/
def dbufUnlisted (_addr : Nat) : Option Byte := none

/-- An unlisted address of IDBUF reads as its contents after reset (R38, R45). -/
def idbufUnlisted (addr : Nat) : Option Byte := some (Config.idbufReset addr)

/-- One byte of DBUF (R26). A byte nothing has written since reset is the free value `Config.unwrittenByte` (R70, U2). -/
def State.dbufByte (s : State) (addr : Nat) : Byte :=
  match Memory.written s.dbuf addr with
  | some b => b
  | none => Config.unwrittenByte s.dbufEpoch addr

/-- One byte of IDBUF (R38). -/
def State.idbufByte (s : State) (addr : Nat) : Byte :=
  match Memory.written s.idbuf addr with
  | some b => b
  | none => Config.idbufReset addr

/-- `MemRead(addr, n)` (R62). -/
def State.memRead (s : State) (addr n : Nat) : Bytes := (List.range n).map fun i => s.dbufByte (addr + i)

/-- `MemWrite(addr, n, B)` with `n = len(B)` (R63). -/
def State.memWrite (s : State) (addr : Nat) (bs : Bytes) : State :=
  { s with dbuf := Memory.putBytes dbufUnlisted addr bs s.dbuf }

/-- `ID`: the current UserID, `IDBUF[0 .. IDLEN-1]` (R38). -/
def State.userId (s : State) : Bytes := (List.range s.idlen.toNat).map s.idbufByte

/-! ## The RNG port -/

/-- `RngDraw()`: the next word of the port (R41). -/
def Rng.draw (g : Rng) : Word256 × Rng :=
  match g.words with
  | w :: ws => (w, { words := ws, drawn := g.drawn + 1 })
  | [] => (Config.rngWord g.drawn, { words := [], drawn := g.drawn + 1 })

/-- The port after `n` draws. -/
def Rng.skip (g : Rng) : Nat → Rng
  | 0 => g
  | n + 1 => Rng.skip g.draw.2 n

/-- The word the port delivers after `i` more draws (R41). -/
def Rng.word (g : Rng) (i : Nat) : Word256 := (g.skip i).draw.1

/-- The bounded retry loop of ENCRYPT and SIGN (R190, R201, R237): one draw per iteration, at most `bound` iterations, until
an attempt succeeds. -/
def retryLoop {α : Type} (attempt : Word256 → Option α) : Nat → Rng → Option α × Rng
  | 0, g => (none, g)
  | bound + 1, g =>
    match attempt g.draw.1 with
    | some out => (some out, g.draw.2)
    | none => retryLoop attempt bound g.draw.2

/-- The state with the RNG port as a command left it. -/
def State.withRng (s : State) (g : Rng) : State := { s with rng := g }

/-! ## How a command ends -/

/-- The class of a fault, `ERRCODE[3:0]` (R230, R231). -/
def FaultCode.classNumber : FaultCode → Nat
  | .offCurve => 1
  | .infinity => 1
  | .scalarRange => 1
  | .retryExhausted => 1
  | .noInverse => 1
  | .noSqrt => 1
  | .empty => 2
  | .kdfZero => 2
  | .shortCiphertext => 2
  | .badPrefix => 3
  | .badPointLength => 3
  | .hybridParity => 3
  | .badDer => 3
  | .mac => 4
  | .plainLength => 5
  | .intNegative => 5
  | .intNonminimal => 5
  | .intTooLong => 5
  | .unknownOpcode => 6
  | .nonzeroReserved => 6
  | .badFunction => 6
  | .srcRange => 7
  | .dstRange => 7
  | .sigRange => 7

/-- The detail of a fault, `ERRCODE[15:8]` (R231). -/
def FaultCode.detail : FaultCode → Nat
  | .offCurve => 1
  | .infinity => 2
  | .scalarRange => 3
  | .retryExhausted => 4
  | .noInverse => 5
  | .noSqrt => 6
  | .empty => 1
  | .kdfZero => 2
  | .shortCiphertext => 3
  | .badPrefix => 1
  | .badPointLength => 2
  | .hybridParity => 3
  | .badDer => 4
  | .mac => 1
  | .plainLength => 1
  | .intNegative => 2
  | .intNonminimal => 3
  | .intTooLong => 4
  | .unknownOpcode => 1
  | .nonzeroReserved => 2
  | .badFunction => 3
  | .srcRange => 1
  | .dstRange => 2
  | .sigRange => 3

/-- The value of ERRCODE: `(detail << 8) | class`, and 0 while no fault has been recorded (R35, R231). -/
def errcodeWord : Option FaultCode → Word
  | none => 0
  | some c => BitVec.ofNat 32 (c.detail * 2 ^ 8 + c.classNumber)

/-- The fault a word raises that is no command (R98). -/
def decodeFault : DecodeError → FaultCode
  | .unknownOpcode => .unknownOpcode
  | .nonzeroReserved => .nonzeroReserved
  | .badFunction => .badFunction

/-- Taking a fault: the five writes of R236 and nothing else. The command word is the one in CMD. -/
def State.raise (s : State) (c : FaultCode) : State :=
  { s with
    errcode := some c
    errcmd := s.cmd
    err := true
    istat := { s.istat with err := true }
    busy := false }

/-- The return from a fault: a host write of bit 1 to STATUS clears STATUS.ERR and restores nothing (R239). -/
def State.acknowledge (s : State) : State := { s with err := false }

/-- Completion of a command, after its writes: the other three lines of R280. -/
def State.complete (s : State) : State :=
  { s with
    cmdcnt := s.cmdcnt + 1
    istat := { s.istat with done := true }
    busy := false }

/-- How a command that draws no RNG word ends: `result` is the state with the command's writes, or the fault it raises. A
fault leaves the state before the command (R236). -/
def State.finish (s : State) (result : Except FaultCode State) : Host.Outcome State Fault Refusal :=
  match result with
  | .ok s' => .next s'.complete
  | .error c => .next (s.raise c)

end Sys2Proof.Machine
end

