-- ==== Sys2Proof/Machine/Operands.lean ====
section
/-! DEFINITION. The operand forms: effective addresses (R93), the range check of memory operands (R64), the checks of point
operands (R154) and of scalar operands (R157), and the selectors of LDC, PENC and the modulus bit (R97, R126). -/

namespace Sys2Proof.Machine

/-- The byte address of `[Aa+imm]`: `A[a] + imm16` over the unbounded integers (R93). -/
def State.effAddr (s : State) (a : RegIdx) (imm : BitVec 16) : Nat := s.aNat a + imm.toNat

/-- `CheckRange(addr, n, k)` before the rest of a command (R64). -/
def checkRange {α : Type} (bufsz addr n : Nat) (k : FaultCode) (rest : Except FaultCode α) : Except FaultCode α :=
  if addr + n > bufsz then .error k else rest

/-- `CheckPoint(V)` before the rest of a command (R154). -/
def checkPoint {α : Type} (v : Point) (rest : Except FaultCode α) : Except FaultCode α :=
  if v ≠ .inf ∧ onCurve v = false then .error .offCurve else rest

/-- `CheckFinite(V)` before the rest of a command (R154). -/
def checkFinite {α : Type} (v : Point) (rest : Except FaultCode α) : Except FaultCode α :=
  if v = .inf then .error .infinity
  else if onCurve v = false then .error .offCurve
  else rest

/-- The range check of a scalar operand: `if k = 0 or k >= n then raise CurveError(3)` (R157, R191, R201). -/
def checkScalar {α : Type} (k : Nat) (rest : Except FaultCode α) : Except FaultCode α :=
  if k = 0 ∨ k ≥ Config.n then .error .scalarRange else rest

/-- `CONST[cid]` (R126); a reserved `cid` has none. -/
def constValue (cid : BitVec 4) : Option Nat :=
  match cid.toNat with
  | 0 => some 0
  | 1 => some 1
  | 2 => some Config.p
  | 3 => some Config.a
  | 4 => some Config.b
  | 5 => some Config.n
  | 6 => some Config.gx
  | 7 => some Config.gy
  | 8 => some Config.r2p
  | 9 => some Config.r2n
  | _ => none

/-- The form a `form` field or `CFG.C1FORM` selects (R34, R97); a reserved value selects none. -/
def formOf (form : BitVec 4) : Option PointForm :=
  match form.toNat with
  | 0 => some .uncompressed
  | 1 => some .compressed
  | 2 => some .hybrid
  | _ => none

end Sys2Proof.Machine
end

