-- ==== Sys2Proof/Machine/Flags.lean ====
section
/-! DEFINITION. The flag T (R27), the verdicts that go into it, and the interrupt output computed from the pending and enable
bits (R39, R240). -/

namespace Sys2Proof.Machine

/-- `T <- v` (R27). -/
def State.writeT (s : State) (v : Bool) : State := { s with t := v }

/-- The verdict of PCHK: `OnCurve(P[a])` (R158). -/
def State.onCurveFlag (s : State) (a : RegIdx) : Bool := onCurve (s.point a)

/-- The verdict of PINF: `P[a].inf` (R159). -/
def State.infinityFlag (s : State) (a : RegIdx) : Bool := (regGet s.p a).inf

/-- The level of the interrupt output: `(DONE_IP and DONE_IE) or (ERR_IP and ERR_IE)` (R39, R43, R240). -/
def State.irq (s : State) : Bool := (s.istat.done && s.ien.done) || (s.istat.err && s.ien.err)

end Sys2Proof.Machine
end

