-- ==== Sys2Proof/Machine/DataMovement.lean ====
section
/-! DEFINITION. The data movement commands (R120 to R131). -/

namespace Sys2Proof.Machine

/-- NOP (R120). -/
def execNop (s : State) : Host.Outcome State Fault Refusal := s.finish (.ok s)

/-- LI: `A[d] <- zext_32(imm16)` (R121). -/
def execLi (d : RegIdx) (imm : BitVec 16) (s : State) : Host.Outcome State Fault Refusal :=
  s.finish (.ok (s.writeA d (imm.setWidth 32)))

/-- AADDI: `A[d] <- (A[a] + zext_32(imm16)) mod 2^32` (R122). -/
def execAaddi (d a : RegIdx) (imm : BitVec 16) (s : State) : Host.Outcome State Fault Refusal :=
  s.finish (.ok (s.writeA d (regGet s.a a + imm.setWidth 32)))

/-- LDR: `R[d] <- os2i(MemRead(ea, 32))` (R123). -/
def execLdr (d a : RegIdx) (imm : BitVec 16) (s : State) : Host.Outcome State Fault Refusal :=
  let ea := s.effAddr a imm
  s.finish
    (checkRange s.params.bufsz ea 32 .srcRange
      (.ok (s.writeR d (BitVec.ofNat 256 (os2i (s.memRead ea 32))))))

/-- STR: `MemWrite(ea, 32, i2os(R[s], 32))` (R124). -/
def execStr (src a : RegIdx) (imm : BitVec 16) (s : State) : Host.Outcome State Fault Refusal :=
  let ea := s.effAddr a imm
  s.finish
    (checkRange s.params.bufsz ea 32 .dstRange
      (.ok (s.memWrite ea (i2os (s.rNat src) 32))))

/-- MOVR: `R[d] <- R[a]` (R125). -/
def execMovr (d a : RegIdx) (s : State) : Host.Outcome State Fault Refusal :=
  s.finish (.ok (s.writeR d (regGet s.r a)))

/-- LDC: `R[d] <- CONST[cid]` (R126); a reserved `cid` raises `IllegalCommand(3)` (R97). -/
def execLdc (d : RegIdx) (cid : BitVec 4) (s : State) : Host.Outcome State Fault Refusal :=
  s.finish
    (match constValue cid with
    | some v => .ok (s.writeR d (BitVec.ofNat 256 v))
    | none => .error .badFunction)

/-- PLDG: `P[d] <- (Gx, Gy)` (R127). -/
def execPldg (d : RegIdx) (s : State) : Host.Outcome State Fault Refusal :=
  s.finish (.ok (s.writeP d (pointReg generator)))

/-- PSET: `P[d] <- (R[a], R[b])`, with no check (R128). -/
def execPset (d a b : RegIdx) (s : State) : Host.Outcome State Fault Refusal :=
  s.finish (.ok (s.writeP d { x := regGet s.r a, y := regGet s.r b, inf := false }))

/-- PGET: `R[d] <- P[a].x`, then `R[e] <- P[a].y` (R129). -/
def execPget (d e a : RegIdx) (s : State) : Host.Outcome State Fault Refusal :=
  let v := regGet s.p a
  s.finish
    (if v.inf then .error .infinity
    else .ok ((s.writeR d v.x).writeR e v.y))

/-- PMOV: `P[d] <- P[a]`, all three fields (R130). -/
def execPmov (d a : RegIdx) (s : State) : Host.Outcome State Fault Refusal :=
  s.finish (.ok (s.writeP d (regGet s.p a)))

/-- PSETINF: `P[d] <- INF` (R131). -/
def execPsetinf (d : RegIdx) (s : State) : Host.Outcome State Fault Refusal :=
  s.finish (.ok (s.writeP d PointReg.infinity))

end Sys2Proof.Machine
end

