-- ==== Sys2Proof/Machine/KeyDerivation.lean ====
section
/-! DEFINITION. The key derivation function (R180, R182) and its command (R181). -/

namespace Sys2Proof.Machine

/-- The blocks `H(Z ‖ i2os(ct, 4))` for `n` counters from `ct` on, concatenated (R180). -/
def kdfBlocks (H : Bytes → Bytes) (z : Bytes) : Nat → Nat → Bytes
  | 0, _ => []
  | n + 1, ct => H (z ++ i2os ct 4) ++ kdfBlocks H z n (ct + 1)

/-- The output of `Kdf` before the all-zero test: `nblk = ceil(outLen / 32)` blocks, the counter from 1, truncated (R180). -/
def kdfOutput (H : Bytes → Bytes) (z : Bytes) (outLen : Nat) : Bytes :=
  (kdfBlocks H z ((outLen + Config.hlen - 1) / Config.hlen) 1).take outLen

/-- `Kdf(Z, outLen)` (R180). -/
def kdf (H : Bytes → Bytes) (z : Bytes) (outLen : Nat) : Except FaultCode Bytes :=
  if outLen = 0 then .error .empty
  else
    let t := kdfOutput H z outLen
    if t.all (· == 0) then .error .kdfZero else .ok t

/-- KDF (R181). -/
def execKdf (d src l o : RegIdx) (s : State) : Host.Outcome State Fault Refusal :=
  let dst := s.aNat d
  let addr := s.aNat src
  let zlen := s.aNat l
  let outLen := s.aNat o
  s.finish
    (if outLen = 0 then .error .empty
    else
      checkRange s.params.bufsz addr zlen .srcRange
        (checkRange s.params.bufsz dst outLen .dstRange
          (match kdf Config.hash (s.memRead addr zlen) outLen with
          | .ok t => .ok (s.memWrite dst t)
          | .error c => .error c)))

end Sys2Proof.Machine
end

