-- ==== Sys2Proof/Machine/PointCodec.lean ====
section
/-! DEFINITION. The point codec (R170, R171, R174) and its commands (R172, R173). -/

namespace Sys2Proof.Machine

/-- The length of an encoded point (R170, R172). -/
def encodedLength : PointForm → Nat
  | .uncompressed => 65
  | .compressed => 33
  | .hybrid => 65

/-- `Encode((x, y), form)` (R170). -/
def encodePoint (x y : Nat) : PointForm → Bytes
  | .uncompressed => [0x04#8] ++ i2os x 32 ++ i2os y 32
  | .compressed => [BitVec.ofNat 8 (0x02 + y % 2)] ++ i2os x 32
  | .hybrid => [BitVec.ofNat 8 (0x06 + y % 2)] ++ i2os x 32 ++ i2os y 32

/-- The last check of R171: a decoded point is on the curve. -/
def decodedPoint (x y : Nat) : Except FaultCode Point :=
  if onCurve (.affine x y) then .ok (.affine x y) else .error .offCurve

/-- The square root candidate `r^((p+1)/4) mod p` (R171, R174). -/
def sqrtCandidate (r : Nat) : Nat := powMod r Config.sqrtExp Config.p

/-- The compressed branch of R171, for a prefix `pc` of 2 or 3 and an abscissa `x`. -/
def decompress (pc x : Nat) : Except FaultCode Point :=
  if x ≥ Config.p then .error .offCurve
  else
    let rhs := curveRhs x
    let y := sqrtCandidate rhs
    if y * y % Config.p ≠ rhs then .error .noSqrt
    else
      let y' := if y % 2 ≠ pc % 2 then (Config.p - y) % Config.p else y
      if y' % 2 ≠ pc % 2 then .error .noSqrt else decodedPoint x y'

/-- The prefix-less compatibility rule of R171: 64 bytes stand for `04` and those bytes. -/
def withPrefix (bs : Bytes) : Bytes := if bs.length = 64 then 0x04#8 :: bs else bs

/-- `Decode(B)` (R171), after the prefix-less rule. -/
def decodePrefixed (bs : Bytes) : Except FaultCode Point :=
  if bs.length = 0 then .error .badPointLength
  else
    let pc := byteAt bs 0
    let x := os2i (slice bs 1 32)
    let y := os2i (slice bs 33 32)
    if pc = 0x04 ∨ pc = 0x06 ∨ pc = 0x07 then
      if bs.length ≠ 65 then .error .badPointLength
      else if pc ≠ 0x04 ∧ y % 2 ≠ pc % 2 then .error .hybridParity
      else decodedPoint x y
    else if pc = 0x02 ∨ pc = 0x03 then
      if bs.length ≠ 33 then .error .badPointLength else decompress pc x
    else .error .badPrefix

/-- `Decode(B)` (R171). -/
def decodePoint (bs : Bytes) : Except FaultCode Point := decodePrefixed (withPrefix bs)

/-- PENC (R172); a reserved `form` raises `IllegalCommand(3)` (R97). -/
def execPenc (o d a : RegIdx) (form : BitVec 4) (s : State) : Host.Outcome State Fault Refusal :=
  s.finish
    (match formOf form with
    | none => .error .badFunction
    | some f =>
      let v := s.point a
      let dst := s.aNat d
      checkFinite v
        (checkRange s.params.bufsz dst (encodedLength f) .dstRange
          (.ok ((s.memWrite dst (encodePoint (pointX v) (pointY v) f)).writeA o (BitVec.ofNat 32 (encodedLength f))))))

/-- PDEC (R173). -/
def execPdec (d src l : RegIdx) (s : State) : Host.Outcome State Fault Refusal :=
  let addr := s.aNat src
  let len := s.aNat l
  s.finish
    (checkRange s.params.bufsz addr len .srcRange
      (match decodePoint (s.memRead addr len) with
      | .ok v => .ok (s.writeP d (pointReg v))
      | .error c => .error c))

end Sys2Proof.Machine
end

