-- ==== Sys2Proof/Machine/Encryption.lean ====
section
/-! DEFINITION. The encryption engine (R190 to R192) and its commands. Every function takes the hash `H`, as R220 asks; the
commands pass `Config.hash`. -/

namespace Sys2Proof.Machine

/-- `i2os(x2, 32) ‖ i2os(y2, 32)`: what the KDF of R190 and R191 is given. -/
def sharedBytes (x2 y2 : Nat) : Bytes := i2os x2 32 ++ i2os y2 32

/-- The MAC `H(i2os(x2, 32) ‖ M ‖ i2os(y2, 32))` of R190 and R191. -/
def macOf (H : Bytes → Bytes) (x2 y2 : Nat) (msg : Bytes) : Bytes := H (i2os x2 32 ++ msg ++ i2os y2 32)

/-- The ciphertext in the order of `CFG.MODE` (R190, R192). -/
def assembleCipher (mode : Mode) (c1 c2 c3 : Bytes) : Bytes :=
  match mode with
  | .c1c2c3 => c1 ++ c2 ++ c3
  | .c1c3c2 => c1 ++ c3 ++ c2

/-- One iteration of ENCRYPT's loop with the RNG word `w`: the ciphertext, or `none` where R190 says "continue". -/
def encryptAttempt (H : Bytes → Bytes) (cfg : Cfg) (q : Point) (msg : Bytes) (w : Word256) : Option Bytes :=
  let k := w.toNat
  if k = 0 ∨ k ≥ Config.n then none
  else
    let c1 := scalarMul k generator
    match scalarMul k q with
    | .inf => none
    | .affine x2 y2 =>
      match kdf H (sharedBytes x2 y2) msg.length with
      | .error _ => none
      | .ok t =>
        some (assembleCipher cfg.mode (encodePoint (pointX c1) (pointY c1) cfg.c1form) (xorBytes msg t) (macOf H x2 y2 msg))

/-- The length of the ciphertext of an `mlen`-byte plaintext (R190). -/
def cipherLength (cfg : Cfg) (mlen : Nat) : Nat := encodedLength cfg.c1form + mlen + 32

/-- The operand checks of ENCRYPT, in the order of R190, and the plaintext. -/
def encryptOperands (d src l q : RegIdx) (s : State) : Except FaultCode Bytes :=
  let mlen := s.aNat l
  if mlen = 0 then .error .empty
  else
    checkRange s.params.bufsz (s.aNat src) mlen .srcRange
      (checkRange s.params.bufsz (s.aNat d) (cipherLength s.cfg mlen) .dstRange
        (checkFinite (s.point q) (.ok (s.memRead (s.aNat src) mlen))))

/-- ENCRYPT (R190). -/
def execEncrypt (o d src l q : RegIdx) (s : State) : Host.Outcome State Fault Refusal :=
  match encryptOperands d src l q s with
  | .error c => .next (s.raise c)
  | .ok msg =>
    match retryLoop (encryptAttempt Config.hash s.cfg (s.point q) msg) s.params.retryMax s.rng with
    | (some out, g) =>
      .next (((s.withRng g).memWrite (s.aNat d) out).writeA o (BitVec.ofNat 32 (cipherLength s.cfg (s.aNat l)))).complete
    | (none, g) => .next ((s.withRng g).raise .retryExhausted)

/-- The length of C1 in a ciphertext: 64 where the command says RAW64, and by the first byte otherwise (R191). -/
def c1Length (raw : Bool) (c : Bytes) : Except FaultCode Nat :=
  if raw then .ok 64
  else if c.length = 0 then .error .shortCiphertext
  else if byteAt c 0 = 0x04 ∨ byteAt c 0 = 0x06 ∨ byteAt c 0 = 0x07 then .ok 65
  else if byteAt c 0 = 0x02 ∨ byteAt c 0 = 0x03 then .ok 33
  else .error .badPrefix

/-- `C2` of a ciphertext (R191, R192). -/
def cipherC2 (mode : Mode) (c : Bytes) (c1len mlen : Nat) : Bytes :=
  match mode with
  | .c1c2c3 => slice c c1len mlen
  | .c1c3c2 => slice c (c1len + 32) mlen

/-- `C3` of a ciphertext (R191, R192). -/
def cipherC3 (mode : Mode) (c : Bytes) (c1len mlen : Nat) : Bytes :=
  match mode with
  | .c1c2c3 => slice c (c1len + mlen) 32
  | .c1c3c2 => slice c c1len 32

/-- The end of R191, with the shared point: the plaintext, if the MAC matches. -/
def openCipher (H : Bytes → Bytes) (x2 y2 : Nat) (c2 c3 : Bytes) : Except FaultCode Bytes :=
  match kdf H (sharedBytes x2 y2) c2.length with
  | .error c => .error c
  | .ok t =>
    let msg := xorBytes c2 t
    if macOf H x2 y2 msg ≠ c3 then .error .mac else .ok msg

/-- R191 from the decoding of C1 on: the plaintext of the ciphertext `c` under the private scalar `k`. -/
def decryptBody (H : Bytes → Bytes) (mode : Mode) (c : Bytes) (c1len mlen k : Nat) : Except FaultCode Bytes :=
  match decodePoint (slice c 0 c1len) with
  | .error f => .error f
  | .ok c1 =>
    checkScalar k
      (match scalarMul k c1 with
      | .inf => .error .infinity
      | .affine x2 y2 => openCipher H x2 y2 (cipherC2 mode c c1len mlen) (cipherC3 mode c c1len mlen))

/-- The plaintext DECRYPT recovers, or its fault, in the order of R191. -/
def decryptResult (H : Bytes → Bytes) (d src l k : RegIdx) (raw : Bool) (s : State) : Except FaultCode Bytes :=
  let len := s.aNat l
  checkRange s.params.bufsz (s.aNat src) len .srcRange
    (let c := s.memRead (s.aNat src) len
    match c1Length raw c with
    | .error f => .error f
    | .ok c1len =>
      if len < c1len + 32 + 1 then .error .shortCiphertext
      else
        let mlen := len - c1len - 32
        checkRange s.params.bufsz (s.aNat d) mlen .dstRange (decryptBody H s.cfg.mode c c1len mlen (s.rNat k)))

/-- DECRYPT (R191): the plaintext is written only after the MAC matched. -/
def execDecrypt (o d src l k : RegIdx) (raw : Bool) (s : State) : Host.Outcome State Fault Refusal :=
  s.finish
    (match decryptResult Config.hash d src l k raw s with
    | .error c => .error c
    | .ok msg => .ok ((s.memWrite (s.aNat d) msg).writeA o (BitVec.ofNat 32 msg.length)))

end Sys2Proof.Machine
end

