-- ==== Sys2Proof/Machine/FieldArithmetic.lean ====
section
/-! DEFINITION. The field arithmetic commands (R140 to R144). -/

namespace Sys2Proof.Machine

/-- MONTMUL: `R[d] <- MontMul(R[a], R[b], M)` (R141). -/
def execMontmul (d a b : RegIdx) (m : Modulus) (s : State) : Host.Outcome State Fault Refusal :=
  s.finish (.ok (s.writeR d (BitVec.ofNat 256 (montMul (s.rNat a) (s.rNat b) (modulusValue m)))))

/-- FADD: `R[d] <- (R[a] + R[b]) mod M` (R142). -/
def execFadd (d a b : RegIdx) (m : Modulus) (s : State) : Host.Outcome State Fault Refusal :=
  s.finish (.ok (s.writeR d (BitVec.ofNat 256 (addMod (s.rNat a) (s.rNat b) (modulusValue m)))))

/-- FSUB: `R[d] <- (R[a] - R[b]) mod M` (R143). -/
def execFsub (d a b : RegIdx) (m : Modulus) (s : State) : Host.Outcome State Fault Refusal :=
  s.finish (.ok (s.writeR d (BitVec.ofNat 256 (subMod (s.rNat a) (s.rNat b) (modulusValue m)))))

end Sys2Proof.Machine
end

