-- ==== Sys2Proof/Machine/PointArithmetic.lean ====
section
/-! DEFINITION. The point arithmetic commands (R150 to R159). -/

namespace Sys2Proof.Machine

/-- PADD: `P[d] <- PointAdd(P[a], P[b])`; the first source is checked first (R155). -/
def execPadd (d a b : RegIdx) (s : State) : Host.Outcome State Fault Refusal :=
  let v := s.point a
  let w := s.point b
  s.finish (checkPoint v (checkPoint w (.ok (s.writeP d (pointReg (pointAdd v w))))))

/-- PDBL: `P[d] <- PointDouble(P[a])` (R156). -/
def execPdbl (d a : RegIdx) (s : State) : Host.Outcome State Fault Refusal :=
  let v := s.point a
  s.finish (checkPoint v (.ok (s.writeP d (pointReg (pointDouble v)))))

/-- SMUL: `P[d] <- ScalarMul(R[k], P[a])`; the point is checked before the scalar (R157). -/
def execSmul (d k a : RegIdx) (s : State) : Host.Outcome State Fault Refusal :=
  let v := s.point a
  let x := s.rNat k
  s.finish (checkPoint v (checkScalar x (.ok (s.writeP d (pointReg (scalarMul x v))))))

/-- PCHK: `T <- OnCurve(P[a])` (R158). -/
def execPchk (a : RegIdx) (s : State) : Host.Outcome State Fault Refusal :=
  s.finish (.ok (s.writeT (s.onCurveFlag a)))

/-- PINF: `T <- P[a].inf` (R159). -/
def execPinf (a : RegIdx) (s : State) : Host.Outcome State Fault Refusal :=
  s.finish (.ok (s.writeT (s.infinityFlag a)))

end Sys2Proof.Machine
end

