-- ==== Sys2Proof/Machine/Signature.lean ====
section
/-! DEFINITION. The signature engine (R200 to R205) and its commands. Every function takes the hash `H`, as R220 asks; the
commands pass `Config.hash`. -/

namespace Sys2Proof.Machine

/-- `ZAof(ID, Q)` (R200). -/
def zaOf (H : Bytes → Bytes) (ident : Bytes) (q : Point) : Bytes :=
  H (i2os (8 * ident.length) 2 ++ ident ++ i2os Config.a 32 ++ i2os Config.b 32 ++ i2os Config.gx 32 ++ i2os Config.gy 32 ++
    i2os (pointX q) 32 ++ i2os (pointY q) 32)

/-- `e = os2i(H(ZAof(ID, Q) ‖ M))` (R201, R203). -/
def digestOf (H : Bytes → Bytes) (ident : Bytes) (q : Point) (msg : Bytes) : Nat := os2i (H (zaOf H ident q ++ msg))

/-! ## Signature encodings -/

/-- The number of bytes of the shortest big-endian string of `v`, at least 1 (R204). -/
def byteLength (v : Nat) : Nat := v.log2 / 8 + 1

/-- The contents of a DER INTEGER: the shortest string, with `00` in front of a set top bit (R204). -/
def derContents (v : Nat) : Bytes :=
  let bs := i2os v (byteLength v)
  if byteAt bs 0 ≥ 0x80 then 0x00#8 :: bs else bs

/-- `DerInt(v)` (R204). -/
def derInt (v : Nat) : Bytes := [0x02#8, BitVec.ofNat 8 (derContents v).length] ++ derContents v

/-- `EncodeSig(r, s, enc)` (R204). -/
def encodeSig (r s : Nat) : SigEnc → Bytes
  | .plain => i2os r 32 ++ i2os s 32
  | .der => [0x30#8, BitVec.ofNat 8 ((derInt r).length + (derInt s).length)] ++ derInt r ++ derInt s

/-- One INTEGER of a DER signature at `pos`: its value and the position after it, with the checks of R205 in their order. -/
def parseDerInt (bs : Bytes) (pos : Nat) : Except FaultCode (Nat × Nat) :=
  if pos + 2 > bs.length ∨ byteAt bs pos ≠ 0x02 then .error .badDer
  else
    let lv := byteAt bs (pos + 1)
    if lv = 0 ∨ lv ≥ 0x80 ∨ pos + 2 + lv > bs.length then .error .badDer
    else
      let v := slice bs (pos + 2) lv
      if byteAt v 0 ≥ 0x80 then .error .intNegative
      else if lv > 1 ∧ byteAt v 0 = 0x00 ∧ byteAt v 1 < 0x80 then .error .intNonminimal
      else if lv > 33 then .error .intTooLong
      else .ok (os2i v, pos + 2 + lv)

/-- `ParseSig(B, DER)` (R205). -/
def parseDer (bs : Bytes) : Except FaultCode (Nat × Nat) :=
  if bs.length < 2 ∨ byteAt bs 0 ≠ 0x30 ∨ byteAt bs 1 ≥ 0x80 ∨ byteAt bs 1 ≠ bs.length - 2 then .error .badDer
  else
    match parseDerInt bs 2 with
    | .error c => .error c
    | .ok (r, pos) =>
      match parseDerInt bs pos with
      | .error c => .error c
      | .ok (s, pos') => if pos' ≠ bs.length then .error .badDer else .ok (r, s)

/-- `ParseSig(B, Plain)` (R205). -/
def parsePlain (bs : Bytes) : Except FaultCode (Nat × Nat) :=
  if bs.length ≠ 64 then .error .plainLength else .ok (os2i (slice bs 0 32), os2i (slice bs 32 32))

/-- `ParseSig(B, enc)` (R205). -/
def parseSig (bs : Bytes) : SigEnc → Except FaultCode (Nat × Nat)
  | .plain => parsePlain bs
  | .der => parseDer bs

/-! ## Commands -/

/-- ZA: `R[d] <- os2i(ZAof(ID, P[a]))` (R202). -/
def execZa (d a : RegIdx) (s : State) : Host.Outcome State Fault Refusal :=
  let q := s.point a
  s.finish (checkFinite q (.ok (s.writeR d (BitVec.ofNat 256 (os2i (zaOf Config.hash s.userId q))))))

/-- The longest signature of an encoding, `sigmax` (R201). -/
def sigMax : SigEnc → Nat
  | .plain => 64
  | .der => 72

/-- One iteration of SIGN's loop with the RNG word `w`, for the private scalar `d`, the digest `e` and `di = (1 + d)^-1`:
the pair (r, s), or `none` where R201 says "continue". -/
def signAttempt (d e di : Nat) (w : Word256) : Option (Nat × Nat) :=
  let k := w.toNat
  if k = 0 ∨ k ≥ Config.n then none
  else
    let r := (e + pointX (scalarMul k generator)) % Config.n
    if r = 0 ∨ r + k = Config.n then none
    else
      let s := di * subMod k (r * d) Config.n % Config.n
      if s = 0 then none else some (r, s)

/-- The operand checks of SIGN, in the order of R201, and the message. -/
def signOperands (dst src l k : RegIdx) (s : State) : Except FaultCode Bytes :=
  let mlen := s.aNat l
  let d := s.rNat k
  checkRange s.params.bufsz (s.aNat src) mlen .srcRange
    (checkRange s.params.bufsz (s.aNat dst) (sigMax s.cfg.sigenc) .dstRange
      (checkScalar d
        (if d = Config.n - 1 then .error .noInverse else .ok (s.memRead (s.aNat src) mlen))))

/-- The digest SIGN signs: the public point for ZA is computed from the private scalar (R201). -/
def signDigest (H : Bytes → Bytes) (ident : Bytes) (d : Nat) (msg : Bytes) : Nat :=
  digestOf H ident (scalarMul d generator) msg

/-- SIGN (R201). -/
def execSign (o dst src l k : RegIdx) (s : State) : Host.Outcome State Fault Refusal :=
  match signOperands dst src l k s with
  | .error c => .next (s.raise c)
  | .ok msg =>
    let d := s.rNat k
    let e := signDigest Config.hash s.userId d msg
    let di := inv ((1 + d) % Config.n) Config.n
    match retryLoop (signAttempt d e di) s.params.retryMax s.rng with
    | (some rs, g) =>
      let sig := encodeSig rs.1 rs.2 s.cfg.sigenc
      .next (((s.withRng g).memWrite (s.aNat dst) sig).writeA o (BitVec.ofNat 32 sig.length)).complete
    | (none, g) => .next ((s.withRng g).raise .retryExhausted)

/-- The verdict of R203 on an in-range pair (r, s), from `t = (r + s) mod n` on. -/
def verifyEquation (e r s : Nat) (q : Point) : Bool :=
  let t := (r + s) % Config.n
  if t = 0 then false
  else
    match pointAdd (scalarMul s generator) (scalarMul t q) with
    | .inf => false
    | .affine x1 _ => (e + x1) % Config.n == r

/-- R203 after the signature has been parsed: the range test on (r, s) comes before the check of the public key. -/
def verifyPair (H : Bytes → Bytes) (ident msg : Bytes) (q : Point) (r s : Nat) : Except FaultCode Bool :=
  if r = 0 ∨ r ≥ Config.n ∨ s = 0 ∨ s ≥ Config.n then .ok false
  else checkFinite q (.ok (verifyEquation (digestOf H ident q msg) r s q))

/-- The verdict of VERIFY, or its fault, in the order of R203. -/
def verifyResult (H : Bytes → Bytes) (src l g h q : RegIdx) (s : State) : Except FaultCode Bool :=
  checkRange s.params.bufsz (s.aNat src) (s.aNat l) .srcRange
    (checkRange s.params.bufsz (s.aNat g) (s.aNat h) .sigRange
      (match parseSig (s.memRead (s.aNat g) (s.aNat h)) s.cfg.sigenc with
      | .error c => .error c
      | .ok (r, s') => verifyPair H s.userId (s.memRead (s.aNat src) (s.aNat l)) (s.point q) r s'))

/-- VERIFY: the verdict goes into T, and nothing else is written (R203). -/
def execVerify (src l g h q : RegIdx) (s : State) : Host.Outcome State Fault Refusal :=
  s.finish
    (match verifyResult Config.hash src l g h q s with
    | .error c => .error c
    | .ok v => .ok (s.writeT v))

end Sys2Proof.Machine
end

