-- ==== Sys2Proof/Machine/Dispatch.lean ====
section
/-! DEFINITION. The meaning of each command: one arm per constructor of `Instr`. -/

namespace Sys2Proof.Machine

def exec (i : Instr) (s : State) : Host.Outcome State Fault Refusal :=
  match i with
  | .nop => Sys2Proof.Machine.execNop s
  | .li d imm => Sys2Proof.Machine.execLi d imm s
  | .aaddi d a imm => Sys2Proof.Machine.execAaddi d a imm s
  | .ldr d a imm => Sys2Proof.Machine.execLdr d a imm s
  | .str src a imm => Sys2Proof.Machine.execStr src a imm s
  | .movr d a => Sys2Proof.Machine.execMovr d a s
  | .ldc d cid => Sys2Proof.Machine.execLdc d cid s
  | .pldg d => Sys2Proof.Machine.execPldg d s
  | .pset d a b => Sys2Proof.Machine.execPset d a b s
  | .pget d e a => Sys2Proof.Machine.execPget d e a s
  | .pmov d a => Sys2Proof.Machine.execPmov d a s
  | .psetinf d => Sys2Proof.Machine.execPsetinf d s
  | .montmul d a b m => Sys2Proof.Machine.execMontmul d a b m s
  | .fadd d a b m => Sys2Proof.Machine.execFadd d a b m s
  | .fsub d a b m => Sys2Proof.Machine.execFsub d a b m s
  | .padd d a b => Sys2Proof.Machine.execPadd d a b s
  | .pdbl d a => Sys2Proof.Machine.execPdbl d a s
  | .smul d k a => Sys2Proof.Machine.execSmul d k a s
  | .pchk a => Sys2Proof.Machine.execPchk a s
  | .pinf a => Sys2Proof.Machine.execPinf a s
  | .penc o d a form => Sys2Proof.Machine.execPenc o d a form s
  | .pdec d src l => Sys2Proof.Machine.execPdec d src l s
  | .kdf d src l o => Sys2Proof.Machine.execKdf d src l o s
  | .encrypt o d src l q => Sys2Proof.Machine.execEncrypt o d src l q s
  | .decrypt o d src l k raw => Sys2Proof.Machine.execDecrypt o d src l k raw s
  | .za d a => Sys2Proof.Machine.execZa d a s
  | .sign o d src l k => Sys2Proof.Machine.execSign o d src l k s
  | .verify src l g h q => Sys2Proof.Machine.execVerify src l g h q s

end Sys2Proof.Machine
end

