-- ==== Sys2Proof/Machine/HostInterface.lean ====
section
/-! DEFINITION. The outside world's side of the machine: the register window (R30 to R40, R61), the two resets (R32, R270,
R271), and what an access does to the state. -/

namespace Sys2Proof.Machine

/-- What an offset of the window names (R30). -/
inductive HostReg where
  | ident
  | ctrl
  | status
  | cfg
  | errcode
  | errcmd
  | cmdcnt
  | ien
  | istat
  | idlen
  | cmd
  | addr (i : RegIdx)
  /-- The word of IDBUF whose first byte is `first`. -/
  | idbuf (first : Nat)
  /-- The word of DBUF whose first byte is `first`. -/
  | dbuf (first : Nat)
  /-- No register: reads 0, ignores writes. -/
  | unmapped
  deriving DecidableEq, Repr

/-- The map of R30, for an offset that is a multiple of 4. -/
def hostReg (c : Params) (off : Nat) : HostReg :=
  if off = 0x00000 then .ident
  else if off = 0x00004 then .ctrl
  else if off = 0x00008 then .status
  else if off = 0x0000C then .cfg
  else if off = 0x00010 then .errcode
  else if off = 0x00014 then .errcmd
  else if off = 0x00018 then .cmdcnt
  else if off = 0x0001C then .ien
  else if off = 0x00020 then .istat
  else if off = 0x00024 then .idlen
  else if off = 0x00028 then .cmd
  else if 0x00040 ≤ off ∧ off < 0x00080 then .addr (Fin.ofNat 16 ((off - 0x40) / 4))
  else if 0x02000 ≤ off ∧ off < 0x02000 + c.idmax then .idbuf (off - 0x02000)
  else if 0x10000 ≤ off ∧ off < 0x10000 + c.bufsz then .dbuf (off - 0x10000)
  else .unmapped

/-- The word view of four bytes: the byte with the lowest address is in bits 31:24 (R61). -/
def wordOfBytes (b0 b1 b2 b3 : Byte) : Word := b0 ++ b1 ++ b2 ++ b3

/-- The four bytes of a word, from bits 31:24 down (R38, R61). -/
def bytesOfWord (v : Word) : Bytes :=
  [v.extractLsb' 24 8, v.extractLsb' 16 8, v.extractLsb' 8 8, v.extractLsb' 0 8]

/-- One bit of a register the host reads. -/
def bitAt (b : Bool) (pos : Nat) : Word := BitVec.ofNat 32 (b.toNat * 2 ^ pos)

/-- CFG as the host reads it (R34). -/
def cfgWord (c : Cfg) : Word :=
  bitAt (c.mode == .c1c2c3) 0 ||| bitAt (c.sigenc == .plain) 1 |||
    (match c.c1form with
    | .uncompressed => 0
    | .compressed => 4
    | .hybrid => 8)

/-- STATUS as the host reads it (R33). -/
def State.statusWord (s : State) : Word := bitAt s.busy 0 ||| bitAt s.err 1 ||| bitAt s.t 2

/-- IEN or ISTAT as the host reads it (R39). -/
def irqWord (b : IrqBits) : Word := bitAt b.done 0 ||| bitAt b.err 1

/-- What a host read of a register returns (R30 to R39); write-only registers read 0. -/
def hostRead (s : State) : HostReg → Word
  | .ident => 0x534D3243
  | .ctrl => 0
  | .status => s.statusWord
  | .cfg => cfgWord s.cfg
  | .errcode => errcodeWord s.errcode
  | .errcmd => s.errcmd
  | .cmdcnt => s.cmdcnt
  | .ien => irqWord s.ien
  | .istat => irqWord s.istat
  | .idlen => s.idlen.setWidth 32
  | .cmd => 0
  | .addr i => regGet s.a i
  | .idbuf k => wordOfBytes (s.idbufByte k) (s.idbufByte (k + 1)) (s.idbufByte (k + 2)) (s.idbufByte (k + 3))
  | .dbuf k => wordOfBytes (s.dbufByte k) (s.dbufByte (k + 1)) (s.dbufByte (k + 2)) (s.dbufByte (k + 3))
  | .unmapped => 0

/-- Reset (R45, R270): every piece of the spec's state at its reset value, and DBUF unspecified anew. The outside world's own
side (the parameters, the RNG port, the accesses that wait, the last word read) is not the CORE's to reset. -/
def State.resetCore (s : State) : State :=
  { State.reset with
    params := s.params
    dbufEpoch := s.dbufEpoch + 1
    rng := s.rng
    inputs := s.inputs
    readData := s.readData }

/-- A host write to CFG (R34): C1FORM keeps its value where bits 3:2 are `11`. -/
def writeCfg (c : Cfg) (v : Word) : Cfg :=
  { mode := if v.getLsbD 0 then .c1c2c3 else .c1c3c2
    sigenc := if v.getLsbD 1 then .plain else .der
    c1form := (formOf (BitVec.ofNat 4 (bitField v 2 2))).getD c.c1form }

/-- A host write to ISTAT: a bit written 1 clears (R39). -/
def clearBits (b : IrqBits) (v : Word) : IrqBits :=
  { done := b.done && !v.getLsbD 0, err := b.err && !v.getLsbD 1 }

/-- A host write to IDLEN: ignored above IDMAX (R38). -/
def State.writeIdlen (s : State) (v : Word) : State :=
  if bitField v 0 16 ≤ s.params.idmax then { s with idlen := BitVec.ofNat 16 (bitField v 0 16) } else s

/-- A host write to CMD while the CORE is idle (R40): dropped while STATUS.ERR is 1 (R238), accepted otherwise. -/
def State.acceptCommand (s : State) (w : Word) : State :=
  if s.err then s else { s with busy := true, cmd := w }

/-- What a host write to a register does, while the CORE is idle (R30 to R40). Read-only registers ignore it. -/
def hostWrite (s : State) (v : Word) : HostReg → State
  | .ident => s
  | .ctrl => if v.getLsbD 0 then s.resetCore else s
  | .status => if v.getLsbD 1 then s.acknowledge else s
  | .cfg => { s with cfg := writeCfg s.cfg v }
  | .errcode => s
  | .errcmd => s
  | .cmdcnt => s
  | .ien => { s with ien := { done := v.getLsbD 0, err := v.getLsbD 1 } }
  | .istat => { s with istat := clearBits s.istat v }
  | .idlen => s.writeIdlen v
  | .cmd => s.acceptCommand v
  | .addr i => s.writeA i v
  | .idbuf k => { s with idbuf := Memory.putBytes idbufUnlisted k (bytesOfWord v) s.idbuf }
  | .dbuf k => s.memWrite k (bytesOfWord v)
  | .unmapped => s

/-- Whether an offset names a whole word of the window (R30, R66). -/
def wordAligned (off : HostOffset) : Bool := off.toNat % 4 == 0

/-- One access of the outside world, performed while the CORE is idle. A host access that is not expressible on the interface
is refused (U11). -/
def State.perform (s : State) (a : Access) : Host.Outcome State Fault Refusal :=
  match a with
  | .write off v =>
    if wordAligned off then .next (hostWrite s v (hostReg s.params off.toNat)) else .refused .unalignedHostAccess
  | .read off =>
    if wordAligned off then .next { s with readData := hostRead s (hostReg s.params off.toNat) }
    else .refused .unalignedHostAccess
  | .hwReset _ => .next s.resetCore

/-- The most RNG words a command can have drawn when a hardware reset abandons it (log 6): RETRY_MAX for ENCRYPT and SIGN, none
for any other word (R41). -/
def State.maxDraws (s : State) : Nat :=
  match decode s.cmd with
  | .ok (.encrypt _ _ _ _ _) => s.params.retryMax
  | .ok (.sign _ _ _ _ _) => s.params.retryMax
  | _ => 0

/-- A hardware reset while a command runs (R271): the command is abandoned, the RNG words it had drawn are not given back. -/
def State.abandon (s : State) (drawn : Nat) : State :=
  (s.withRng (s.rng.skip (min drawn s.maxDraws))).resetCore

/-- What the CORE answers while a command runs: a read of STATUS or ISTAT (R281) and the hardware reset input (R271). Every other
access is held. -/
def Access.answeredWhileBusy : Access → Bool
  | .write _ _ => false
  | .read off => off == 0x00008 || off == 0x00020
  | .hwReset _ => true

/-- Whether an access behind `held` held ones has been issued while the command runs (log 5). -/
def Arrival.issuedBehind (held : Nat) : Arrival → Bool
  | .afterCommand => false
  | .duringCommand overtaken => decide (held ≤ overtaken)

/-- The access that reaches the CORE while a command runs, if one does, and the accesses that wait on: it overtakes the held
ones before it (R281, "at once"), but no access not yet issued. `held` counts the held ones passed. -/
def takeDuring (held : Nat) : List Input → Option (Access × List Input)
  | [] => none
  | x :: rest =>
    if x.access.answeredWhileBusy then
      if x.arrival.issuedBehind held then some (x.access, rest) else none
    else
      match takeDuring (held + 1) rest with
      | some (a, rest') => some (a, x :: rest')
      | none => none

/-- What happens while a command runs, if an access reaches the CORE: a read is answered at once from the state before the
command (R281), a hardware reset abandons it (R271). -/
def State.duringCommand (s : State) : Option State :=
  match takeDuring 0 s.inputs with
  | some (.read off, rest) => some { s with inputs := rest, readData := hostRead s (hostReg s.params off.toNat) }
  | some (.hwReset drawn, rest) => some (State.abandon { s with inputs := rest } drawn)
  | some (.write _ _, _) => none
  | none => none

/-- The first access that could reach the CORE during the running command is issued only after it. -/
def holdFirst : List Input → List Input
  | [] => []
  | x :: rest =>
    if x.access.answeredWhileBusy then { x with arrival := .afterCommand } :: rest else x :: holdFirst rest

end Sys2Proof.Machine
end

