-- ==== Sys2Proof/Machine/Step.lean ====
section
/-! DEFINITION. One step of the machine. An idle CORE performs the next access of the outside world, or stays idle (R286); a
CMD write it accepts makes it busy (R40). A busy CORE answers what may reach it during the command (R281, R271), or runs the
command in CMD to its end: completion (R280) or a fault (R236), a word that is no command included (R98). -/

namespace Sys2Proof.Machine

/-- The accepted command word is decoded and executed by its rule (R40, R98). -/
def runCommand (s : State) : Host.Outcome State Fault Refusal :=
  match decode s.cmd with
  | .ok i => exec i s
  | .error e => .next (s.raise (decodeFault e))

/-- One step. -/
def step (s : State) : Host.Outcome State Fault Refusal :=
  if s.busy then
    match s.duringCommand with
    | some s' => .next s'
    | none => runCommand s
  else
    match s.inputs with
    | [] => .next s
    | i :: rest => State.perform { s with inputs := rest } i.access

/-- The state whose very next step runs the command word `w` (the fixed name of the task): the CORE has just accepted `w` and
no access reaches it during the command (log 10). -/
def State.withFetchWord (s : State) (nbits w : Nat) : State :=
  { s with
    busy := true
    err := false
    cmd := BitVec.ofNat 32 (w % 2 ^ nbits)
    inputs := holdFirst s.inputs }

end Sys2Proof.Machine
end

