-- ==== Sys2Proof/Safety.lean ====
section
/-! DEFINITION. The terms claims are stated in: a sound state, a safe run; what a command may write and how it ends (R21, R23,
R25, R27, R233, R236, R280); which accesses are held and which reset (R270, R271, R281); the opcode map as a
table (R96); the words of the RNG that fail an iteration (R190, R201). -/

namespace Sys2Proof.Machine

/-! ## Sound states and safe runs -/

/-- A byte memory of `size` bytes: canonical, and no entry outside it. -/
def memoryInside (unlisted : Nat → Option Byte) (size : Nat) (m : Memory) : Bool :=
  Memory.wf unlisted m && m.all fun c => decide (c.1 < size)

/-- The representation of `INF` is unique (R22). -/
def pointRegOk (v : PointReg) : Bool := !v.inf || (v.x == 0 && v.y == 0)

/-- What holds of the machine's state at every moment: the parameters are in the ranges of R6, DBUF and IDBUF are canonical and
inside their sizes (R26, R38), `IDLEN <= IDMAX` (R38), `INF` is stored one way (R22), no command runs while ERR is 1 (R238,
R239), and ERR is 1 only where a fault has been recorded (R236). -/
structure State.Sound (s : State) : Prop where
  params : s.params.ok = true
  dbuf : memoryInside dbufUnlisted s.params.bufsz s.dbuf = true
  idbuf : memoryInside idbufUnlisted s.params.idmax s.idbuf = true
  idlen : s.idlen.toNat ≤ s.params.idmax
  points : ∀ i : RegIdx, pointRegOk (regGet s.p i) = true
  busyErr : s.busy = true → s.err = false
  errRecorded : s.err = true → s.errcode ≠ none

/-- A program is a list of accesses (R286); the state in which it is about to run. -/
def State.withProgram (s : State) (program : List Input) : State := { s with inputs := program }

/-- The run of a program has ended: the list is exhausted and no command runs (R286). -/
def State.ended (s : State) : Bool := s.inputs.isEmpty && !s.busy

/-- A run of `n` steps is safe: no step refuses (none can fault). -/
def SafeRun (n : Nat) (s : State) : Prop := ∃ t, Host.Core.run Sys2Proof.core n s = .next t

/-- The meanings of a list of commands, run one after the other. -/
def execAll : List Instr → State → Host.Outcome State Fault Refusal
  | [], s => .next s
  | i :: is, s =>
    match exec i s with
    | .next s' => execAll is s'
    | .fault f => .fault f
    | .refused r => .refused r

/-! ## What a command may write, and how it ends -/

/-- The places of the state a command may write: registers by number, one region of DBUF as its first address and its number
of bytes, the flag T, and the RNG port. -/
structure Writes where
  r : List RegIdx := []
  p : List RegIdx := []
  a : List RegIdx := []
  dbuf : Nat × Nat := (0, 0)
  t : Bool := false
  rng : Bool := false
  deriving DecidableEq, Repr

/-- Everything outside `w` that no end of a command writes is as before: the registers, every byte of DBUF and IDBUF, T, the
configuration, the RNG port, the accesses that wait. -/
structure State.Kept (w : Writes) (s s' : State) : Prop where
  r : ∀ i, i ∉ w.r → regGet s'.r i = regGet s.r i
  p : ∀ i, i ∉ w.p → regGet s'.p i = regGet s.p i
  a : ∀ i, i ∉ w.a → regGet s'.a i = regGet s.a i
  dbuf : ∀ addr, ¬(w.dbuf.1 ≤ addr ∧ addr < w.dbuf.1 + w.dbuf.2) → s'.dbufByte addr = s.dbufByte addr
  idbuf : s'.idbuf = s.idbuf
  idlen : s'.idlen = s.idlen
  t : w.t = false → s'.t = s.t
  rng : w.rng = false → s'.rng = s.rng
  cfg : s'.cfg = s.cfg
  ien : s'.ien = s.ien
  cmd : s'.cmd = s.cmd
  params : s'.params = s.params
  dbufEpoch : s'.dbufEpoch = s.dbufEpoch
  inputs : s'.inputs = s.inputs
  readData : s'.readData = s.readData

/-- A command completed (R280) and wrote nothing outside `w`. -/
structure State.Completed (w : Writes) (s s' : State) : Prop extends State.Kept w s s' where
  cmdcnt : s'.cmdcnt = s.cmdcnt + 1
  istat : s'.istat = { done := true, err := s.istat.err }
  busy : s'.busy = false
  err : s'.err = s.err
  errcode : s'.errcode = s.errcode
  errcmd : s'.errcmd = s.errcmd

/-- A command faulted with the code `c` (R236) and wrote nothing else outside `w`. -/
structure State.Faulted (w : Writes) (c : FaultCode) (s s' : State) : Prop extends State.Kept w s s' where
  errcode : s'.errcode = some c
  errcmd : s'.errcmd = s.cmd
  err : s'.err = true
  istat : s'.istat = { done := s.istat.done, err := true }
  busy : s'.busy = false
  cmdcnt : s'.cmdcnt = s.cmdcnt

/-- The command faults with the code `c` and writes nothing else (R236). -/
def FaultsWith (i : Instr) (s : State) (c : FaultCode) : Prop := ∃ s', exec i s = .next s' ∧ State.Faulted {} c s s'

/-- The number of bytes PENC writes for a `form` field: `(form = 1) ? 33 : 65` (R172). -/
def formLength (form : BitVec 4) : Nat := if form = 1#4 then 33 else 65

/-- The number of bytes DECRYPT writes: the length of C2 (R191). -/
def plaintextLength (src l : RegIdx) (raw : Bool) (s : State) : Nat :=
  match c1Length raw (s.memRead (s.aNat src) (s.aNat l)) with
  | .ok c1len => s.aNat l - c1len - 32
  | .error _ => 0

/-- What each command may write (R21, R23, R25, R27, R41, R67). SIGN writes the bytes of its signature, at most `sigmax`. -/
def commandWrites (i : Instr) (s : State) : Writes :=
  match i with
  | .nop => {}
  | .li d _ => { a := [d] }
  | .aaddi d _ _ => { a := [d] }
  | .ldr d _ _ => { r := [d] }
  | .str _ a imm => { dbuf := (s.effAddr a imm, 32) }
  | .movr d _ => { r := [d] }
  | .ldc d _ => { r := [d] }
  | .pldg d => { p := [d] }
  | .pset d _ _ => { p := [d] }
  | .pget d e _ => { r := [d, e] }
  | .pmov d _ => { p := [d] }
  | .psetinf d => { p := [d] }
  | .montmul d _ _ _ => { r := [d] }
  | .fadd d _ _ _ => { r := [d] }
  | .fsub d _ _ _ => { r := [d] }
  | .padd d _ _ => { p := [d] }
  | .pdbl d _ => { p := [d] }
  | .smul d _ _ => { p := [d] }
  | .pchk _ => { t := true }
  | .pinf _ => { t := true }
  | .penc o d _ form => { a := [o], dbuf := (s.aNat d, formLength form) }
  | .pdec d _ _ => { p := [d] }
  | .kdf d _ _ o => { dbuf := (s.aNat d, s.aNat o) }
  | .encrypt o d _ l _ => { a := [o], dbuf := (s.aNat d, cipherLength s.cfg (s.aNat l)), rng := true }
  | .decrypt o d src l _ raw => { a := [o], dbuf := (s.aNat d, plaintextLength src l raw s) }
  | .za d _ => { r := [d] }
  | .sign o d _ _ _ => { a := [o], dbuf := (s.aNat d, sigMax s.cfg.sigenc), rng := true }
  | .verify _ _ _ _ _ => { t := true }

/-- The faults each command can raise once its word has decoded (R233), and `IllegalCommand(3)` for a term whose selector is
reserved (R97). -/
def commandFaults : Instr → List FaultCode
  | .nop => []
  | .li _ _ => []
  | .aaddi _ _ _ => []
  | .ldr _ _ _ => [.srcRange]
  | .str _ _ _ => [.dstRange]
  | .movr _ _ => []
  | .ldc _ cid => if cid.toNat < 10 then [] else [.badFunction]
  | .pldg _ => []
  | .pset _ _ _ => []
  | .pget _ _ _ => [.infinity]
  | .pmov _ _ => []
  | .psetinf _ => []
  | .montmul _ _ _ _ => []
  | .fadd _ _ _ _ => []
  | .fsub _ _ _ _ => []
  | .padd _ _ _ => [.offCurve]
  | .pdbl _ _ => [.offCurve]
  | .smul _ _ _ => [.offCurve, .scalarRange]
  | .pchk _ => []
  | .pinf _ => []
  | .penc _ _ _ form => if form.toNat < 3 then [.infinity, .offCurve, .dstRange] else [.badFunction]
  | .pdec _ _ _ => [.srcRange, .badPointLength, .badPrefix, .hybridParity, .offCurve, .noSqrt]
  | .kdf _ _ _ _ => [.empty, .srcRange, .dstRange, .kdfZero]
  | .encrypt _ _ _ _ _ => [.empty, .srcRange, .dstRange, .infinity, .offCurve, .retryExhausted]
  | .decrypt _ _ _ _ _ _ =>
    [.srcRange, .shortCiphertext, .badPrefix, .dstRange, .hybridParity, .offCurve, .noSqrt, .scalarRange, .infinity, .kdfZero, .mac]
  | .za _ _ => [.infinity, .offCurve]
  | .sign _ _ _ _ _ => [.srcRange, .dstRange, .scalarRange, .noInverse, .retryExhausted]
  | .verify _ _ _ _ _ =>
    [.srcRange, .sigRange, .badDer, .plainLength, .intNegative, .intNonminimal, .intTooLong, .infinity, .offCurve]

/-- The length of the C1 with which a ciphertext `c` begins (R191, R192): 64 where the command says RAW64, and otherwise by the
first byte. -/
def C1Length (raw : Bool) (c : Bytes) (c1len : Nat) : Prop :=
  (raw = true ∧ c1len = 64) ∨
    (raw = false ∧ ((∃ b rest, c = b :: rest ∧ b ∈ [0x04#8, 0x06#8, 0x07#8] ∧ c1len = 65) ∨
      (∃ b rest, c = b :: rest ∧ b ∈ [0x02#8, 0x03#8] ∧ c1len = 33)))

/-! ## Tables of the spec -/

/-- Each opcode of R96, with the bits of the word below it that must be zero. -/
def commandMap : List (BitVec 8 × BitVec 24) :=
  [(0x00#8, 0xFFFFFF#24), (0x01#8, 0x0F0000#24), (0x02#8, 0x000000#24), (0x04#8, 0x000000#24), (0x05#8, 0x000000#24),
    (0x06#8, 0x00FFFF#24), (0x07#8, 0x0FFFF0#24), (0x08#8, 0x0FFFFF#24), (0x09#8, 0x000FFF#24), (0x0A#8, 0x000FFF#24),
    (0x0B#8, 0x00FFFF#24), (0x0C#8, 0x0FFFFF#24)] ++
  [(0x10#8, 0x000FFE#24), (0x11#8, 0x000FFE#24), (0x12#8, 0x000FFE#24), (0x20#8, 0x000FFF#24), (0x21#8, 0x00FFFF#24),
    (0x22#8, 0x000FFF#24), (0x23#8, 0x0FFFFF#24), (0x24#8, 0x0FFFFF#24), (0x30#8, 0x000FF0#24), (0x31#8, 0x000FFF#24)] ++
  [(0x40#8, 0x0000FF#24), (0x50#8, 0x00000F#24), (0x51#8, 0x00000E#24), (0x60#8, 0x00FFFF#24), (0x61#8, 0x00000F#24),
    (0x62#8, 0x00000F#24)]

/-- A `cid` or `form` field that holds a reserved value (R97). -/
def reservedFunction (w : Word) : Prop :=
  (w.extractLsb' 24 8 = 0x07#8 ∧ 10 ≤ (w.extractLsb' 0 4).toNat) ∨ (w.extractLsb' 24 8 = 0x30#8 ∧ 3 ≤ (w.extractLsb' 0 4).toNat)

/-- A register number as a field of a command word holds it (R91). -/
def regField (i : RegIdx) : BitVec 4 := BitVec.ofNat 4 i.val

/-- A word of this opcode with one of these bits set is no command: it faults with `IllegalCommand(2)` (R94, R98). -/
def ReservedBitsFault (op : BitVec 8) (mask : BitVec 24) : Prop :=
  ∀ s : State, s.cmd.extractLsb' 24 8 = op → s.cmd.extractLsb' 0 24 &&& mask ≠ 0#24 →
    ∃ s', runCommand s = .next s' ∧ State.Faulted {} .nonzeroReserved s s'

/-- The value ERRCODE reads for each fault (R231). -/
def errorTable : List (FaultCode × Word) :=
  [(.offCurve, 0x0101#32), (.infinity, 0x0201#32), (.scalarRange, 0x0301#32), (.retryExhausted, 0x0401#32), (.noInverse, 0x0501#32),
    (.noSqrt, 0x0601#32), (.empty, 0x0102#32), (.kdfZero, 0x0202#32), (.shortCiphertext, 0x0302#32), (.badPrefix, 0x0103#32),
    (.badPointLength, 0x0203#32), (.hybridParity, 0x0303#32)] ++
  [(.badDer, 0x0403#32), (.mac, 0x0104#32), (.plainLength, 0x0105#32), (.intNegative, 0x0205#32), (.intNonminimal, 0x0305#32),
    (.intTooLong, 0x0405#32), (.unknownOpcode, 0x0106#32), (.nonzeroReserved, 0x0206#32), (.badFunction, 0x0306#32),
    (.srcRange, 0x0107#32), (.dstRange, 0x0207#32), (.sigRange, 0x0307#32)]

/-- The table of R45: what every reset leaves. No byte of DBUF has been written. -/
structure State.AtReset (s : State) : Prop where
  r : ∀ i, regGet s.r i = 0
  p : ∀ i, regGet s.p i = { x := 0, y := 0, inf := true }
  a : ∀ i, regGet s.a i = 0
  t : s.t = false
  busy : s.busy = false
  err : s.err = false
  cfg : s.cfg = { mode := .c1c3c2, sigenc := .der, c1form := .uncompressed }
  errcode : s.errcode = none
  errcmd : s.errcmd = 0
  cmdcnt : s.cmdcnt = 0
  ien : s.ien = { done := false, err := false }
  istat : s.istat = { done := false, err := false }
  irq : s.irq = false
  idlen : s.idlen = 16
  defaultId : (List.range 16).map s.idbufByte =
    [0x31#8, 0x32#8, 0x33#8, 0x34#8, 0x35#8, 0x36#8, 0x37#8, 0x38#8, 0x31#8, 0x32#8, 0x33#8, 0x34#8, 0x35#8, 0x36#8, 0x37#8, 0x38#8]
  idbuf : ∀ addr, 16 ≤ addr → s.idbufByte addr = 0
  dbuf : ∀ addr, Memory.written s.dbuf addr = none

/-! ## Accesses of the outside world -/

/-- A host access the CORE holds while a command runs (R281): every write, and every read but of STATUS and ISTAT. -/
def HeldWhileBusy (a : Access) : Prop :=
  (∃ off v, a = .write off v) ∨ ∃ off, a = .read off ∧ off ≠ 0x08#17 ∧ off ≠ 0x20#17

/-- Of the accesses `q`, `a` reaches the CORE while a command runs, and `rest` wait on: every access before it is held, and it
has been issued (log 5). -/
def ReachesRunning (q : List Input) (a : Access) (rest : List Input) : Prop :=
  ∃ held overtaken behind, q = held ++ { access := a, arrival := .duringCommand overtaken } :: behind ∧
    (∀ x ∈ held, HeldWhileBusy x.access) ∧ held.length ≤ overtaken ∧ ¬HeldWhileBusy a ∧ rest = held ++ behind

/-- The accesses that reset the CORE (R270): the hardware reset input, and a host write of SRST = 1. -/
def Resets (a : Access) : Prop := (∃ n, a = .hwReset n) ∨ ∃ v : Word, a = .write 0x04#17 v ∧ v.getLsbD 0 = true

/-- The next step takes a reset: between commands the next access is one, or the hardware reset reaches a running command. -/
def State.TakesReset (s : State) : Prop :=
  (s.busy = false ∧ ∃ x rest, s.inputs = x :: rest ∧ Resets x.access) ∨
    (s.busy = true ∧ ∃ n rest, ReachesRunning s.inputs (.hwReset n) rest)

/-- What a host read at an offset of the window returns (R30, R31 to R39, R61). -/
structure ReadsAs (s : State) (off : Nat) (v : Word) : Prop where
  ident : off = 0x00 → v = 0x534D3243#32
  ctrl : off = 0x04 → v = 0
  status : off = 0x08 → v.toNat = s.busy.toNat + 2 * s.err.toNat + 4 * s.t.toNat
  cfg : off = 0x0C → v.toNat = (s.cfg.mode == .c1c2c3).toNat + 2 * (s.cfg.sigenc == .plain).toNat +
    4 * (s.cfg.c1form == .compressed).toNat + 8 * (s.cfg.c1form == .hybrid).toNat
  errcodeNone : off = 0x10 → s.errcode = none → v = 0
  errcodeSome : off = 0x10 → ∀ c, s.errcode = some c → (c, v) ∈ errorTable
  errcmd : off = 0x14 → v = s.errcmd
  cmdcnt : off = 0x18 → v = s.cmdcnt
  ien : off = 0x1C → v.toNat = s.ien.done.toNat + 2 * s.ien.err.toNat
  istat : off = 0x20 → v.toNat = s.istat.done.toNat + 2 * s.istat.err.toNat
  idlen : off = 0x24 → v.toNat = s.idlen.toNat
  cmd : off = 0x28 → v = 0
  addr : ∀ i : RegIdx, off = 0x40 + 4 * i.val → v = regGet s.a i
  idbuf : ∀ w, off = 0x2000 + 4 * w → 4 * w < s.params.idmax → v.toNat =
    (s.idbufByte (4 * w)).toNat * 2 ^ 24 + (s.idbufByte (4 * w + 1)).toNat * 2 ^ 16 + (s.idbufByte (4 * w + 2)).toNat * 2 ^ 8 +
      (s.idbufByte (4 * w + 3)).toNat
  dbuf : ∀ w, off = 0x10000 + 4 * w → 4 * w < s.params.bufsz → v.toNat =
    (s.dbufByte (4 * w)).toNat * 2 ^ 24 + (s.dbufByte (4 * w + 1)).toNat * 2 ^ 16 + (s.dbufByte (4 * w + 2)).toNat * 2 ^ 8 +
      (s.dbufByte (4 * w + 3)).toNat
  unmapped : (0x2C ≤ off ∧ off < 0x40) ∨ (0x80 ≤ off ∧ off < 0x2000) ∨ (0x2000 + s.params.idmax ≤ off ∧ off < 0x10000) ∨
    0x10000 + s.params.bufsz ≤ off → v = 0

/-! ## The retry loops -/

/-- The word `k` fails an iteration of ENCRYPT under the key `q` for an `mlen`-byte plaintext (R190). -/
def EncryptWordFails (H : Bytes → Bytes) (q : Point) (mlen k : Nat) : Prop :=
  k = 0 ∨ k ≥ Config.n ∨ scalarMul k q = .inf ∨
    ∃ x2 y2, scalarMul k q = .affine x2 y2 ∧ kdf H (sharedBytes x2 y2) mlen = .error .kdfZero

/-- `r = (e + x1) mod n` with `(x1, y1) = k*G` (R201). -/
def signR (e k : Nat) : Nat := (e + pointX (scalarMul k generator)) % Config.n

/-- The word `k` fails an iteration of SIGN for the private scalar `d` and the digest `e` (R201); `s` is 0 where `k - r*d` is 0
modulo n, `1 + d` having an inverse. -/
def SignWordFails (d e k : Nat) : Prop :=
  k = 0 ∨ k ≥ Config.n ∨ signR e k = 0 ∨ signR e k + k = Config.n ∨ ((k : Int) - signR e k * d) % Config.n = 0

/-! ## DER INTEGERs -/

/-- The contents of the INTEGER of `v` (R204): its big-endian value, at most 33 bytes, not negative, without a superfluous
leading `00`. -/
structure DerContents (v : Nat) (bs : Bytes) : Prop where
  value : os2i bs = v
  notEmpty : 1 ≤ bs.length
  short : bs.length ≤ 33
  sign : byteAt bs 0 < 0x80
  minimal : 2 ≤ bs.length → byteAt bs 0 = 0 → 0x80 ≤ byteAt bs 1

/-- What R205 finds first in the INTEGER with which `bs` begins: malformed, negative, not minimal, too long. -/
def DerIntFault (bs : Bytes) (c : FaultCode) : Prop :=
  ((bs.length < 2 ∨ byteAt bs 0 ≠ 0x02 ∨ byteAt bs 1 = 0 ∨ 0x80 ≤ byteAt bs 1 ∨ bs.length < 2 + byteAt bs 1) ∧ c = .badDer) ∨
    (byteAt bs 0 = 0x02 ∧ 1 ≤ byteAt bs 1 ∧ byteAt bs 1 < 0x80 ∧ 2 + byteAt bs 1 ≤ bs.length ∧
      ((0x80 ≤ byteAt bs 2 ∧ c = .intNegative) ∨
        (2 ≤ byteAt bs 1 ∧ byteAt bs 2 = 0 ∧ byteAt bs 3 < 0x80 ∧ c = .intNonminimal) ∨
        (byteAt bs 2 < 0x80 ∧ (byteAt bs 2 = 0 → 0x80 ≤ byteAt bs 3) ∧ 33 < byteAt bs 1 ∧ c = .intTooLong)))

end Sys2Proof.Machine
end

