-- ==== Sys2Proof/Certificates/Slice0/Obligations.lean ====
section
/-! DEFINITION. The statements for the provers. Their vocabulary stands in Sys2Proof/Safety.lean. -/

section

open Sys2Proof Sys2Proof.Machine

/-! ## Encoding -/

/-- R96 with R91, R92: every command's word, written field by field from the map, decodes to the command, for every value of
every field; and a word whose top byte is no opcode of the map is illegal. -/
def Obligations.EncodingMap : Prop :=
  (∀ (f1 f2 f3 f4 f5 : RegIdx) (imm : BitVec 16) (sel : BitVec 4),
    decode (0x00#8 ++ 0#24) = .ok .nop ∧
    decode (0x01#8 ++ regField f1 ++ 0#4 ++ imm) = .ok (.li f1 imm) ∧
    decode (0x02#8 ++ regField f1 ++ regField f2 ++ imm) = .ok (.aaddi f1 f2 imm) ∧
    decode (0x04#8 ++ regField f1 ++ regField f2 ++ imm) = .ok (.ldr f1 f2 imm) ∧
    decode (0x05#8 ++ regField f1 ++ regField f2 ++ imm) = .ok (.str f1 f2 imm) ∧
    decode (0x06#8 ++ regField f1 ++ regField f2 ++ 0#16) = .ok (.movr f1 f2) ∧
    (sel.toNat < 10 → decode (0x07#8 ++ regField f1 ++ 0#16 ++ sel) = .ok (.ldc f1 sel)) ∧
    decode (0x08#8 ++ regField f1 ++ 0#20) = .ok (.pldg f1) ∧
    decode (0x09#8 ++ regField f1 ++ regField f2 ++ regField f3 ++ 0#12) = .ok (.pset f1 f2 f3) ∧
    decode (0x0A#8 ++ regField f1 ++ regField f2 ++ regField f3 ++ 0#12) = .ok (.pget f1 f2 f3) ∧
    decode (0x0B#8 ++ regField f1 ++ regField f2 ++ 0#16) = .ok (.pmov f1 f2) ∧
    decode (0x0C#8 ++ regField f1 ++ 0#20) = .ok (.psetinf f1) ∧
    decode (0x10#8 ++ regField f1 ++ regField f2 ++ regField f3 ++ 0#11 ++ 0#1) = .ok (.montmul f1 f2 f3 .p) ∧
    decode (0x10#8 ++ regField f1 ++ regField f2 ++ regField f3 ++ 0#11 ++ 1#1) = .ok (.montmul f1 f2 f3 .n) ∧
    decode (0x11#8 ++ regField f1 ++ regField f2 ++ regField f3 ++ 0#11 ++ 0#1) = .ok (.fadd f1 f2 f3 .p) ∧
    decode (0x11#8 ++ regField f1 ++ regField f2 ++ regField f3 ++ 0#11 ++ 1#1) = .ok (.fadd f1 f2 f3 .n) ∧
    decode (0x12#8 ++ regField f1 ++ regField f2 ++ regField f3 ++ 0#11 ++ 0#1) = .ok (.fsub f1 f2 f3 .p) ∧
    decode (0x12#8 ++ regField f1 ++ regField f2 ++ regField f3 ++ 0#11 ++ 1#1) = .ok (.fsub f1 f2 f3 .n) ∧
    decode (0x20#8 ++ regField f1 ++ regField f2 ++ regField f3 ++ 0#12) = .ok (.padd f1 f2 f3) ∧
    decode (0x21#8 ++ regField f1 ++ regField f2 ++ 0#16) = .ok (.pdbl f1 f2) ∧
    decode (0x22#8 ++ regField f1 ++ regField f2 ++ regField f3 ++ 0#12) = .ok (.smul f1 f2 f3) ∧
    decode (0x23#8 ++ regField f1 ++ 0#20) = .ok (.pchk f1) ∧
    decode (0x24#8 ++ regField f1 ++ 0#20) = .ok (.pinf f1) ∧
    (sel.toNat < 3 → decode (0x30#8 ++ regField f1 ++ regField f2 ++ regField f3 ++ 0#8 ++ sel) = .ok (.penc f1 f2 f3 sel)) ∧
    decode (0x31#8 ++ regField f1 ++ regField f2 ++ regField f3 ++ 0#12) = .ok (.pdec f1 f2 f3) ∧
    decode (0x40#8 ++ regField f1 ++ regField f2 ++ regField f3 ++ regField f4 ++ 0#8) = .ok (.kdf f1 f2 f3 f4) ∧
    decode (0x50#8 ++ regField f1 ++ regField f2 ++ regField f3 ++ regField f4 ++ regField f5 ++ 0#4) =
      .ok (.encrypt f1 f2 f3 f4 f5) ∧
    decode (0x51#8 ++ regField f1 ++ regField f2 ++ regField f3 ++ regField f4 ++ regField f5 ++ 0#3 ++ 0#1) =
      .ok (.decrypt f1 f2 f3 f4 f5 false) ∧
    decode (0x51#8 ++ regField f1 ++ regField f2 ++ regField f3 ++ regField f4 ++ regField f5 ++ 0#3 ++ 1#1) =
      .ok (.decrypt f1 f2 f3 f4 f5 true) ∧
    decode (0x60#8 ++ regField f1 ++ regField f2 ++ 0#16) = .ok (.za f1 f2) ∧
    decode (0x61#8 ++ regField f1 ++ regField f2 ++ regField f3 ++ regField f4 ++ regField f5 ++ 0#4) =
      .ok (.sign f1 f2 f3 f4 f5) ∧
    decode (0x62#8 ++ regField f1 ++ regField f2 ++ regField f3 ++ regField f4 ++ regField f5 ++ 0#4) =
      .ok (.verify f1 f2 f3 f4 f5)) ∧
  ∀ w : Word, commandMap.lookup (w.extractLsb' 24 8) = none → decode w = .error .unknownOpcode

/-- R98, R94: what the word in CMD does, in the order of the rule: an unknown opcode, then a must-be-zero bit, then a reserved
selector fault with IllegalCommand(1), (2), (3) and do nothing else; every other word is one command, and its rule is executed. -/
def Obligations.DecodeOrder : Prop :=
  ∀ s : State,
    match commandMap.lookup (s.cmd.extractLsb' 24 8) with
    | none => ∃ s', runCommand s = .next s' ∧ State.Faulted {} .unknownOpcode s s'
    | some mask =>
      (s.cmd.extractLsb' 0 24 &&& mask ≠ 0#24 → ∃ s', runCommand s = .next s' ∧ State.Faulted {} .nonzeroReserved s s') ∧
      (s.cmd.extractLsb' 0 24 &&& mask = 0#24 → reservedFunction s.cmd →
        ∃ s', runCommand s = .next s' ∧ State.Faulted {} .badFunction s s') ∧
      (s.cmd.extractLsb' 0 24 &&& mask = 0#24 → ¬reservedFunction s.cmd →
        ∃ i, decode s.cmd = .ok i ∧ i.wellFormed = true ∧ encode i = s.cmd ∧ runCommand s = exec i s)

/-- Decode and encode agree, both ways: a word decodes to a command exactly where the command is well-formed and the word is
its encoding. -/
def Obligations.DecodeEncodeAgree : Prop :=
  ∀ (w : Word) (i : Instr), decode w = .ok i ↔ i.wellFormed = true ∧ w = encode i

/-- R101: the worked encodings. -/
def Obligations.WorkedEncodings : Prop :=
  decode 0x00000000#32 = .ok .nop ∧
  decode 0x01300100#32 = .ok (.li 3 256#16) ∧
  decode 0x02210041#32 = .ok (.aaddi 2 1 65#16) ∧
  decode 0x04100020#32 = .ok (.ldr 1 0 32#16) ∧
  decode 0x05400040#32 = .ok (.str 4 0 64#16) ∧
  decode 0x07200008#32 = .ok (.ldc 2 8#4) ∧
  decode 0x10302000#32 = .ok (.montmul 3 0 2 .p) ∧
  decode 0x12601001#32 = .ok (.fsub 6 0 1 .n) ∧
  decode 0x22100000#32 = .ok (.smul 1 0 0) ∧
  decode 0x30211001#32 = .ok (.penc 2 1 1 1#4) ∧
  decode 0x40312400#32 = .ok (.kdf 3 1 2 4) ∧
  decode 0x50431210#32 = .ok (.encrypt 4 3 1 2 1) ∧
  decode 0x51653401#32 = .ok (.decrypt 6 5 3 4 0 true) ∧
  decode 0x61431200#32 = .ok (.sign 4 3 1 2 0) ∧
  decode 0x62123410#32 = .ok (.verify 1 2 3 4 1)

/-- R100: each pseudo-instruction is the sequence of the table, and running the sequence has the effect of the table and no
other effect on R, P or A. The table's effects are those of a temporary `t` other than the source `a` (LDC would overwrite the
source). -/
def Obligations.PseudoInstructions : Prop :=
  (∀ (d a : RegIdx) (s : State),
    expandPseudo (.mova d a) = [.aaddi d a 0#16] ∧
    ∃ s', execAll (expandPseudo (.mova d a)) s = .next s' ∧ regGet s'.a d = regGet s.a a ∧
      (∀ i, i ≠ d → regGet s'.a i = regGet s.a i) ∧ s'.r = s.r ∧ s'.p = s.p) ∧
  (∀ (d a t : RegIdx) (m : Modulus) (s : State), a ≠ t →
    expandPseudo (.tomont d a t m) = [.ldc t (match m with | .p => 8#4 | .n => 9#4), .montmul d a t m] ∧
    ∃ s', execAll (expandPseudo (.tomont d a t m)) s = .next s' ∧
      s'.rNat d = s.rNat a * 2 ^ 256 % modulusValue m ∧
      (d ≠ t → s'.rNat t = 2 ^ 512 % modulusValue m) ∧
      (∀ i, i ≠ d → i ≠ t → regGet s'.r i = regGet s.r i) ∧ s'.p = s.p ∧ s'.a = s.a) ∧
  (∀ (d a t : RegIdx) (m : Modulus) (s : State), a ≠ t →
    expandPseudo (.frommont d a t m) = [.ldc t 1#4, .montmul d a t m] ∧
    ∃ s', execAll (expandPseudo (.frommont d a t m)) s = .next s' ∧
      s'.rNat d < modulusValue m ∧ s'.rNat d * 2 ^ 256 % modulusValue m = s.rNat a % modulusValue m ∧
      (d ≠ t → s'.rNat t = 1) ∧
      (∀ i, i ≠ d → i ≠ t → regGet s'.r i = regGet s.r i) ∧ s'.p = s.p ∧ s'.a = s.a) ∧
  (∀ (d a t : RegIdx) (m : Modulus) (s : State), a ≠ t →
    expandPseudo (.fneg d a t m) = [.ldc t 0#4, .fsub d t a m] ∧
    ∃ s', execAll (expandPseudo (.fneg d a t m)) s = .next s' ∧
      (s'.rNat d : Int) = (-(s.rNat a : Int)) % (modulusValue m : Int) ∧
      (d ≠ t → s'.rNat t = 0) ∧
      (∀ i, i ≠ d → i ≠ t → regGet s'.r i = regGet s.r i) ∧ s'.p = s.p ∧ s'.a = s.a) ∧
  ∀ (d k : RegIdx) (s : State), 1 ≤ s.rNat k → s.rNat k < Config.n →
    expandPseudo (.pubkey d k) = [.pldg d, .smul d k d] ∧
    ∃ s', execAll (expandPseudo (.pubkey d k)) s = .next s' ∧
      s'.point d = scalarMul (s.rNat k) generator ∧
      (∀ i, i ≠ d → regGet s'.p i = regGet s.p i) ∧ s'.r = s.r ∧ s'.a = s.a

/-! ## The step and the register window -/

/-- When the word in CMD decodes to a command, the step of a busy CORE that no access interrupts is exec of that command at
that state; and `withFetchWord` sets up exactly such a state, leaving everything a command reads as it was. Both are the model's
choice: that a command is a second step of a busy CORE is log 4, what may interrupt it is log 5, `withFetchWord` is log 10. -/
def Obligations.StepRunsDecodedCommand : Prop :=
  (∀ (s : State) (i : Instr), s.busy = true → s.duringCommand = none → decode s.cmd = .ok i → step s = exec i s) ∧
  ∀ (s : State) (i : Instr), i.wellFormed = true →
    let s1 := s.withFetchWord 32 (encode i).toNat
    step s1 = exec i s1 ∧ s1.busy = true ∧ s1.err = false ∧ s1.cmd = encode i ∧
      { s1 with busy := s.busy, err := s.err, cmd := s.cmd, inputs := s.inputs } = s

/-- R40: a host write to CMD. Idle with ERR = 1 it is dropped; idle with ERR = 0 it is accepted, and the next step executes it
and ends with BUSY = 0: in a completion, or in a fault the word or its command can raise, with nothing else written but, where
the retry loop is exhausted, the RNG port; while BUSY = 1 it is held. That a command is a second step of a busy CORE is the
model's choice (log 4), and which accesses reach it meanwhile is log 5's. -/
def Obligations.CommandWrite : Prop :=
  (∀ (s : State) (w : Word) (arr : Arrival) (rest : List Input), s.busy = false →
    s.inputs = { access := .write 0x28#17 w, arrival := arr } :: rest → s.err = true →
    step s = .next { s with inputs := rest }) ∧
  (∀ (s : State) (w : Word) (arr : Arrival) (rest : List Input), s.busy = false →
    s.inputs = { access := .write 0x28#17 w, arrival := arr } :: rest → s.err = false →
    let s1 := { s with inputs := rest, busy := true, cmd := w }
    step s = .next s1 ∧
      (s1.duringCommand = none → ∃ s2, step s1 = .next s2 ∧ s2.busy = false ∧
        ((∃ i, decode w = .ok i ∧
            (State.Completed (commandWrites i s1) s1 s2 ∨
              ∃ c ∈ commandFaults i, State.Faulted { rng := c == .retryExhausted } c s1 s2)) ∨
          ∃ e, decode w = .error e ∧ State.Faulted {} (decodeFault e) s1 s2))) ∧
  ∀ (s : State) (w : Word) (arr : Arrival) (rest : List Input), s.busy = true →
    s.inputs = { access := .write 0x28#17 w, arrival := arr } :: rest →
    ∃ s' rest', step s = .next s' ∧ s'.inputs = { access := .write 0x28#17 w, arrival := arr } :: rest' ∧
      (s.duringCommand = none → step s = runCommand s ∧ rest' = rest ∧ s'.busy = false)

/-- R238: the CMD writes queued behind a fault have no effect: however many wait, they are consumed one step each and nothing
else changes. -/
def Obligations.FaultStopsQueue : Prop :=
  ∀ (q rest : List Input) (s : State),
    (∀ x ∈ q, ∃ w : Word, x.access = .write 0x28#17 w) → s.busy = false → s.err = true → s.inputs = q ++ rest →
    Host.Core.run Sys2Proof.core q.length s = .next { s with inputs := rest }

/-- R281: while BUSY = 1 a read of STATUS or ISTAT is answered at once, from the state before the command, ahead of every held
access issued before it; where no access reaches the running command, it runs to its end and every access that waits is held;
held accesses are performed in the order they were issued, on the state after the command. That the accesses wait in one queue
in the order of issue, and the mark that says when one is issued, are the model's (logs 4 and 5). -/
def Obligations.HeldAccesses : Prop :=
  (∀ (s : State) (off : HostOffset) (rest : List Input), s.busy = true → ReachesRunning s.inputs (.read off) rest →
    ∃ v : Word, step s = .next { s with inputs := rest, readData := v } ∧
      ((off = 0x08#17 ∧ v.toNat = 1 + 2 * s.err.toNat + 4 * s.t.toNat) ∨
        (off = 0x20#17 ∧ v.toNat = s.istat.done.toNat + 2 * s.istat.err.toNat))) ∧
  (∀ s : State, s.busy = true → (¬∃ a rest, ReachesRunning s.inputs a rest) →
    step s = runCommand s ∧ ∃ s', step s = .next s' ∧ s'.inputs = s.inputs ∧ s'.busy = false) ∧
  ∀ (s : State) (x : Input) (rest : List Input), s.busy = false → s.inputs = x :: rest →
    step s = State.perform { s with inputs := rest } x.access

/-- R280, R236: every command, in every state, ends in one step, in one of two ways. Either it completes, and has written
nothing outside the places its rule names; or it faults with one of the faults its rule names, and the state is the state
before the command but for the five writes of R236 (and, where the retry loop is exhausted, RETRY_MAX words drawn). A term with
a reserved selector, which no word decodes to, takes IllegalCommand(3): the model's choice (log 16). That a command always ends
rests on an RNG and a hash that always answer, as R285 says a model takes them (log 17). -/
def Obligations.EveryCommandEnds : Prop :=
  (∀ (i : Instr) (s : State), ∃ s', exec i s = .next s' ∧
    (State.Completed (commandWrites i s) s s' ∨
      ∃ c ∈ commandFaults i, State.Faulted { rng := c == .retryExhausted } c s s' ∧
        (c = .retryExhausted → s'.rng = s.rng.skip s.params.retryMax))) ∧
  ∀ (i : Instr) (s : State), i.wellFormed = false → FaultsWith i s .badFunction

/-- R27: no step changes T but a PCHK, PINF or VERIFY that completes, and a reset; the host reads T in STATUS bit 2; and no
command reads T: from two states that differ in T alone a command goes to states that differ in T at most, and either it writes
the same T in both or it leaves both as they were. -/
def Obligations.FlagTWriters : Prop :=
  (∀ s s' : State, step s = .next s' → s'.t = s.t ∨ (s.TakesReset ∧ s'.t = false) ∨
    (s.busy = true ∧ ∃ i, decode s.cmd = .ok i ∧ State.Completed { t := true } s s' ∧
      ((∃ a, i = .pchk a) ∨ (∃ a, i = .pinf a) ∨ ∃ src l g h q, i = .verify src l g h q))) ∧
  (∀ s : State, s.statusWord.getLsbD 2 = s.t) ∧
  ∀ (i : Instr) (s s1 : State) (b : Bool), exec i s = .next s1 →
    ∃ s2, exec i { s with t := b } = .next s2 ∧ { s2 with t := s1.t } = s1 ∧ (s2.t = s1.t ∨ (s1.t = s.t ∧ s2.t = b))

/-- R37: CMDCNT goes up by one, modulo 2^32, at the end of a command exactly where the command does not set ERR; it goes to 0
at a reset; and it changes at no other step: not where a command faults, not at an access that is no reset (a dropped CMD write
among them), not while the CORE is idle. A command runs only while ERR is 0 (StepKeepsSound). -/
def Obligations.CommandCounter : Prop :=
  ∀ s s' : State, step s = .next s' →
    (s.busy = true → s.duringCommand = none → s.err = false →
      (s'.err = false → s'.cmdcnt.toNat = (s.cmdcnt.toNat + 1) % 2 ^ 32) ∧ (s'.err = true → s'.cmdcnt = s.cmdcnt)) ∧
    (s.TakesReset → s'.cmdcnt = 0) ∧
    (¬s.TakesReset → s.busy = false ∨ s.duringCommand ≠ none → s'.cmdcnt = s.cmdcnt)

/-- R41: words are drawn from the RNG port in order, only by ENCRYPT and SIGN, at most RETRY_MAX of them by one command, and at
least one by an ENCRYPT or SIGN that completes. -/
def Obligations.RandomWordsDrawn : Prop :=
  ∀ (i : Instr) (s s' : State), exec i s = .next s' → ∃ j, j ≤ s.params.retryMax ∧ s'.rng = s.rng.skip j ∧
    (j ≠ 0 → (∃ o d src l q, i = .encrypt o d src l q) ∨ ∃ o d src l k, i = .sign o d src l k) ∧
    ((∃ o d src l q, i = .encrypt o d src l q) ∨ (∃ o d src l k, i = .sign o d src l k) → s'.cmdcnt = s.cmdcnt + 1 → 1 ≤ j)

/-- R45: the state after a hardware reset between commands and after a host write of SRST = 1, and the model's reset state. A
write of SRST = 0 does nothing. -/
def Obligations.ResetValues : Prop :=
  State.AtReset State.reset ∧
  (∀ (s : State) (n : Nat) (arr : Arrival) (rest : List Input), s.busy = false →
    s.inputs = { access := .hwReset n, arrival := arr } :: rest →
    ∃ s', step s = .next s' ∧ State.AtReset s' ∧ s'.inputs = rest) ∧
  ∀ (s : State) (v : Word) (arr : Arrival) (rest : List Input), s.busy = false →
    s.inputs = { access := .write 0x04#17 v, arrival := arr } :: rest →
    (v.getLsbD 0 = true → ∃ s', step s = .next s' ∧ State.AtReset s' ∧ s'.inputs = rest) ∧
    (v.getLsbD 0 = false → step s = .next { s with inputs := rest })

/-- R270, R271: resets and what they meet. A hardware reset that arrives while a command runs abandons it: the state is the reset
state, the accesses that wait go on waiting, and the words the command had drawn are not given back. How many they are is the
access's own number, capped by what the command can draw: the model's choice (log 6); a reset between commands draws none. A
soft reset that waits behind a running command takes effect after it. Every reset leaves DBUF with new unspecified contents,
and no other step does: the model says so by the counter `dbufEpoch` (logs 1 and 18; that a reset keeps the accesses that wait
is log 18 too). -/
def Obligations.ResetAtAnyTime : Prop :=
  (∀ (s : State) (n : Nat) (rest : List Input), s.busy = true → ReachesRunning s.inputs (.hwReset n) rest →
    ∃ s', step s = .next s' ∧ State.AtReset s' ∧ s'.inputs = rest ∧ s'.rng = s.rng.skip (min n s.maxDraws)) ∧
  (∀ s : State,
    ((∃ o d src l q, decode s.cmd = .ok (.encrypt o d src l q)) ∨ (∃ o d src l k, decode s.cmd = .ok (.sign o d src l k)) →
      s.maxDraws = s.params.retryMax) ∧
    ((∀ o d src l q, decode s.cmd ≠ .ok (.encrypt o d src l q)) → (∀ o d src l k, decode s.cmd ≠ .ok (.sign o d src l k)) →
      s.maxDraws = 0)) ∧
  (∀ (s : State) (v : Word) (arr : Arrival) (rest : List Input), s.busy = true →
    s.inputs = { access := .write 0x04#17 v, arrival := arr } :: rest →
    ∃ s' rest', step s = .next s' ∧ s'.inputs = { access := .write 0x04#17 v, arrival := arr } :: rest' ∧
      (s.duringCommand = none → step s = runCommand s ∧ rest' = rest ∧ s'.busy = false)) ∧
  ∀ s s' : State, step s = .next s' →
    (s.TakesReset → s'.dbufEpoch = s.dbufEpoch + 1 ∧ (∀ addr, s'.dbufByte addr = Config.unwrittenByte (s.dbufEpoch + 1) addr) ∧
      (s.busy = false → s'.rng = s.rng)) ∧
    (¬s.TakesReset → s'.dbufEpoch = s.dbufEpoch)

/-- The state after reset is sound. -/
def Obligations.ResetIsSound : Prop := State.Sound State.reset

/-- Soundness is an invariant of every step, from every sound state: the memories stay canonical and inside their sizes, IDLEN
stays at most IDMAX, INF keeps its one representation, and no command ever runs while ERR is 1. -/
def Obligations.StepKeepsSound : Prop := ∀ s s' : State, State.Sound s → step s = .next s' → State.Sound s'

/-- No step faults, and a step refuses only a host access at an offset that is no multiple of 4, while idle (R66, U11; that it is
refused is the model's choice among U11's words: log 12). -/
def Obligations.StepRefusesOnlyUnaligned : Prop :=
  ∀ s : State, (∃ s', step s = .next s') ∨
    (s.busy = false ∧ step s = .refused .unalignedHostAccess ∧
      ∃ x rest off, s.inputs = x :: rest ∧ off.toNat % 4 ≠ 0 ∧ (x.access = .read off ∨ ∃ v, x.access = .write off v))

/-- R30: what a host read of the window returns at every offset, with no side effect; and a host write to a read-only or
unmapped offset does nothing, to an address register sets it and nothing else. -/
def Obligations.HostWindow : Prop :=
  (∀ (s : State) (off : HostOffset) (arr : Arrival) (rest : List Input), s.params.ok = true → s.busy = false →
    s.inputs = { access := .read off, arrival := arr } :: rest → off.toNat % 4 = 0 →
    ∃ v : Word, step s = .next { s with inputs := rest, readData := v } ∧ ReadsAs s off.toNat v) ∧
  (∀ (s : State) (off : HostOffset) (v : Word) (arr : Arrival) (rest : List Input), s.params.ok = true → s.busy = false →
    s.inputs = { access := .write off v, arrival := arr } :: rest → off.toNat % 4 = 0 →
    (off.toNat ∈ [0x00, 0x10, 0x14, 0x18] ∨ (0x2C ≤ off.toNat ∧ off.toNat < 0x40) ∨ (0x80 ≤ off.toNat ∧ off.toNat < 0x2000) ∨
      (0x2000 + s.params.idmax ≤ off.toNat ∧ off.toNat < 0x10000) ∨ 0x10000 + s.params.bufsz ≤ off.toNat) →
    step s = .next { s with inputs := rest }) ∧
  ∀ (s : State) (i : RegIdx) (v : Word) (arr : Arrival) (rest : List Input), s.busy = false →
    s.inputs = { access := .write (BitVec.ofNat 17 (0x40 + 4 * i.val)) v, arrival := arr } :: rest →
    ∃ s', step s = .next s' ∧ regGet s'.a i = v ∧ (∀ j, j ≠ i → regGet s'.a j = regGet s.a j) ∧
      { s' with a := s.a } = { s with inputs := rest }

/-- R34, R38: a write to CFG sets MODE and SIGENC from bits 0 and 1 and C1FORM from bits 3:2 unless they are 11; a write to
IDLEN of a value above IDMAX is ignored, any other sets it; neither does anything else. The UserID is the first IDLEN bytes of
IDBUF. -/
def Obligations.ConfigurationWrites : Prop :=
  (∀ (s : State) (v : Word) (arr : Arrival) (rest : List Input), s.busy = false →
    s.inputs = { access := .write 0x0C#17 v, arrival := arr } :: rest →
    ∃ cfg : Cfg, step s = .next { s with inputs := rest, cfg := cfg } ∧
      (cfg.mode = .c1c2c3 ↔ v.getLsbD 0 = true) ∧ (cfg.sigenc = .plain ↔ v.getLsbD 1 = true) ∧
      (v.extractLsb' 2 2 = 0#2 → cfg.c1form = .uncompressed) ∧ (v.extractLsb' 2 2 = 1#2 → cfg.c1form = .compressed) ∧
      (v.extractLsb' 2 2 = 2#2 → cfg.c1form = .hybrid) ∧ (v.extractLsb' 2 2 = 3#2 → cfg.c1form = s.cfg.c1form)) ∧
  (∀ (s : State) (v : Word) (arr : Arrival) (rest : List Input), s.busy = false →
    s.inputs = { access := .write 0x24#17 v, arrival := arr } :: rest →
    ((v.extractLsb' 0 16).toNat ≤ s.params.idmax → step s = .next { s with inputs := rest, idlen := v.extractLsb' 0 16 }) ∧
    (s.params.idmax < (v.extractLsb' 0 16).toNat → step s = .next { s with inputs := rest })) ∧
  ∀ s : State, s.userId.length = s.idlen.toNat ∧ ∀ i < s.idlen.toNat, s.userId[i]? = some (s.idbufByte i)

/-- R39: the pending bits are set by a completion and by a fault, the host clears a bit by writing 1 to it, the enable bits are
plain, and irq is the level (DONE_IP and DONE_IE) or (ERR_IP and ERR_IE). -/
def Obligations.InterruptBits : Prop :=
  (∀ (i : Instr) (s s' : State), exec i s = .next s' →
    (s'.cmdcnt = s.cmdcnt + 1 ∧ s'.istat = { done := true, err := s.istat.err }) ∨
      (s'.cmdcnt = s.cmdcnt ∧ s'.err = true ∧ s'.istat = { done := s.istat.done, err := true })) ∧
  (∀ (s : State) (v : Word) (arr : Arrival) (rest : List Input), s.busy = false →
    s.inputs = { access := .write 0x20#17 v, arrival := arr } :: rest →
    ∃ b : IrqBits, step s = .next { s with inputs := rest, istat := b } ∧
      (v.getLsbD 0 = true → b.done = false) ∧ (v.getLsbD 0 = false → b.done = s.istat.done) ∧
      (v.getLsbD 1 = true → b.err = false) ∧ (v.getLsbD 1 = false → b.err = s.istat.err)) ∧
  (∀ (s : State) (v : Word) (arr : Arrival) (rest : List Input), s.busy = false →
    s.inputs = { access := .write 0x1C#17 v, arrival := arr } :: rest →
    step s = .next { s with inputs := rest, ien := { done := v.getLsbD 0, err := v.getLsbD 1 } }) ∧
  (∀ s : State, s.irq = true ↔ (s.istat.done = true ∧ s.ien.done = true) ∨ (s.istat.err = true ∧ s.ien.err = true)) ∧
  State.reset.ien = { done := false, err := false } ∧ State.reset.istat = { done := false, err := false }

/-- R239: the acknowledgement. A write of bit 1 = 1 to STATUS clears STATUS.ERR, restores nothing and clears nothing else; any
other write to STATUS does nothing; and the next CMD write is accepted again. -/
def Obligations.AcknowledgeFault : Prop :=
  ∀ (s : State) (v : Word) (arr : Arrival) (rest : List Input), s.busy = false →
    s.inputs = { access := .write 0x08#17 v, arrival := arr } :: rest →
    (v.getLsbD 1 = true → step s = .next { s with inputs := rest, err := false } ∧
      ∀ w arr' rest', rest = { access := .write 0x28#17 w, arrival := arr' } :: rest' →
        step { s with inputs := rest, err := false } = .next { s with inputs := rest', err := false, busy := true, cmd := w }) ∧
    (v.getLsbD 1 = false → step s = .next { s with inputs := rest })

/-- R61: the host's word view of the byte memories. A write to DBUF word `w` (or IDBUF word `w`) stores bits 31:24 at the lowest
address, replaces all four bytes and changes no other byte; a read packs the four bytes the same way. -/
def Obligations.HostWordView : Prop :=
  ∀ (s : State) (w : Nat) (v : Word) (arr : Arrival) (rest : List Input), State.Sound s → s.busy = false →
    (4 * w < s.params.bufsz →
      (s.inputs = { access := .write (BitVec.ofNat 17 (0x10000 + 4 * w)) v, arrival := arr } :: rest →
        ∃ s', step s = .next s' ∧ { s' with dbuf := s.dbuf } = { s with inputs := rest } ∧
          s'.dbufByte (4 * w) = v.extractLsb' 24 8 ∧ s'.dbufByte (4 * w + 1) = v.extractLsb' 16 8 ∧
          s'.dbufByte (4 * w + 2) = v.extractLsb' 8 8 ∧ s'.dbufByte (4 * w + 3) = v.extractLsb' 0 8 ∧
          ∀ addr, addr < 4 * w ∨ 4 * w + 4 ≤ addr → s'.dbufByte addr = s.dbufByte addr) ∧
      (s.inputs = { access := .read (BitVec.ofNat 17 (0x10000 + 4 * w)), arrival := arr } :: rest →
        step s = .next { s with inputs := rest, readData :=
          (s.dbufByte (4 * w) ++ s.dbufByte (4 * w + 1) ++ s.dbufByte (4 * w + 2) ++ s.dbufByte (4 * w + 3) : BitVec 32) })) ∧
    (4 * w < s.params.idmax →
      (s.inputs = { access := .write (BitVec.ofNat 17 (0x2000 + 4 * w)) v, arrival := arr } :: rest →
        ∃ s', step s = .next s' ∧ { s' with idbuf := s.idbuf } = { s with inputs := rest } ∧
          s'.idbufByte (4 * w) = v.extractLsb' 24 8 ∧ s'.idbufByte (4 * w + 1) = v.extractLsb' 16 8 ∧
          s'.idbufByte (4 * w + 2) = v.extractLsb' 8 8 ∧ s'.idbufByte (4 * w + 3) = v.extractLsb' 0 8 ∧
          ∀ addr, addr < 4 * w ∨ 4 * w + 4 ≤ addr → s'.idbufByte addr = s.idbufByte addr) ∧
      (s.inputs = { access := .read (BitVec.ofNat 17 (0x2000 + 4 * w)), arrival := arr } :: rest →
        step s = .next { s with inputs := rest, readData :=
          (s.idbufByte (4 * w) ++ s.idbufByte (4 * w + 1) ++ s.idbufByte (4 * w + 2) ++ s.idbufByte (4 * w + 3) : BitVec 32) }))

/-- R21, R23: the host can neither read nor write R and P: two states that differ in R and P alone answer every access alike,
and keep their own R and P, unless the access resets both. -/
def Obligations.HostCannotReachKeys : Prop :=
  ∀ (s : State) (r : Vector Word256 16) (p : Vector PointReg 16) (x : Access),
    (∀ s', s.perform x = .next s' →
      ∃ s2, State.perform { s with r := r, p := p } x = .next s2 ∧ { s2 with r := s'.r, p := s'.p } = s' ∧
        ((s'.r = s.r ∧ s'.p = s.p ∧ s2.r = r ∧ s2.p = p) ∨ (State.AtReset s' ∧ State.AtReset s2))) ∧
    (∀ e, s.perform x = .refused e → State.perform { s with r := r, p := p } x = .refused e)

/-! ## Memory -/

/-- R63, and R62: `MemWrite` sets the bytes of its region and changes no other byte and no other state; `MemRead` gives the
bytes of its region in order, the empty string for length 0. -/
def Obligations.MemoryReadsWrites : Prop :=
  (∀ (s : State) (addr : Nat) (bs : Bytes),
    (∀ i < bs.length, some ((s.memWrite addr bs).dbufByte (addr + i)) = bs[i]?) ∧
    (∀ x, x < addr ∨ addr + bs.length ≤ x → (s.memWrite addr bs).dbufByte x = s.dbufByte x) ∧
    { s.memWrite addr bs with dbuf := s.dbuf } = s) ∧
  ∀ (s : State) (addr n : Nat), (s.memRead addr n).length = n ∧
    ∀ i < n, (s.memRead addr n)[i]? = some (s.dbufByte (addr + i))

/-- Equal memories are equal data: two canonical lists that read alike at every address are the same list, whatever an unlisted
address reads as; and a string of writes keeps the form. -/
def Obligations.MemoryCanonical : Prop :=
  ∀ (unlisted : Nat → Option Byte) (m1 m2 : Memory), Memory.wf unlisted m1 = true → Memory.wf unlisted m2 = true →
    ((∀ x, ((Memory.written m1 x).or (unlisted x)) = ((Memory.written m2 x).or (unlisted x))) → m1 = m2) ∧
    ∀ (addr : Nat) (bs : Bytes), Memory.wf unlisted (Memory.putBytes unlisted addr bs m1) = true

/-! ## Data movement -/

/-- R121, R122, and R120 but for its drop while ERR is 1 (which CommandWrite states): NOP writes nothing; LI and AADDI write one
address register; each completes in every state. Their
encodings, and their must-be-zero bits: NOP's only word is 0, LI's f2 is 0, and no word with AADDI's opcode is illegal. -/
def Obligations.NopAndImmediates : Prop :=
  ((∀ w : Word, decode w = .ok .nop ↔ w = 0) ∧ ReservedBitsFault 0x00#8 0xFFFFFF#24 ∧
    ∀ s : State, ∃ s', exec .nop s = .next s' ∧ State.Completed {} s s') ∧
  (∀ (d : RegIdx) (imm : BitVec 16), decode (0x01#8 ++ regField d ++ 0#4 ++ imm) = .ok (.li d imm) ∧
    ReservedBitsFault 0x01#8 0x0F0000#24 ∧
    ∀ s : State, ∃ s', exec (.li d imm) s = .next s' ∧ State.Completed { a := [d] } s s' ∧ s'.aNat d = imm.toNat) ∧
  ∀ (d a : RegIdx) (imm : BitVec 16), decode (0x02#8 ++ regField d ++ regField a ++ imm) = .ok (.aaddi d a imm) ∧
    (∀ w : Word, w.extractLsb' 24 8 = 0x02#8 → ∃ d' a' imm', decode w = .ok (.aaddi d' a' imm')) ∧
    ∀ s : State, ∃ s', exec (.aaddi d a imm) s = .next s' ∧ State.Completed { a := [d] } s s' ∧
      s'.aNat d = (s.aNat a + imm.toNat) % 2 ^ 32

/-- R123: LDR. The 32 bytes at the effective address, big-endian, any alignment, unreduced; out of range it faults. -/
def Obligations.LoadRegister : Prop :=
  ∀ (d a : RegIdx) (imm : BitVec 16), decode (0x04#8 ++ regField d ++ regField a ++ imm) = .ok (.ldr d a imm) ∧
    ∀ s : State,
      (s.aNat a + imm.toNat + 32 ≤ s.params.bufsz →
        ∃ s', exec (.ldr d a imm) s = .next s' ∧ State.Completed { r := [d] } s s' ∧
          ∀ j < 32, s'.rNat d / 256 ^ (31 - j) % 256 = (s.dbufByte (s.aNat a + imm.toNat + j)).toNat) ∧
      (s.params.bufsz < s.aNat a + imm.toNat + 32 → FaultsWith (.ldr d a imm) s .srcRange)

/-- R124: STR. The 32 bytes of the register, big-endian and zero-padded on the left, at the effective address and nowhere else;
out of range it faults. -/
def Obligations.StoreRegister : Prop :=
  ∀ (src a : RegIdx) (imm : BitVec 16), decode (0x05#8 ++ regField src ++ regField a ++ imm) = .ok (.str src a imm) ∧
    ∀ s : State,
      (s.effAddr a imm = s.aNat a + imm.toNat) ∧
      (s.effAddr a imm + 32 ≤ s.params.bufsz →
        ∃ s', exec (.str src a imm) s = .next s' ∧ State.Completed { dbuf := (s.effAddr a imm, 32) } s s' ∧
          ∀ j < 32, (s'.dbufByte (s.effAddr a imm + j)).toNat = s.rNat src / 256 ^ (31 - j) % 256) ∧
      (s.params.bufsz < s.effAddr a imm + 32 → FaultsWith (.str src a imm) s .dstRange)

/-- R65, R66: a STR followed by a LDR of the same address moves the register, at any alignment; and a host word read inside the
stored region gives the four bytes of the image that lie there. -/
def Obligations.StoreThenLoad : Prop :=
  ∀ (src d a : RegIdx) (imm : BitVec 16) (s : State), s.effAddr a imm + 32 ≤ s.params.bufsz →
    ∃ s1 s2, exec (.str src a imm) s = .next s1 ∧ exec (.ldr d a imm) s1 = .next s2 ∧ regGet s2.r d = regGet s.r src ∧
      ∀ w, s.effAddr a imm ≤ 4 * w → 4 * w + 4 ≤ s.effAddr a imm + 32 →
        (hostRead s1 (.dbuf (4 * w))).toNat = s.rNat src / 256 ^ (28 - (4 * w - s.effAddr a imm)) % 2 ^ 32

/-- R125, R126: MOVR copies a register; LDC loads the constant its selector names; each completes in every state, and their
must-be-zero bits and reserved selectors fault (the words, before any command is there). -/
def Obligations.CopyAndConstants : Prop :=
  (∀ d a : RegIdx, decode (0x06#8 ++ regField d ++ regField a ++ 0#16) = .ok (.movr d a) ∧ ReservedBitsFault 0x06#8 0x00FFFF#24 ∧
    ∀ s : State, ∃ s', exec (.movr d a) s = .next s' ∧ State.Completed { r := [d] } s s' ∧ regGet s'.r d = regGet s.r a) ∧
  ∀ (d : RegIdx) (cid : BitVec 4), ReservedBitsFault 0x07#8 0x0FFFF0#24 ∧
    (cid.toNat < 10 → decode (0x07#8 ++ regField d ++ 0#16 ++ cid) = .ok (.ldc d cid)) ∧
    (10 ≤ cid.toNat → decode (0x07#8 ++ regField d ++ 0#16 ++ cid) = .error .badFunction ∧
      ∀ s : State, s.cmd = 0x07#8 ++ regField d ++ 0#16 ++ cid →
        ∃ s', runCommand s = .next s' ∧ State.Faulted {} .badFunction s s') ∧
    (cid.toNat < 10 → ∀ s : State, ∃ s', exec (.ldc d cid) s = .next s' ∧ State.Completed { r := [d] } s s' ∧
      some (s'.rNat d) = [0, 1, Config.p, Config.a, Config.b, Config.n, Config.gx, Config.gy, 2 ^ 512 % Config.p, 2 ^ 512 % Config.n][cid.toNat]?)

/-- R127, R128, R130, R131: PLDG, PSET, PMOV, PSETINF write one point register, check nothing, and complete in every state. -/
def Obligations.PointMoves : Prop :=
  (∀ d : RegIdx, decode (0x08#8 ++ regField d ++ 0#20) = .ok (.pldg d) ∧ ReservedBitsFault 0x08#8 0x0FFFFF#24 ∧
    ∀ s : State, ∃ s', exec (.pldg d) s = .next s' ∧ State.Completed { p := [d] } s s' ∧
      (regGet s'.p d).x.toNat = Config.gx ∧ (regGet s'.p d).y.toNat = Config.gy ∧ (regGet s'.p d).inf = false) ∧
  (∀ d a b : RegIdx, decode (0x09#8 ++ regField d ++ regField a ++ regField b ++ 0#12) = .ok (.pset d a b) ∧
    ReservedBitsFault 0x09#8 0x000FFF#24 ∧
    ∀ s : State, ∃ s', exec (.pset d a b) s = .next s' ∧ State.Completed { p := [d] } s s' ∧
      regGet s'.p d = { x := regGet s.r a, y := regGet s.r b, inf := false }) ∧
  (∀ d a : RegIdx, decode (0x0B#8 ++ regField d ++ regField a ++ 0#16) = .ok (.pmov d a) ∧ ReservedBitsFault 0x0B#8 0x00FFFF#24 ∧
    ∀ s : State, ∃ s', exec (.pmov d a) s = .next s' ∧ State.Completed { p := [d] } s s' ∧ regGet s'.p d = regGet s.p a) ∧
  ∀ d : RegIdx, decode (0x0C#8 ++ regField d ++ 0#20) = .ok (.psetinf d) ∧ ReservedBitsFault 0x0C#8 0x0FFFFF#24 ∧
    ∀ s : State, ∃ s', exec (.psetinf d) s = .next s' ∧ State.Completed { p := [d] } s s' ∧
      regGet s'.p d = { x := 0, y := 0, inf := true }

/-- R129: PGET. The coordinates of a finite point, on the curve or not, y written second; INF faults. -/
def Obligations.PointCoordinates : Prop :=
  ∀ d e a : RegIdx, decode (0x0A#8 ++ regField d ++ regField e ++ regField a ++ 0#12) = .ok (.pget d e a) ∧
    ReservedBitsFault 0x0A#8 0x000FFF#24 ∧
    ∀ s : State,
      ((regGet s.p a).inf = true → FaultsWith (.pget d e a) s .infinity) ∧
      ((regGet s.p a).inf = false → ∃ s', exec (.pget d e a) s = .next s' ∧ State.Completed { r := [d, e] } s s' ∧
        regGet s'.r e = (regGet s.p a).y ∧ (d ≠ e → regGet s'.r d = (regGet s.p a).x))

/-! ## Field arithmetic -/

/-- R140: the Montgomery product, for every odd modulus between 2^255 and 2^256 (p and n are such) and all operands below 2^256,
reduced or not: the number below M whose product with 2^256 is x*y modulo M; and the identities of the rule. -/
def Obligations.MontgomeryProduct : Prop :=
  (Config.p % 2 = 1 ∧ 2 ^ 255 < Config.p ∧ Config.p < 2 ^ 256 ∧ Config.n % 2 = 1 ∧ 2 ^ 255 < Config.n ∧ Config.n < 2 ^ 256) ∧
  ∀ m : Nat, m % 2 = 1 → 2 ^ 255 < m → m < 2 ^ 256 →
    (∃ rinv, 1 ≤ rinv ∧ rinv < m ∧ rinv * 2 ^ 256 % m = 1 ∧ ∀ x y, montMul x y m = x * y * rinv % m) ∧
    ∀ x y, x < 2 ^ 256 → y < 2 ^ 256 →
      montMul x y m < m ∧ montMul x y m * 2 ^ 256 % m = x * y % m ∧
      montMul x (2 ^ 512 % m) m = x * 2 ^ 256 % m ∧
      montMul x 1 m * 2 ^ 256 % m = x % m ∧
      montMul (montMul x (2 ^ 512 % m) m) y m = x * y % m ∧
      montMul x y m = montMul y x m ∧
      montMul x y m = montMul (x % m) (y % m) m

/-- MONTMUL writes the Montgomery product of two registers, reduced or not, by the modulus its function bit selects, and
completes in every state; its must-be-zero bits are no command. -/
def Obligations.MontgomeryCommand : Prop :=
  ∀ (d a b : RegIdx) (m : Modulus), ReservedBitsFault 0x10#8 0x000FFE#24 ∧
    (match m with
      | .p => decode (0x10#8 ++ regField d ++ regField a ++ regField b ++ 0#11 ++ 0#1) = .ok (.montmul d a b m) ∧ modulusValue m = Config.p
      | .n => decode (0x10#8 ++ regField d ++ regField a ++ regField b ++ 0#11 ++ 1#1) = .ok (.montmul d a b m) ∧ modulusValue m = Config.n) ∧
    ∀ s : State, ∃ s', exec (.montmul d a b m) s = .next s' ∧ State.Completed { r := [d] } s s' ∧
      s'.rNat d < modulusValue m ∧ s'.rNat d * 2 ^ 256 % modulusValue m = s.rNat a * s.rNat b % modulusValue m

/-- R142, R143: FADD and FSUB write the sum and the difference over the integers, reduced into [0, M-1] by the mathematical
remainder, and complete in every state; their must-be-zero bits are no commands. -/
def Obligations.AddAndSubtract : Prop :=
  ∀ (d a b : RegIdx) (m : Modulus), ReservedBitsFault 0x11#8 0x000FFE#24 ∧ ReservedBitsFault 0x12#8 0x000FFE#24 ∧
    (match m with
      | .p => decode (0x11#8 ++ regField d ++ regField a ++ regField b ++ 0#11 ++ 0#1) = .ok (.fadd d a b m) ∧
        decode (0x12#8 ++ regField d ++ regField a ++ regField b ++ 0#11 ++ 0#1) = .ok (.fsub d a b m) ∧ modulusValue m = Config.p
      | .n => decode (0x11#8 ++ regField d ++ regField a ++ regField b ++ 0#11 ++ 1#1) = .ok (.fadd d a b m) ∧
        decode (0x12#8 ++ regField d ++ regField a ++ regField b ++ 0#11 ++ 1#1) = .ok (.fsub d a b m) ∧ modulusValue m = Config.n) ∧
    ∀ s : State,
      (∃ s', exec (.fadd d a b m) s = .next s' ∧ State.Completed { r := [d] } s s' ∧
        (s'.rNat d : Int) = ((s.rNat a : Int) + s.rNat b) % (modulusValue m : Int)) ∧
      (∃ s', exec (.fsub d a b m) s = .next s' ∧ State.Completed { r := [d] } s s' ∧
        (s'.rNat d : Int) = ((s.rNat a : Int) - s.rNat b) % (modulusValue m : Int))

/-! ## Points -/

/-- R150: which point values are on the curve; and R151, R152: the sum and the double of point values on it, the slope as the
number below p that solves the slope equation. -/
def Obligations.PointAddFormulas : Prop :=
  onCurve .inf = true ∧
  (∀ x y : Nat, onCurve (.affine x y) = true ↔
    x < Config.p ∧ y < Config.p ∧ ((y : Int) * y - (x * x * x + Config.a * x + Config.b)) % (Config.p : Int) = 0) ∧
  (∀ w, pointAdd .inf w = w) ∧ (∀ v, pointAdd v .inf = v) ∧ pointDouble .inf = .inf ∧
  (∀ x1 : Nat, pointDouble (.affine x1 0) = .inf) ∧
  (∀ x y1 y2 : Nat, onCurve (.affine x y1) = true → onCurve (.affine x y2) = true →
    ((y1 + y2) % Config.p = 0 → pointAdd (.affine x y1) (.affine x y2) = .inf) ∧
    ((y1 + y2) % Config.p ≠ 0 → pointAdd (.affine x y1) (.affine x y2) = pointDouble (.affine x y1))) ∧
  (∀ x1 y1 x2 y2 : Nat, onCurve (.affine x1 y1) = true → onCurve (.affine x2 y2) = true → x1 ≠ x2 →
    ∃ lam x3 y3 : Nat, lam < Config.p ∧ ((lam : Int) * ((x2 : Int) - x1) - ((y2 : Int) - y1)) % (Config.p : Int) = 0 ∧
      pointAdd (.affine x1 y1) (.affine x2 y2) = .affine x3 y3 ∧
      (x3 : Int) = ((lam : Int) * lam - x1 - x2) % (Config.p : Int) ∧
      (y3 : Int) = ((lam : Int) * ((x1 : Int) - x3) - y1) % (Config.p : Int)) ∧
  ∀ x1 y1 : Nat, onCurve (.affine x1 y1) = true → y1 ≠ 0 →
    ∃ lam x3 y3 : Nat, lam < Config.p ∧ ((lam : Int) * (2 * y1) - (3 * x1 * x1 + Config.a)) % (Config.p : Int) = 0 ∧
      pointDouble (.affine x1 y1) = .affine x3 y3 ∧
      (x3 : Int) = ((lam : Int) * lam - 2 * x1) % (Config.p : Int) ∧
      (y3 : Int) = ((lam : Int) * ((x1 : Int) - x3) - y1) % (Config.p : Int)

/-- `PointAdd` is a group law on the point values of the curve (R153 says so): closed, associative, commutative, with INF as
identity and an inverse for every value. -/
def Obligations.PointAddGroup : Prop :=
  (∀ v w, onCurve v = true → onCurve w = true → onCurve (pointAdd v w) = true) ∧
  (∀ u v w, onCurve u = true → onCurve v = true → onCurve w = true →
    pointAdd (pointAdd u v) w = pointAdd u (pointAdd v w)) ∧
  (∀ v w, onCurve v = true → onCurve w = true → pointAdd v w = pointAdd w v) ∧
  (∀ v, onCurve v = true → pointAdd .inf v = v ∧ ∃ w, onCurve w = true ∧ pointAdd v w = .inf)

/-- R153: `ScalarMul(k, V)` is the sum of k copies of V, however bracketed, for every V on the curve. The bound on the scalar is
the width of a register, which takes in the rule's range [1, n-1]. -/
def Obligations.ScalarMulIsSum : Prop :=
  ∀ v, onCurve v = true →
    scalarMul 1 v = v ∧
    (∀ k, 1 ≤ k → k + 1 < 2 ^ 256 → scalarMul (k + 1) v = pointAdd (scalarMul k v) v) ∧
    (∀ j k, j + k < 2 ^ 256 → scalarMul (j + k) v = pointAdd (scalarMul j v) (scalarMul k v)) ∧
    (∀ j k, j < 2 ^ 256 → k < 2 ^ 256 → j * k < 2 ^ 256 → scalarMul (j * k) v = scalarMul j (scalarMul k v)) ∧
    (∀ k, k < 2 ^ 256 → onCurve (scalarMul k v) = true) ∧
    ∀ k, k < 2 ^ 256 → scalarMul k .inf = .inf

/-- R7, R161 for the generator: G is on the curve, its order is n: no multiple below n is INF, n copies sum to INF, two scalars
below n give different points, and (n-1)*G is (Gx, p-Gy). -/
def Obligations.GeneratorOrder : Prop :=
  onCurve generator = true ∧
  (∀ k, 1 ≤ k → k < Config.n → scalarMul k generator ≠ .inf) ∧
  scalarMul Config.n generator = .inf ∧
  (∀ j k, j < Config.n → k < Config.n → scalarMul j generator = scalarMul k generator → j = k) ∧
  scalarMul (Config.n - 1) generator = .affine Config.gx (Config.p - Config.gy)

/-- R155, R156: PADD and PDBL, complete where every source is on the curve or INF, and fault with CurveError(1) where one is
not, the first source first (the code is the same). -/
def Obligations.PointSumAndDouble : Prop :=
  (∀ d a b : RegIdx, decode (0x20#8 ++ regField d ++ regField a ++ regField b ++ 0#12) = .ok (.padd d a b) ∧
    ReservedBitsFault 0x20#8 0x000FFF#24 ∧
    ∀ s : State,
      (onCurve (s.point a) = false ∨ onCurve (s.point b) = false → FaultsWith (.padd d a b) s .offCurve) ∧
      (onCurve (s.point a) = true → onCurve (s.point b) = true →
        ∃ s', exec (.padd d a b) s = .next s' ∧ State.Completed { p := [d] } s s' ∧
          s'.point d = pointAdd (s.point a) (s.point b) ∧ pointRegOk (regGet s'.p d) = true)) ∧
  ∀ d a : RegIdx, decode (0x21#8 ++ regField d ++ regField a ++ 0#16) = .ok (.pdbl d a) ∧ ReservedBitsFault 0x21#8 0x00FFFF#24 ∧
    ∀ s : State,
      (onCurve (s.point a) = false → FaultsWith (.pdbl d a) s .offCurve) ∧
      (onCurve (s.point a) = true →
        ∃ s', exec (.pdbl d a) s = .next s' ∧ State.Completed { p := [d] } s s' ∧
          s'.point d = pointDouble (s.point a) ∧ pointRegOk (regGet s'.p d) = true)

/-- R157 without its timing sentence: SMUL checks the point first, then the scalar, which is never reduced; then the sum of
R[k] copies of the point, INF included. -/
def Obligations.ScalarMultiply : Prop :=
  ∀ d k a : RegIdx, decode (0x22#8 ++ regField d ++ regField k ++ regField a ++ 0#12) = .ok (.smul d k a) ∧
    ReservedBitsFault 0x22#8 0x000FFF#24 ∧
    ∀ s : State,
      (onCurve (s.point a) = false → FaultsWith (.smul d k a) s .offCurve) ∧
      (onCurve (s.point a) = true → s.rNat k = 0 ∨ Config.n ≤ s.rNat k → FaultsWith (.smul d k a) s .scalarRange) ∧
      (onCurve (s.point a) = true → 1 ≤ s.rNat k → s.rNat k < Config.n →
        ∃ s', exec (.smul d k a) s = .next s' ∧ State.Completed { p := [d] } s s' ∧
          s'.point d = pointSum (s.point a) (s.rNat k) ∧ pointRegOk (regGet s'.p d) = true)

/-- R158, R159: PCHK and PINF write their verdict into T, raise no CurveError and complete in every state. -/
def Obligations.PointPredicates : Prop :=
  (∀ a : RegIdx, decode (0x23#8 ++ regField a ++ 0#20) = .ok (.pchk a) ∧ ReservedBitsFault 0x23#8 0x0FFFFF#24 ∧
    ∀ s : State, ∃ s', exec (.pchk a) s = .next s' ∧ State.Completed { t := true } s s' ∧
      (s'.t = true ↔ (regGet s.p a).inf = true ∨ onCurve (.affine (regGet s.p a).x.toNat (regGet s.p a).y.toNat) = true)) ∧
  ∀ a : RegIdx, decode (0x24#8 ++ regField a ++ 0#20) = .ok (.pinf a) ∧ ReservedBitsFault 0x24#8 0x0FFFFF#24 ∧
    ∀ s : State, ∃ s', exec (.pinf a) s = .next s' ∧ State.Completed { t := true } s s' ∧ s'.t = (regGet s.p a).inf

/-! ## Point codec -/

/-- R170, R172: PENC. A legal form of a finite point on the curve is written with the prefix and the coordinates of its form,
and A[o] receives the length; the faults come in the order of the rule, that of a word with a reserved form first. -/
def Obligations.PointEncode : Prop :=
  ∀ (o d a : RegIdx) (form : BitVec 4),
    ReservedBitsFault 0x30#8 0x000FF0#24 ∧
    (form.toNat < 3 → decode (0x30#8 ++ regField o ++ regField d ++ regField a ++ 0#8 ++ form) = .ok (.penc o d a form)) ∧
    (3 ≤ form.toNat → decode (0x30#8 ++ regField o ++ regField d ++ regField a ++ 0#8 ++ form) = .error .badFunction ∧
      ∀ s : State, s.cmd = 0x30#8 ++ regField o ++ regField d ++ regField a ++ 0#8 ++ form →
        ∃ s', runCommand s = .next s' ∧ State.Faulted {} .badFunction s s') ∧
    ∀ s : State,
      (form.toNat < 3 → s.point a = .inf → FaultsWith (.penc o d a form) s .infinity) ∧
      (form.toNat < 3 → onCurve (s.point a) = false → FaultsWith (.penc o d a form) s .offCurve) ∧
      (form.toNat < 3 → s.point a ≠ .inf → onCurve (s.point a) = true → s.params.bufsz < s.aNat d + formLength form →
        FaultsWith (.penc o d a form) s .dstRange) ∧
      ∀ x y, form.toNat < 3 → s.point a = .affine x y → onCurve (.affine x y) = true → s.aNat d + formLength form ≤ s.params.bufsz →
        ∃ s', exec (.penc o d a form) s = .next s' ∧ State.Completed { a := [o], dbuf := (s.aNat d, formLength form) } s s' ∧
          s'.aNat o = formLength form ∧
          (s'.dbufByte (s.aNat d)).toNat = (if form = 0#4 then 0x04 else if form = 1#4 then 0x02 + y % 2 else 0x06 + y % 2) ∧
          (∀ j < 32, (s'.dbufByte (s.aNat d + 1 + j)).toNat = x / 256 ^ (31 - j) % 256) ∧
          (form ≠ 1#4 → ∀ j < 32, (s'.dbufByte (s.aNat d + 33 + j)).toNat = y / 256 ^ (31 - j) % 256)

/-- R173: PDEC writes the point `Decode` returns, which is finite, and faults as the range check and `Decode` do. -/
def Obligations.PointDecode : Prop :=
  ∀ d src l : RegIdx, decode (0x31#8 ++ regField d ++ regField src ++ regField l ++ 0#12) = .ok (.pdec d src l) ∧
    ReservedBitsFault 0x31#8 0x000FFF#24 ∧
    ∀ s : State,
      (s.params.bufsz < s.aNat src + s.aNat l → FaultsWith (.pdec d src l) s .srcRange) ∧
      (s.aNat src + s.aNat l ≤ s.params.bufsz →
        (∀ c, decodePoint (s.memRead (s.aNat src) (s.aNat l)) = .error c → FaultsWith (.pdec d src l) s c) ∧
        ∀ v, decodePoint (s.memRead (s.aNat src) (s.aNat l)) = .ok v →
          ∃ s', exec (.pdec d src l) s = .next s' ∧ State.Completed { p := [d] } s s' ∧ s'.point d = v ∧ v ≠ .inf)

/-- R171: `Decode`, check by check. The compressed branch is stated by the square roots that exist, not by the way one is
computed: x at or above p is off the curve, no root of the right parity is NO_SQRT, and a root of the right parity is y. -/
def Obligations.DecodeChecks : Prop :=
  decodePoint [] = .error .badPointLength ∧
  (∀ bs : Bytes, bs.length = 64 → decodePoint bs = decodePoint (0x04#8 :: bs)) ∧
  (∀ (pc : Byte) (rest : Bytes), rest.length ≠ 63 →
    (pc ∉ [0x02#8, 0x03#8, 0x04#8, 0x06#8, 0x07#8] → decodePoint (pc :: rest) = .error .badPrefix) ∧
    (pc ∈ [0x04#8, 0x06#8, 0x07#8] → rest.length ≠ 64 → decodePoint (pc :: rest) = .error .badPointLength) ∧
    (pc ∈ [0x02#8, 0x03#8] → rest.length ≠ 32 → decodePoint (pc :: rest) = .error .badPointLength)) ∧
  (∀ xb yb : Bytes, xb.length = 32 → yb.length = 32 →
    (onCurve (.affine (os2i xb) (os2i yb)) = true → decodePoint (0x04#8 :: (xb ++ yb)) = .ok (.affine (os2i xb) (os2i yb))) ∧
    (onCurve (.affine (os2i xb) (os2i yb)) = false → decodePoint (0x04#8 :: (xb ++ yb)) = .error .offCurve)) ∧
  (∀ (pc : Byte) (xb yb : Bytes), pc ∈ [0x06#8, 0x07#8] → xb.length = 32 → yb.length = 32 →
    (os2i yb % 2 ≠ pc.toNat % 2 → decodePoint (pc :: (xb ++ yb)) = .error .hybridParity) ∧
    (os2i yb % 2 = pc.toNat % 2 → decodePoint (pc :: (xb ++ yb)) = decodePoint (0x04#8 :: (xb ++ yb)))) ∧
  ∀ (pc : Byte) (xb : Bytes), pc ∈ [0x02#8, 0x03#8] → xb.length = 32 →
    (Config.p ≤ os2i xb → decodePoint (pc :: xb) = .error .offCurve) ∧
    (os2i xb < Config.p →
      (∀ y, y < Config.p → y * y % Config.p = curveRhs (os2i xb) → y % 2 = pc.toNat % 2 →
        decodePoint (pc :: xb) = .ok (.affine (os2i xb) y)) ∧
      ((¬∃ y, y < Config.p ∧ y * y % Config.p = curveRhs (os2i xb) ∧ y % 2 = pc.toNat % 2) →
        decodePoint (pc :: xb) = .error .noSqrt))

/-- The codec's round trip (R173, D0 §8): decoding the encoding of a point gives the point back, for all three forms and every
finite point of the curve; and whatever decodes is a finite point of the curve. -/
def Obligations.CodecRoundTrip : Prop :=
  (∀ (x y : Nat) (form : PointForm), onCurve (.affine x y) = true →
    (encodePoint x y form).length = encodedLength form ∧ decodePoint (encodePoint x y form) = .ok (.affine x y)) ∧
  ∀ (bs : Bytes) (v : Point), decodePoint bs = .ok v → v ≠ .inf ∧ onCurve v = true

/-! ## Key derivation and the hash -/

/-- R180, for every hash with 32-byte results: the length, every byte of the output (byte j is byte `j mod 32` of the block of
counter `j/32 + 1`), and the two faults. -/
def Obligations.KdfBytes : Prop :=
  ∀ (H : Bytes → Bytes), (∀ b, (H b).length = 32) → ∀ (z : Bytes) (outLen : Nat),
    (outLen = 0 → kdf H z outLen = .error .empty) ∧
    (outLen ≠ 0 → (∀ j < outLen, (H (z ++ i2os (j / 32 + 1) 4))[j % 32]? = some 0#8) → kdf H z outLen = .error .kdfZero) ∧
    (outLen ≠ 0 → (¬∀ j < outLen, (H (z ++ i2os (j / 32 + 1) 4))[j % 32]? = some 0#8) →
      ∃ t, kdf H z outLen = .ok t ∧ t.length = outLen ∧ ∀ j < outLen, t[j]? = (H (z ++ i2os (j / 32 + 1) 4))[j % 32]?)

/-- R181: KDF writes the derived bytes and no register; its faults come in the order of the rule. -/
def Obligations.KdfCommand : Prop :=
  ∀ d src l o : RegIdx,
    decode (0x40#8 ++ regField d ++ regField src ++ regField l ++ regField o ++ 0#8) = .ok (.kdf d src l o) ∧
    ReservedBitsFault 0x40#8 0x0000FF#24 ∧
    ∀ s : State,
      (s.aNat o = 0 → FaultsWith (.kdf d src l o) s .empty) ∧
      (s.aNat o ≠ 0 → s.params.bufsz < s.aNat src + s.aNat l → FaultsWith (.kdf d src l o) s .srcRange) ∧
      (s.aNat o ≠ 0 → s.aNat src + s.aNat l ≤ s.params.bufsz → s.params.bufsz < s.aNat d + s.aNat o →
        FaultsWith (.kdf d src l o) s .dstRange) ∧
      (s.aNat o ≠ 0 → s.aNat src + s.aNat l ≤ s.params.bufsz → s.aNat d + s.aNat o ≤ s.params.bufsz →
        (kdf Config.hash (s.memRead (s.aNat src) (s.aNat l)) (s.aNat o) = .error .kdfZero → FaultsWith (.kdf d src l o) s .kdfZero) ∧
        ∀ t, kdf Config.hash (s.memRead (s.aNat src) (s.aNat l)) (s.aNat o) = .ok t →
          ∃ s', exec (.kdf d src l o) s = .next s' ∧ State.Completed { dbuf := (s.aNat d, s.aNat o) } s s' ∧
            s'.memRead (s.aNat d) (s.aNat o) = t)

/-- R226: the known values of H. -/
def Obligations.HashKnownValues : Prop :=
  Config.hash [0x61#8, 0x62#8, 0x63#8] = i2os 0x66C7F0F462EEEDD9D1F2D46BDC10E4E24167C4875CF2F7A2297DA02B8F4BA8E0 32 ∧
  Config.hash [] = i2os 0x1AB21D8355CFA17F8E61194831E81A8F22BEC8C728FEFB747ED035EB5082AA2B 32 ∧
  Config.hash [0x00#8, 0x00#8, 0x00#8, 0x01#8] = i2os 0x88C0CFFA4C713446A03F1FFF1630AA6353BDB53E2A9272146BE7A82FDE06AFA3 32

/-- R220, R223: every hash is 32 bytes long; and the padded message is the message, `80`, the least number of zeros that brings
the length to 56 modulo 64, and the bit length, so that it is cut into whole 64-byte blocks. -/
def Obligations.HashShape : Prop :=
  ∀ msg : Bytes, (Config.hash msg).length = 32 ∧
    ∃ z, sm3Pad msg = msg ++ [0x80#8] ++ List.replicate z 0x00#8 ++ i2os (8 * msg.length) 8 ∧
      (msg.length + 1 + z) % 64 = 56 ∧ (∀ z', (msg.length + 1 + z') % 64 = 56 → z ≤ z') ∧ (sm3Pad msg).length % 64 = 0

/-! ## Encryption -/

/-- R190 without its timing sentence: ENCRYPT. The operand faults in the order of the rule, none of which draws a word; then, if
the first `j` words fail and word `j` does not, for `j < RETRY_MAX`, the ciphertext under that word, `j + 1` words drawn; and if
RETRY_MAX words fail, CurveError(4) with those words drawn. -/
def Obligations.EncryptCommand : Prop :=
  ∀ (o d src l q : RegIdx) (s : State),
    (s.aNat l = 0 → FaultsWith (.encrypt o d src l q) s .empty) ∧
    (s.aNat l ≠ 0 → s.params.bufsz < s.aNat src + s.aNat l → FaultsWith (.encrypt o d src l q) s .srcRange) ∧
    (s.aNat l ≠ 0 → s.aNat src + s.aNat l ≤ s.params.bufsz →
      s.params.bufsz < s.aNat d + cipherLength s.cfg (s.aNat l) → FaultsWith (.encrypt o d src l q) s .dstRange) ∧
    (s.aNat l ≠ 0 → s.aNat src + s.aNat l ≤ s.params.bufsz → s.aNat d + cipherLength s.cfg (s.aNat l) ≤ s.params.bufsz →
      (s.point q = .inf → FaultsWith (.encrypt o d src l q) s .infinity) ∧
      (s.point q ≠ .inf → onCurve (s.point q) = false → FaultsWith (.encrypt o d src l q) s .offCurve) ∧
      (s.point q ≠ .inf → onCurve (s.point q) = true →
        (∀ j < s.params.retryMax,
          (∀ i < j, EncryptWordFails Config.hash (s.point q) (s.aNat l) (s.rng.word i).toNat) →
          ¬EncryptWordFails Config.hash (s.point q) (s.aNat l) (s.rng.word j).toNat →
          ∃ s' x1 y1 x2 y2 t, exec (.encrypt o d src l q) s = .next s' ∧
            State.Completed { a := [o], dbuf := (s.aNat d, cipherLength s.cfg (s.aNat l)), rng := true } s s' ∧
            s'.rng = s.rng.skip (j + 1) ∧
            regGet s'.a o = BitVec.ofNat 32 (cipherLength s.cfg (s.aNat l)) ∧
            scalarMul (s.rng.word j).toNat generator = .affine x1 y1 ∧
            scalarMul (s.rng.word j).toNat (s.point q) = .affine x2 y2 ∧
            kdf Config.hash (i2os x2 32 ++ i2os y2 32) (s.aNat l) = .ok t ∧
            s'.memRead (s.aNat d) (cipherLength s.cfg (s.aNat l)) =
              (match s.cfg.mode with
                | .c1c2c3 => encodePoint x1 y1 s.cfg.c1form ++ xorBytes (s.memRead (s.aNat src) (s.aNat l)) t ++
                  Config.hash (i2os x2 32 ++ s.memRead (s.aNat src) (s.aNat l) ++ i2os y2 32)
                | .c1c3c2 => encodePoint x1 y1 s.cfg.c1form ++
                  Config.hash (i2os x2 32 ++ s.memRead (s.aNat src) (s.aNat l) ++ i2os y2 32) ++
                  xorBytes (s.memRead (s.aNat src) (s.aNat l)) t)) ∧
        ((∀ i < s.params.retryMax, EncryptWordFails Config.hash (s.point q) (s.aNat l) (s.rng.word i).toNat) →
          ∃ s', exec (.encrypt o d src l q) s = .next s' ∧ State.Faulted { rng := true } .retryExhausted s s' ∧
            s'.rng = s.rng.skip s.params.retryMax)))

/-- R191, R192 without the timing sentences: DECRYPT. The faults in the order of the rule; and where the recomputed MAC is the
C3 of the ciphertext, cut by CFG.MODE, the plaintext is written and A[o] receives its length. On every fault nothing of the
plaintext is written. -/
def Obligations.DecryptCommand : Prop :=
  ∀ (o d src l k : RegIdx) (raw : Bool) (s : State),
    (s.params.bufsz < s.aNat src + s.aNat l → FaultsWith (.decrypt o d src l k raw) s .srcRange) ∧
    (s.aNat src + s.aNat l ≤ s.params.bufsz →
      (raw = false → s.aNat l = 0 → FaultsWith (.decrypt o d src l k raw) s .shortCiphertext) ∧
      (raw = false → s.aNat l ≠ 0 → s.dbufByte (s.aNat src) ∉ [0x02#8, 0x03#8, 0x04#8, 0x06#8, 0x07#8] →
        FaultsWith (.decrypt o d src l k raw) s .badPrefix) ∧
      ∀ c1len, C1Length raw (s.memRead (s.aNat src) (s.aNat l)) c1len →
        (s.aNat l < c1len + 32 + 1 → FaultsWith (.decrypt o d src l k raw) s .shortCiphertext) ∧
        ∀ mlen, 1 ≤ mlen → s.aNat l = c1len + 32 + mlen →
          (s.params.bufsz < s.aNat d + mlen → FaultsWith (.decrypt o d src l k raw) s .dstRange) ∧
          (s.aNat d + mlen ≤ s.params.bufsz →
            (∀ c, decodePoint (s.memRead (s.aNat src) c1len) = .error c → FaultsWith (.decrypt o d src l k raw) s c) ∧
            ∀ c1, decodePoint (s.memRead (s.aNat src) c1len) = .ok c1 →
              (s.rNat k = 0 ∨ Config.n ≤ s.rNat k → FaultsWith (.decrypt o d src l k raw) s .scalarRange) ∧
              (1 ≤ s.rNat k → s.rNat k < Config.n →
                (scalarMul (s.rNat k) c1 = .inf → FaultsWith (.decrypt o d src l k raw) s .infinity) ∧
                ∀ x2 y2 c2 c3, scalarMul (s.rNat k) c1 = .affine x2 y2 →
                  (match s.cfg.mode with
                    | .c1c2c3 => c2 = s.memRead (s.aNat src + c1len) mlen ∧ c3 = s.memRead (s.aNat src + c1len + mlen) 32
                    | .c1c3c2 => c3 = s.memRead (s.aNat src + c1len) 32 ∧ c2 = s.memRead (s.aNat src + c1len + 32) mlen) →
                  (kdf Config.hash (i2os x2 32 ++ i2os y2 32) mlen = .error .kdfZero →
                    FaultsWith (.decrypt o d src l k raw) s .kdfZero) ∧
                  ∀ t, kdf Config.hash (i2os x2 32 ++ i2os y2 32) mlen = .ok t →
                    (Config.hash (i2os x2 32 ++ xorBytes c2 t ++ i2os y2 32) ≠ c3 → FaultsWith (.decrypt o d src l k raw) s .mac) ∧
                    (Config.hash (i2os x2 32 ++ xorBytes c2 t ++ i2os y2 32) = c3 →
                      ∃ s', exec (.decrypt o d src l k raw) s = .next s' ∧
                        State.Completed { a := [o], dbuf := (s.aNat d, mlen) } s s' ∧
                        s'.memRead (s.aNat d) mlen = xorBytes c2 t ∧ regGet s'.a o = BitVec.ofNat 32 mlen))))

/-- D0 §8 (R191): decryption inverts encryption. Where ENCRYPT completed under the public key x*G, DECRYPT of the bytes it wrote,
under x and the same CFG.MODE, wherever they lie, recovers the plaintext; for an uncompressed C1 also without its prefix byte,
under RAW64. -/
def Obligations.DecryptInvertsEncrypt : Prop :=
  ∀ (o d src l q o' d' src' l' k : RegIdx) (s s1 s2 : State) (x : Nat) (raw : Bool),
    1 ≤ x → x < Config.n → s.point q = scalarMul x generator →
    exec (.encrypt o d src l q) s = .next s1 → s1.cmdcnt = s.cmdcnt + 1 →
    s2.cfg.mode = s.cfg.mode → s2.rNat k = x →
    s2.aNat src' + s2.aNat l' ≤ s2.params.bufsz → s2.aNat d' + s.aNat l ≤ s2.params.bufsz →
    (raw = false ∧ s2.memRead (s2.aNat src') (s2.aNat l') = s1.memRead (s.aNat d) (cipherLength s.cfg (s.aNat l)) ∨
      raw = true ∧ s.cfg.c1form = .uncompressed ∧
        0x04#8 :: s2.memRead (s2.aNat src') (s2.aNat l') = s1.memRead (s.aNat d) (cipherLength s.cfg (s.aNat l))) →
    ∃ s3, exec (.decrypt o' d' src' l' k raw) s2 = .next s3 ∧
      State.Completed { a := [o'], dbuf := (s2.aNat d', s.aNat l) } s2 s3 ∧
      s3.memRead (s2.aNat d') (s.aNat l) = s.memRead (s.aNat src) (s.aNat l) ∧ regGet s3.a o' = regGet s.a l

/-! ## Signatures -/

/-- R200, R202: ZA. The hash of the preamble for the current UserID and a finite point on the curve, as a big-endian number; the
faults in the order of the rule. -/
def Obligations.ZaCommand : Prop :=
  ∀ d a : RegIdx, decode (0x60#8 ++ regField d ++ regField a ++ 0#16) = .ok (.za d a) ∧ ReservedBitsFault 0x60#8 0x00FFFF#24 ∧
    ∀ s : State,
      (s.point a = .inf → FaultsWith (.za d a) s .infinity) ∧
      (onCurve (s.point a) = false → FaultsWith (.za d a) s .offCurve) ∧
      ∀ x y, s.point a = .affine x y → onCurve (.affine x y) = true →
        ∃ s', exec (.za d a) s = .next s' ∧ State.Completed { r := [d] } s s' ∧
          i2os (s'.rNat d) 32 = Config.hash (i2os (8 * s.userId.length) 2 ++ s.userId ++ i2os Config.a 32 ++ i2os Config.b 32 ++
            i2os Config.gx 32 ++ i2os Config.gy 32 ++ i2os x 32 ++ i2os y 32)

/-- R201 without its timing sentence: SIGN. The operand faults in the order of the rule, none of which draws a word; then, if the
first `j` words fail and word `j` does not, for `j < RETRY_MAX`, the signature (r, s) with `s*(1+d) = k - r*d` modulo n is
written in the configured encoding, its bytes and no others, and A[o] receives its length; and if RETRY_MAX words fail,
CurveError(4). -/
def Obligations.SignCommand : Prop :=
  ∀ (o dst src l k : RegIdx) (s : State),
    (s.params.bufsz < s.aNat src + s.aNat l → FaultsWith (.sign o dst src l k) s .srcRange) ∧
    (s.aNat src + s.aNat l ≤ s.params.bufsz →
      s.params.bufsz < s.aNat dst + (if s.cfg.sigenc = .plain then 64 else 72) → FaultsWith (.sign o dst src l k) s .dstRange) ∧
    (s.aNat src + s.aNat l ≤ s.params.bufsz → s.aNat dst + (if s.cfg.sigenc = .plain then 64 else 72) ≤ s.params.bufsz →
      (s.rNat k = 0 ∨ Config.n ≤ s.rNat k → FaultsWith (.sign o dst src l k) s .scalarRange) ∧
      (s.rNat k = Config.n - 1 → FaultsWith (.sign o dst src l k) s .noInverse) ∧
      (1 ≤ s.rNat k → s.rNat k < Config.n - 1 → ∀ e,
        e = os2i (Config.hash (zaOf Config.hash s.userId (scalarMul (s.rNat k) generator) ++ s.memRead (s.aNat src) (s.aNat l))) →
        (∀ j < s.params.retryMax,
          (∀ i < j, SignWordFails (s.rNat k) e (s.rng.word i).toNat) → ¬SignWordFails (s.rNat k) e (s.rng.word j).toNat →
          ∃ s' r sg, exec (.sign o dst src l k) s = .next s' ∧
            1 ≤ r ∧ r < Config.n ∧ 1 ≤ sg ∧ sg < Config.n ∧
            r = signR e (s.rng.word j).toNat ∧
            ((sg : Int) * (1 + s.rNat k)) % Config.n = (((s.rng.word j).toNat : Int) - r * s.rNat k) % Config.n ∧
            State.Completed { a := [o], dbuf := (s.aNat dst, (encodeSig r sg s.cfg.sigenc).length), rng := true } s s' ∧
            s'.rng = s.rng.skip (j + 1) ∧
            s'.memRead (s.aNat dst) (encodeSig r sg s.cfg.sigenc).length = encodeSig r sg s.cfg.sigenc ∧
            s'.aNat o = (encodeSig r sg s.cfg.sigenc).length) ∧
        ((∀ i < s.params.retryMax, SignWordFails (s.rNat k) e (s.rng.word i).toNat) →
          ∃ s', exec (.sign o dst src l k) s = .next s' ∧ State.Faulted { rng := true } .retryExhausted s s' ∧
            s'.rng = s.rng.skip s.params.retryMax)))

/-- R203, R242: VERIFY. Malformed input faults, in the order of the rule; a well-formed signature completes with the verdict in T
and writes nothing else: false for an out-of-range r or s whatever the key is, and otherwise the verdict of the equation. -/
def Obligations.VerifyCommand : Prop :=
  ∀ src l g h q : RegIdx,
    decode (0x62#8 ++ regField src ++ regField l ++ regField g ++ regField h ++ regField q ++ 0#4) = .ok (.verify src l g h q) ∧
    ReservedBitsFault 0x62#8 0x00000F#24 ∧
    ∀ s : State,
      (s.params.bufsz < s.aNat src + s.aNat l → FaultsWith (.verify src l g h q) s .srcRange) ∧
      (s.aNat src + s.aNat l ≤ s.params.bufsz → s.params.bufsz < s.aNat g + s.aNat h →
        FaultsWith (.verify src l g h q) s .sigRange) ∧
      (s.aNat src + s.aNat l ≤ s.params.bufsz → s.aNat g + s.aNat h ≤ s.params.bufsz →
        (∀ c, parseSig (s.memRead (s.aNat g) (s.aNat h)) s.cfg.sigenc = .error c → FaultsWith (.verify src l g h q) s c) ∧
        ∀ r sg, parseSig (s.memRead (s.aNat g) (s.aNat h)) s.cfg.sigenc = .ok (r, sg) →
          (r = 0 ∨ Config.n ≤ r ∨ sg = 0 ∨ Config.n ≤ sg →
            ∃ s', exec (.verify src l g h q) s = .next s' ∧ State.Completed { t := true } s s' ∧ s'.t = false) ∧
          (1 ≤ r → r < Config.n → 1 ≤ sg → sg < Config.n →
            (s.point q = .inf → FaultsWith (.verify src l g h q) s .infinity) ∧
            (onCurve (s.point q) = false → FaultsWith (.verify src l g h q) s .offCurve) ∧
            (s.point q ≠ .inf → onCurve (s.point q) = true →
              ∃ s', exec (.verify src l g h q) s = .next s' ∧ State.Completed { t := true } s s' ∧
                (s'.t = true ↔ (r + sg) % Config.n ≠ 0 ∧
                  ∃ x1 y1, pointAdd (scalarMul sg generator) (scalarMul ((r + sg) % Config.n) (s.point q)) = .affine x1 y1 ∧
                    (os2i (Config.hash (zaOf Config.hash s.userId (s.point q) ++ s.memRead (s.aNat src) (s.aNat l))) + x1) %
                      Config.n = r))))

/-- The bytes of both encodings of R204 and their lengths; and the strictness of R205: a string parses to a pair exactly where it
is the encoding of that pair, for the pairs that have one. Those are all below 2^256 in Plain. In DER they are those the
pseudocode of R205 accepts, all whose contents fit 33 bytes (at most 33 by `LV > 33`, not negative), so below 2^263; the
sentence after the pseudocode prints 2^264, and the pseudocode is followed (log 22). -/
def Obligations.SignatureCodec : Prop :=
  (∀ r s : Nat, encodeSig r s .plain = i2os r 32 ++ i2os s 32) ∧
  (∀ r s : Nat, 1 ≤ r → r < Config.n → 1 ≤ s → s < Config.n →
    (encodeSig r s .plain).length = 64 ∧ 8 ≤ (encodeSig r s .der).length ∧ (encodeSig r s .der).length ≤ 72 ∧
    ∃ vr vs, DerContents r vr ∧ DerContents s vs ∧
      encodeSig r s .der = [0x30#8, BitVec.ofNat 8 (2 + vr.length + (2 + vs.length))] ++
        ([0x02#8, BitVec.ofNat 8 vr.length] ++ vr) ++ ([0x02#8, BitVec.ofNat 8 vs.length] ++ vs)) ∧
  (∀ (bs : Bytes) (r s : Nat), parseSig bs .plain = .ok (r, s) ↔ bs = encodeSig r s .plain ∧ r < 2 ^ 256 ∧ s < 2 ^ 256) ∧
  ∀ (bs : Bytes) (r s : Nat), parseSig bs .der = .ok (r, s) ↔ bs = encodeSig r s .der ∧ r < 2 ^ 263 ∧ s < 2 ^ 263

/-- R205: the faults of `ParseSig`, in the order of the rule: the SEQUENCE, the first INTEGER, the second INTEGER, the end. -/
def Obligations.SignatureFaults : Prop :=
  (∀ bs : Bytes, bs.length ≠ 64 → parseSig bs .plain = .error .plainLength) ∧
  (∀ bs : Bytes, bs.length < 2 ∨ byteAt bs 0 ≠ 0x30 ∨ 0x80 ≤ byteAt bs 1 ∨ byteAt bs 1 ≠ bs.length - 2 →
    parseSig bs .der = .error .badDer) ∧
  (∀ (body : Bytes) (c : FaultCode), body.length < 0x80 → DerIntFault body c →
    parseSig (0x30#8 :: BitVec.ofNat 8 body.length :: body) .der = .error c) ∧
  (∀ (r : Nat) (v rest : Bytes) (c : FaultCode), DerContents r v → 2 + v.length + rest.length < 0x80 → DerIntFault rest c →
    parseSig (0x30#8 :: BitVec.ofNat 8 (2 + v.length + rest.length) :: 0x02#8 :: BitVec.ofNat 8 v.length :: (v ++ rest)) .der =
      .error c) ∧
  ∀ (r s : Nat) (vr vs rest : Bytes), DerContents r vr → DerContents s vs → rest ≠ [] →
    2 + vr.length + (2 + vs.length) + rest.length < 0x80 →
    parseSig (0x30#8 :: BitVec.ofNat 8 (2 + vr.length + (2 + vs.length) + rest.length) :: 0x02#8 :: BitVec.ofNat 8 vr.length ::
      (vr ++ (0x02#8 :: BitVec.ofNat 8 vs.length :: (vs ++ rest)))) .der = .error .badDer

/-- D0 §8 (R203): verification accepts what SIGN signed. Where SIGN completed under the scalar x, VERIFY of the bytes it wrote,
under the public key x*G, the same SIGENC, UserID and message, wherever they lie, completes with T = 1. -/
def Obligations.VerifyAcceptsSign : Prop :=
  ∀ (o dst src l k src' l' g h q : RegIdx) (s s1 s2 : State),
    exec (.sign o dst src l k) s = .next s1 → s1.cmdcnt = s.cmdcnt + 1 →
    s2.cfg.sigenc = s.cfg.sigenc → s2.userId = s.userId → s2.point q = scalarMul (s.rNat k) generator →
    s2.aNat src' + s2.aNat l' ≤ s2.params.bufsz → s2.aNat g + s2.aNat h ≤ s2.params.bufsz →
    s2.memRead (s2.aNat src') (s2.aNat l') = s.memRead (s.aNat src) (s.aNat l) →
    s2.memRead (s2.aNat g) (s2.aNat h) = s1.memRead (s.aNat dst) (s1.aNat o) →
    ∃ s3, exec (.verify src' l' g h q) s2 = .next s3 ∧ State.Completed { t := true } s2 s3 ∧ s3.t = true

end
end

