-- ==== Sys2Proof/Laws/Bytes.lean ====
section
/-! SUPPORT. The byte strings of R10: lengths, values, and the two directions of `os2i` and `i2os`. -/

namespace Sys2Proof.Machine

@[simp] theorem i2os_length (v w : Nat) : (i2os v w).length = w := by
  induction w generalizing v with
  | zero => rfl
  | succ w ih => simp [i2os, ih]

@[simp] theorem os2i_nil : os2i [] = 0 := rfl

theorem os2i_append_one (bs : Bytes) (b : Byte) : os2i (bs ++ [b]) = os2i bs * 256 + b.toNat := by
  simp [os2i]

theorem os2i_lt (bs : Bytes) : os2i bs < 256 ^ bs.length := by
  induction bs using List.reverseRecOn with
  | nil => simp
  | append_singleton bs b ih =>
    have hb := b.isLt
    rw [os2i_append_one, List.length_append, List.length_singleton, pow_succ]
    omega

theorem os2i_i2os (v w : Nat) : os2i (i2os v w) = v % 256 ^ w := by
  induction w generalizing v with
  | zero => simp [i2os, Nat.mod_one]
  | succ w ih =>
    rw [i2os, os2i_append_one, ih, pow_succ, Nat.mul_comm (256 ^ w) 256, Nat.mod_mul]
    simp only [BitVec.toNat_ofNat]
    omega

/-- `os2i(i2os(v, w)) = v` where `i2os` is defined (R10). -/
theorem os2i_i2os_of_lt {v w : Nat} (h : v < 256 ^ w) : os2i (i2os v w) = v := by
  rw [os2i_i2os, Nat.mod_eq_of_lt h]

theorem i2os_os2i (bs : Bytes) : i2os (os2i bs) bs.length = bs := by
  induction bs using List.reverseRecOn with
  | nil => rfl
  | append_singleton bs b ih =>
    have hb := b.isLt
    have h1 : (os2i bs * 256 + b.toNat) / 256 = os2i bs := by omega
    have h2 : BitVec.ofNat 8 (os2i bs * 256 + b.toNat) = b := by
      apply BitVec.eq_of_toNat_eq
      simp only [BitVec.toNat_ofNat]
      omega
    rw [List.length_append, List.length_singleton, i2os, os2i_append_one, h1, h2, ih]

/-- Byte `i` of a big-endian string (R10). -/
theorem byteAt_i2os {w i : Nat} (v : Nat) (h : i < w) : byteAt (i2os v w) i = v / 256 ^ (w - 1 - i) % 256 := by
  induction w generalizing v with
  | zero => omega
  | succ w ih =>
    simp only [byteAt, i2os]
    by_cases hi : i = w
    · subst hi
      simp [List.getD_eq_getElem?_getD]
    · have h' : i < w := by omega
      have e := ih (v / 256) h'
      have hl : i < (i2os (v / 256) w).length := by simpa using h'
      simp only [byteAt, List.getD_eq_getElem?_getD] at e
      rw [List.getD_eq_getElem?_getD, List.getElem?_append_left hl, e, Nat.div_div_eq_div_mul]
      congr 2
      rw [← pow_succ', show w + 1 - 1 - i = w - 1 - i + 1 by omega]

@[simp] theorem xorBytes_length (b1 b2 : Bytes) : (xorBytes b1 b2).length = min b1.length b2.length := by
  simp [xorBytes]

/-- Masking twice with the same mask gives the string back (R190, R191). -/
theorem xorBytes_cancel {b1 b2 : Bytes} (h : b1.length = b2.length) : xorBytes (xorBytes b1 b2) b2 = b1 := by
  induction b1 generalizing b2 with
  | nil => simp [xorBytes]
  | cons x xs ih =>
    cases b2 with
    | nil => simp at h
    | cons y ys =>
      have h' : xs.length = ys.length := by simpa using h
      have e := ih h'
      simp only [xorBytes, List.zipWith_cons_cons] at e ⊢
      rw [e, BitVec.xor_assoc, BitVec.xor_self, BitVec.xor_zero]

theorem slice_length {bs : Bytes} {start len : Nat} (h : start + len ≤ bs.length) : (slice bs start len).length = len := by
  simp only [slice, List.length_take, List.length_drop]
  omega

/-- The middle of a concatenation of three strings. -/
theorem slice_middle (a b c : Bytes) : slice (a ++ b ++ c) a.length b.length = b := by
  simp [slice, List.append_assoc]

/-- The value of a concatenation. -/
theorem os2i_append (a b : Bytes) : os2i (a ++ b) = os2i a * 256 ^ b.length + os2i b := by
  induction b using List.reverseRecOn with
  | nil => simp
  | append_singleton b x ih =>
    rw [← List.append_assoc, os2i_append_one, ih, os2i_append_one, List.length_append, List.length_singleton, pow_succ]; ring

theorem os2i_cons (b : Byte) (bs : Bytes) : os2i (b :: bs) = b.toNat * 256 ^ bs.length + os2i bs := by
  rw [show b :: bs = [b] ++ bs from rfl, os2i_append]; simp [os2i]

/-- The first byte of a big-endian string. -/
theorem i2os_cons (v w : Nat) : i2os v (w+1) = BitVec.ofNat 8 (v / 256 ^ w) :: i2os v w := by
  induction w generalizing v with
  | zero => simp [i2os]
  | succ w ih =>
    rw [i2os, ih (v/256), i2os, Nat.div_div_eq_div_mul, ← pow_succ']; simp

theorem byteAt_append_right (a b : Bytes) (i : Nat) : byteAt (a ++ b) (a.length + i) = byteAt b i := by
  simp only [byteAt, List.getD_eq_getElem?_getD, List.getElem?_append_right (Nat.le_add_right _ _), Nat.add_sub_cancel_left]

theorem byteAt_append_left {a : Bytes} (b : Bytes) {i : Nat} (h : i < a.length) : byteAt (a ++ b) i = byteAt a i := by
  simp [byteAt, List.getD_eq_getElem?_getD, List.getElem?_append_left h]

/-- Two adjacent slices. -/
theorem slice_append (bs : Bytes) (p a b : Nat) : slice bs p (a + b) = slice bs p a ++ slice bs (p + a) b := by
  simp only [slice]
  rw [List.take_add, List.drop_drop]

theorem slice_two {bs : Bytes} {p : Nat} (h : p + 2 ≤ bs.length) : slice bs p 2 = [BitVec.ofNat 8 (byteAt bs p), BitVec.ofNat 8 (byteAt bs (p+1))] := by
  apply List.ext_getElem
  · rw [slice_length h]; rfl
  · intro i h1 h2
    rw [slice_length h] at h1
    have : i = 0 ∨ i = 1 := by omega
    rcases this with rfl | rfl
    · simp [slice, byteAt, List.getD_eq_getElem?_getD, show p < bs.length by omega]
    · simp [slice, byteAt, List.getD_eq_getElem?_getD, show p + 1 < bs.length by omega]

/-- The abscissa of an encoded point. -/
theorem slice_cons_one (b : Byte) (a c : Bytes) (h : a.length = 32) : slice (b :: (a ++ c)) 1 32 = a := by
  have := slice_middle [b] a c; simpa [h] using this

/-- The ordinate of an encoded point. -/
theorem slice_cons_33 (b : Byte) (a c : Bytes) (h : a.length = 32) (h' : c.length = 32) : slice (b :: (a ++ c)) 33 32 = c := by
  have := slice_middle (b :: a) c []; simpa [h, h'] using this

end Sys2Proof.Machine
end

