-- ==== Sys2Proof/Laws/State.lean ====
section
/-! SUPPORT. One lemma per field per update of the state, each true by rfl; and reading a register file after a write. -/

namespace Sys2Proof.Machine

theorem regGet_regSet_same {α : Type} (f : Vector α 16) (i : RegIdx) (v : α) : regGet (regSet f i v) i = v := by
  simp [regGet, regSet]

theorem regGet_regSet_other {α : Type} (f : Vector α 16) {i j : RegIdx} (v : α) (h : j ≠ i) :
    regGet (regSet f i v) j = regGet f j := by
  have h' : ¬ i.val = j.val := fun e => h (Fin.ext e.symm)
  simp [regGet, regSet, h']

theorem regGet_regSet {α : Type} (f : Vector α 16) (i j : RegIdx) (v : α) :
    regGet (regSet f i v) j = if j = i then v else regGet f j := by
  by_cases h : j = i
  · subst h; simp [regGet_regSet_same]
  · simp [regGet_regSet_other f v h, h]

variable (s : State)

@[simp] theorem State.writeR_params (i : RegIdx) (v : Word256) : (s.writeR i v).params = s.params := rfl
@[simp] theorem State.writeR_r (i : RegIdx) (v : Word256) : (s.writeR i v).r = regSet s.r i v := rfl
@[simp] theorem State.writeR_p (i : RegIdx) (v : Word256) : (s.writeR i v).p = s.p := rfl
@[simp] theorem State.writeR_a (i : RegIdx) (v : Word256) : (s.writeR i v).a = s.a := rfl
@[simp] theorem State.writeR_dbuf (i : RegIdx) (v : Word256) : (s.writeR i v).dbuf = s.dbuf := rfl
@[simp] theorem State.writeR_dbufEpoch (i : RegIdx) (v : Word256) : (s.writeR i v).dbufEpoch = s.dbufEpoch := rfl
@[simp] theorem State.writeR_idbuf (i : RegIdx) (v : Word256) : (s.writeR i v).idbuf = s.idbuf := rfl
@[simp] theorem State.writeR_idlen (i : RegIdx) (v : Word256) : (s.writeR i v).idlen = s.idlen := rfl
@[simp] theorem State.writeR_t (i : RegIdx) (v : Word256) : (s.writeR i v).t = s.t := rfl
@[simp] theorem State.writeR_busy (i : RegIdx) (v : Word256) : (s.writeR i v).busy = s.busy := rfl
@[simp] theorem State.writeR_err (i : RegIdx) (v : Word256) : (s.writeR i v).err = s.err := rfl
@[simp] theorem State.writeR_cfg (i : RegIdx) (v : Word256) : (s.writeR i v).cfg = s.cfg := rfl
@[simp] theorem State.writeR_errcode (i : RegIdx) (v : Word256) : (s.writeR i v).errcode = s.errcode := rfl
@[simp] theorem State.writeR_errcmd (i : RegIdx) (v : Word256) : (s.writeR i v).errcmd = s.errcmd := rfl
@[simp] theorem State.writeR_cmdcnt (i : RegIdx) (v : Word256) : (s.writeR i v).cmdcnt = s.cmdcnt := rfl
@[simp] theorem State.writeR_ien (i : RegIdx) (v : Word256) : (s.writeR i v).ien = s.ien := rfl
@[simp] theorem State.writeR_istat (i : RegIdx) (v : Word256) : (s.writeR i v).istat = s.istat := rfl
@[simp] theorem State.writeR_cmd (i : RegIdx) (v : Word256) : (s.writeR i v).cmd = s.cmd := rfl
@[simp] theorem State.writeR_rng (i : RegIdx) (v : Word256) : (s.writeR i v).rng = s.rng := rfl
@[simp] theorem State.writeR_inputs (i : RegIdx) (v : Word256) : (s.writeR i v).inputs = s.inputs := rfl
@[simp] theorem State.writeR_readData (i : RegIdx) (v : Word256) : (s.writeR i v).readData = s.readData := rfl

@[simp] theorem State.writeA_params (i : RegIdx) (v : Word) : (s.writeA i v).params = s.params := rfl
@[simp] theorem State.writeA_r (i : RegIdx) (v : Word) : (s.writeA i v).r = s.r := rfl
@[simp] theorem State.writeA_p (i : RegIdx) (v : Word) : (s.writeA i v).p = s.p := rfl
@[simp] theorem State.writeA_a (i : RegIdx) (v : Word) : (s.writeA i v).a = regSet s.a i v := rfl
@[simp] theorem State.writeA_dbuf (i : RegIdx) (v : Word) : (s.writeA i v).dbuf = s.dbuf := rfl
@[simp] theorem State.writeA_dbufEpoch (i : RegIdx) (v : Word) : (s.writeA i v).dbufEpoch = s.dbufEpoch := rfl
@[simp] theorem State.writeA_idbuf (i : RegIdx) (v : Word) : (s.writeA i v).idbuf = s.idbuf := rfl
@[simp] theorem State.writeA_idlen (i : RegIdx) (v : Word) : (s.writeA i v).idlen = s.idlen := rfl
@[simp] theorem State.writeA_t (i : RegIdx) (v : Word) : (s.writeA i v).t = s.t := rfl
@[simp] theorem State.writeA_busy (i : RegIdx) (v : Word) : (s.writeA i v).busy = s.busy := rfl
@[simp] theorem State.writeA_err (i : RegIdx) (v : Word) : (s.writeA i v).err = s.err := rfl
@[simp] theorem State.writeA_cfg (i : RegIdx) (v : Word) : (s.writeA i v).cfg = s.cfg := rfl
@[simp] theorem State.writeA_errcode (i : RegIdx) (v : Word) : (s.writeA i v).errcode = s.errcode := rfl
@[simp] theorem State.writeA_errcmd (i : RegIdx) (v : Word) : (s.writeA i v).errcmd = s.errcmd := rfl
@[simp] theorem State.writeA_cmdcnt (i : RegIdx) (v : Word) : (s.writeA i v).cmdcnt = s.cmdcnt := rfl
@[simp] theorem State.writeA_ien (i : RegIdx) (v : Word) : (s.writeA i v).ien = s.ien := rfl
@[simp] theorem State.writeA_istat (i : RegIdx) (v : Word) : (s.writeA i v).istat = s.istat := rfl
@[simp] theorem State.writeA_cmd (i : RegIdx) (v : Word) : (s.writeA i v).cmd = s.cmd := rfl
@[simp] theorem State.writeA_rng (i : RegIdx) (v : Word) : (s.writeA i v).rng = s.rng := rfl
@[simp] theorem State.writeA_inputs (i : RegIdx) (v : Word) : (s.writeA i v).inputs = s.inputs := rfl
@[simp] theorem State.writeA_readData (i : RegIdx) (v : Word) : (s.writeA i v).readData = s.readData := rfl

@[simp] theorem State.writeP_params (i : RegIdx) (v : PointReg) : (s.writeP i v).params = s.params := rfl
@[simp] theorem State.writeP_r (i : RegIdx) (v : PointReg) : (s.writeP i v).r = s.r := rfl
@[simp] theorem State.writeP_p (i : RegIdx) (v : PointReg) : (s.writeP i v).p = regSet s.p i v := rfl
@[simp] theorem State.writeP_a (i : RegIdx) (v : PointReg) : (s.writeP i v).a = s.a := rfl
@[simp] theorem State.writeP_dbuf (i : RegIdx) (v : PointReg) : (s.writeP i v).dbuf = s.dbuf := rfl
@[simp] theorem State.writeP_dbufEpoch (i : RegIdx) (v : PointReg) : (s.writeP i v).dbufEpoch = s.dbufEpoch := rfl
@[simp] theorem State.writeP_idbuf (i : RegIdx) (v : PointReg) : (s.writeP i v).idbuf = s.idbuf := rfl
@[simp] theorem State.writeP_idlen (i : RegIdx) (v : PointReg) : (s.writeP i v).idlen = s.idlen := rfl
@[simp] theorem State.writeP_t (i : RegIdx) (v : PointReg) : (s.writeP i v).t = s.t := rfl
@[simp] theorem State.writeP_busy (i : RegIdx) (v : PointReg) : (s.writeP i v).busy = s.busy := rfl
@[simp] theorem State.writeP_err (i : RegIdx) (v : PointReg) : (s.writeP i v).err = s.err := rfl
@[simp] theorem State.writeP_cfg (i : RegIdx) (v : PointReg) : (s.writeP i v).cfg = s.cfg := rfl
@[simp] theorem State.writeP_errcode (i : RegIdx) (v : PointReg) : (s.writeP i v).errcode = s.errcode := rfl
@[simp] theorem State.writeP_errcmd (i : RegIdx) (v : PointReg) : (s.writeP i v).errcmd = s.errcmd := rfl
@[simp] theorem State.writeP_cmdcnt (i : RegIdx) (v : PointReg) : (s.writeP i v).cmdcnt = s.cmdcnt := rfl
@[simp] theorem State.writeP_ien (i : RegIdx) (v : PointReg) : (s.writeP i v).ien = s.ien := rfl
@[simp] theorem State.writeP_istat (i : RegIdx) (v : PointReg) : (s.writeP i v).istat = s.istat := rfl
@[simp] theorem State.writeP_cmd (i : RegIdx) (v : PointReg) : (s.writeP i v).cmd = s.cmd := rfl
@[simp] theorem State.writeP_rng (i : RegIdx) (v : PointReg) : (s.writeP i v).rng = s.rng := rfl
@[simp] theorem State.writeP_inputs (i : RegIdx) (v : PointReg) : (s.writeP i v).inputs = s.inputs := rfl
@[simp] theorem State.writeP_readData (i : RegIdx) (v : PointReg) : (s.writeP i v).readData = s.readData := rfl

@[simp] theorem State.writeT_params (v : Bool) : (s.writeT v).params = s.params := rfl
@[simp] theorem State.writeT_r (v : Bool) : (s.writeT v).r = s.r := rfl
@[simp] theorem State.writeT_p (v : Bool) : (s.writeT v).p = s.p := rfl
@[simp] theorem State.writeT_a (v : Bool) : (s.writeT v).a = s.a := rfl
@[simp] theorem State.writeT_dbuf (v : Bool) : (s.writeT v).dbuf = s.dbuf := rfl
@[simp] theorem State.writeT_dbufEpoch (v : Bool) : (s.writeT v).dbufEpoch = s.dbufEpoch := rfl
@[simp] theorem State.writeT_idbuf (v : Bool) : (s.writeT v).idbuf = s.idbuf := rfl
@[simp] theorem State.writeT_idlen (v : Bool) : (s.writeT v).idlen = s.idlen := rfl
@[simp] theorem State.writeT_t (v : Bool) : (s.writeT v).t = v := rfl
@[simp] theorem State.writeT_busy (v : Bool) : (s.writeT v).busy = s.busy := rfl
@[simp] theorem State.writeT_err (v : Bool) : (s.writeT v).err = s.err := rfl
@[simp] theorem State.writeT_cfg (v : Bool) : (s.writeT v).cfg = s.cfg := rfl
@[simp] theorem State.writeT_errcode (v : Bool) : (s.writeT v).errcode = s.errcode := rfl
@[simp] theorem State.writeT_errcmd (v : Bool) : (s.writeT v).errcmd = s.errcmd := rfl
@[simp] theorem State.writeT_cmdcnt (v : Bool) : (s.writeT v).cmdcnt = s.cmdcnt := rfl
@[simp] theorem State.writeT_ien (v : Bool) : (s.writeT v).ien = s.ien := rfl
@[simp] theorem State.writeT_istat (v : Bool) : (s.writeT v).istat = s.istat := rfl
@[simp] theorem State.writeT_cmd (v : Bool) : (s.writeT v).cmd = s.cmd := rfl
@[simp] theorem State.writeT_rng (v : Bool) : (s.writeT v).rng = s.rng := rfl
@[simp] theorem State.writeT_inputs (v : Bool) : (s.writeT v).inputs = s.inputs := rfl
@[simp] theorem State.writeT_readData (v : Bool) : (s.writeT v).readData = s.readData := rfl

@[simp] theorem State.memWrite_params (addr : Nat) (bs : Bytes) : (s.memWrite addr bs).params = s.params := rfl
@[simp] theorem State.memWrite_r (addr : Nat) (bs : Bytes) : (s.memWrite addr bs).r = s.r := rfl
@[simp] theorem State.memWrite_p (addr : Nat) (bs : Bytes) : (s.memWrite addr bs).p = s.p := rfl
@[simp] theorem State.memWrite_a (addr : Nat) (bs : Bytes) : (s.memWrite addr bs).a = s.a := rfl
@[simp] theorem State.memWrite_dbuf (addr : Nat) (bs : Bytes) : (s.memWrite addr bs).dbuf = Memory.putBytes dbufUnlisted addr bs s.dbuf := rfl
@[simp] theorem State.memWrite_dbufEpoch (addr : Nat) (bs : Bytes) : (s.memWrite addr bs).dbufEpoch = s.dbufEpoch := rfl
@[simp] theorem State.memWrite_idbuf (addr : Nat) (bs : Bytes) : (s.memWrite addr bs).idbuf = s.idbuf := rfl
@[simp] theorem State.memWrite_idlen (addr : Nat) (bs : Bytes) : (s.memWrite addr bs).idlen = s.idlen := rfl
@[simp] theorem State.memWrite_t (addr : Nat) (bs : Bytes) : (s.memWrite addr bs).t = s.t := rfl
@[simp] theorem State.memWrite_busy (addr : Nat) (bs : Bytes) : (s.memWrite addr bs).busy = s.busy := rfl
@[simp] theorem State.memWrite_err (addr : Nat) (bs : Bytes) : (s.memWrite addr bs).err = s.err := rfl
@[simp] theorem State.memWrite_cfg (addr : Nat) (bs : Bytes) : (s.memWrite addr bs).cfg = s.cfg := rfl
@[simp] theorem State.memWrite_errcode (addr : Nat) (bs : Bytes) : (s.memWrite addr bs).errcode = s.errcode := rfl
@[simp] theorem State.memWrite_errcmd (addr : Nat) (bs : Bytes) : (s.memWrite addr bs).errcmd = s.errcmd := rfl
@[simp] theorem State.memWrite_cmdcnt (addr : Nat) (bs : Bytes) : (s.memWrite addr bs).cmdcnt = s.cmdcnt := rfl
@[simp] theorem State.memWrite_ien (addr : Nat) (bs : Bytes) : (s.memWrite addr bs).ien = s.ien := rfl
@[simp] theorem State.memWrite_istat (addr : Nat) (bs : Bytes) : (s.memWrite addr bs).istat = s.istat := rfl
@[simp] theorem State.memWrite_cmd (addr : Nat) (bs : Bytes) : (s.memWrite addr bs).cmd = s.cmd := rfl
@[simp] theorem State.memWrite_rng (addr : Nat) (bs : Bytes) : (s.memWrite addr bs).rng = s.rng := rfl
@[simp] theorem State.memWrite_inputs (addr : Nat) (bs : Bytes) : (s.memWrite addr bs).inputs = s.inputs := rfl
@[simp] theorem State.memWrite_readData (addr : Nat) (bs : Bytes) : (s.memWrite addr bs).readData = s.readData := rfl

@[simp] theorem State.withRng_params (g : Rng) : (s.withRng g).params = s.params := rfl
@[simp] theorem State.withRng_r (g : Rng) : (s.withRng g).r = s.r := rfl
@[simp] theorem State.withRng_p (g : Rng) : (s.withRng g).p = s.p := rfl
@[simp] theorem State.withRng_a (g : Rng) : (s.withRng g).a = s.a := rfl
@[simp] theorem State.withRng_dbuf (g : Rng) : (s.withRng g).dbuf = s.dbuf := rfl
@[simp] theorem State.withRng_dbufEpoch (g : Rng) : (s.withRng g).dbufEpoch = s.dbufEpoch := rfl
@[simp] theorem State.withRng_idbuf (g : Rng) : (s.withRng g).idbuf = s.idbuf := rfl
@[simp] theorem State.withRng_idlen (g : Rng) : (s.withRng g).idlen = s.idlen := rfl
@[simp] theorem State.withRng_t (g : Rng) : (s.withRng g).t = s.t := rfl
@[simp] theorem State.withRng_busy (g : Rng) : (s.withRng g).busy = s.busy := rfl
@[simp] theorem State.withRng_err (g : Rng) : (s.withRng g).err = s.err := rfl
@[simp] theorem State.withRng_cfg (g : Rng) : (s.withRng g).cfg = s.cfg := rfl
@[simp] theorem State.withRng_errcode (g : Rng) : (s.withRng g).errcode = s.errcode := rfl
@[simp] theorem State.withRng_errcmd (g : Rng) : (s.withRng g).errcmd = s.errcmd := rfl
@[simp] theorem State.withRng_cmdcnt (g : Rng) : (s.withRng g).cmdcnt = s.cmdcnt := rfl
@[simp] theorem State.withRng_ien (g : Rng) : (s.withRng g).ien = s.ien := rfl
@[simp] theorem State.withRng_istat (g : Rng) : (s.withRng g).istat = s.istat := rfl
@[simp] theorem State.withRng_cmd (g : Rng) : (s.withRng g).cmd = s.cmd := rfl
@[simp] theorem State.withRng_rng (g : Rng) : (s.withRng g).rng = g := rfl
@[simp] theorem State.withRng_inputs (g : Rng) : (s.withRng g).inputs = s.inputs := rfl
@[simp] theorem State.withRng_readData (g : Rng) : (s.withRng g).readData = s.readData := rfl

@[simp] theorem State.complete_params : (s.complete).params = s.params := rfl
@[simp] theorem State.complete_r : (s.complete).r = s.r := rfl
@[simp] theorem State.complete_p : (s.complete).p = s.p := rfl
@[simp] theorem State.complete_a : (s.complete).a = s.a := rfl
@[simp] theorem State.complete_dbuf : (s.complete).dbuf = s.dbuf := rfl
@[simp] theorem State.complete_dbufEpoch : (s.complete).dbufEpoch = s.dbufEpoch := rfl
@[simp] theorem State.complete_idbuf : (s.complete).idbuf = s.idbuf := rfl
@[simp] theorem State.complete_idlen : (s.complete).idlen = s.idlen := rfl
@[simp] theorem State.complete_t : (s.complete).t = s.t := rfl
@[simp] theorem State.complete_busy : (s.complete).busy = false := rfl
@[simp] theorem State.complete_err : (s.complete).err = s.err := rfl
@[simp] theorem State.complete_cfg : (s.complete).cfg = s.cfg := rfl
@[simp] theorem State.complete_errcode : (s.complete).errcode = s.errcode := rfl
@[simp] theorem State.complete_errcmd : (s.complete).errcmd = s.errcmd := rfl
@[simp] theorem State.complete_cmdcnt : (s.complete).cmdcnt = s.cmdcnt + 1 := rfl
@[simp] theorem State.complete_ien : (s.complete).ien = s.ien := rfl
@[simp] theorem State.complete_istat : (s.complete).istat = { s.istat with done := true } := rfl
@[simp] theorem State.complete_cmd : (s.complete).cmd = s.cmd := rfl
@[simp] theorem State.complete_rng : (s.complete).rng = s.rng := rfl
@[simp] theorem State.complete_inputs : (s.complete).inputs = s.inputs := rfl
@[simp] theorem State.complete_readData : (s.complete).readData = s.readData := rfl

@[simp] theorem State.raise_params (c : FaultCode) : (s.raise c).params = s.params := rfl
@[simp] theorem State.raise_r (c : FaultCode) : (s.raise c).r = s.r := rfl
@[simp] theorem State.raise_p (c : FaultCode) : (s.raise c).p = s.p := rfl
@[simp] theorem State.raise_a (c : FaultCode) : (s.raise c).a = s.a := rfl
@[simp] theorem State.raise_dbuf (c : FaultCode) : (s.raise c).dbuf = s.dbuf := rfl
@[simp] theorem State.raise_dbufEpoch (c : FaultCode) : (s.raise c).dbufEpoch = s.dbufEpoch := rfl
@[simp] theorem State.raise_idbuf (c : FaultCode) : (s.raise c).idbuf = s.idbuf := rfl
@[simp] theorem State.raise_idlen (c : FaultCode) : (s.raise c).idlen = s.idlen := rfl
@[simp] theorem State.raise_t (c : FaultCode) : (s.raise c).t = s.t := rfl
@[simp] theorem State.raise_busy (c : FaultCode) : (s.raise c).busy = false := rfl
@[simp] theorem State.raise_err (c : FaultCode) : (s.raise c).err = true := rfl
@[simp] theorem State.raise_cfg (c : FaultCode) : (s.raise c).cfg = s.cfg := rfl
@[simp] theorem State.raise_errcode (c : FaultCode) : (s.raise c).errcode = some c := rfl
@[simp] theorem State.raise_errcmd (c : FaultCode) : (s.raise c).errcmd = s.cmd := rfl
@[simp] theorem State.raise_cmdcnt (c : FaultCode) : (s.raise c).cmdcnt = s.cmdcnt := rfl
@[simp] theorem State.raise_ien (c : FaultCode) : (s.raise c).ien = s.ien := rfl
@[simp] theorem State.raise_istat (c : FaultCode) : (s.raise c).istat = { s.istat with err := true } := rfl
@[simp] theorem State.raise_cmd (c : FaultCode) : (s.raise c).cmd = s.cmd := rfl
@[simp] theorem State.raise_rng (c : FaultCode) : (s.raise c).rng = s.rng := rfl
@[simp] theorem State.raise_inputs (c : FaultCode) : (s.raise c).inputs = s.inputs := rfl
@[simp] theorem State.raise_readData (c : FaultCode) : (s.raise c).readData = s.readData := rfl

@[simp] theorem State.acknowledge_params : (s.acknowledge).params = s.params := rfl
@[simp] theorem State.acknowledge_r : (s.acknowledge).r = s.r := rfl
@[simp] theorem State.acknowledge_p : (s.acknowledge).p = s.p := rfl
@[simp] theorem State.acknowledge_a : (s.acknowledge).a = s.a := rfl
@[simp] theorem State.acknowledge_dbuf : (s.acknowledge).dbuf = s.dbuf := rfl
@[simp] theorem State.acknowledge_dbufEpoch : (s.acknowledge).dbufEpoch = s.dbufEpoch := rfl
@[simp] theorem State.acknowledge_idbuf : (s.acknowledge).idbuf = s.idbuf := rfl
@[simp] theorem State.acknowledge_idlen : (s.acknowledge).idlen = s.idlen := rfl
@[simp] theorem State.acknowledge_t : (s.acknowledge).t = s.t := rfl
@[simp] theorem State.acknowledge_busy : (s.acknowledge).busy = s.busy := rfl
@[simp] theorem State.acknowledge_err : (s.acknowledge).err = false := rfl
@[simp] theorem State.acknowledge_cfg : (s.acknowledge).cfg = s.cfg := rfl
@[simp] theorem State.acknowledge_errcode : (s.acknowledge).errcode = s.errcode := rfl
@[simp] theorem State.acknowledge_errcmd : (s.acknowledge).errcmd = s.errcmd := rfl
@[simp] theorem State.acknowledge_cmdcnt : (s.acknowledge).cmdcnt = s.cmdcnt := rfl
@[simp] theorem State.acknowledge_ien : (s.acknowledge).ien = s.ien := rfl
@[simp] theorem State.acknowledge_istat : (s.acknowledge).istat = s.istat := rfl
@[simp] theorem State.acknowledge_cmd : (s.acknowledge).cmd = s.cmd := rfl
@[simp] theorem State.acknowledge_rng : (s.acknowledge).rng = s.rng := rfl
@[simp] theorem State.acknowledge_inputs : (s.acknowledge).inputs = s.inputs := rfl
@[simp] theorem State.acknowledge_readData : (s.acknowledge).readData = s.readData := rfl

end Sys2Proof.Machine
end

