-- ==== Sys2Proof/Laws/Memory.lean ====
section
/-! SUPPORT. The laws of the byte memories: what a read gives after a write (R62, R63), and that every memory operation keeps
the canonical form. -/

namespace Sys2Proof.Machine

/-- The value an address reads as, for what an unlisted address reads as. -/
def Memory.value (unlisted : Nat → Option Byte) (m : Memory) (addr : Nat) : Option Byte :=
  match Memory.written m addr with
  | some b => some b
  | none => unlisted addr

theorem written_none_of_lt {unlisted : Nat → Option Byte} {m : Memory} {a : Nat} {b : Byte}
    (h : Memory.wf unlisted ((a, b) :: m) = true) : ∀ x ≤ a, Memory.written m x = none := by
  induction m generalizing a b with
  | nil => intro x _; rfl
  | cons c m ih =>
    obtain ⟨a', b'⟩ := c
    simp only [Memory.wf, Bool.and_eq_true, decide_eq_true_eq] at h
    intro x hx
    have hne : x ≠ a' := by omega
    have htail : Memory.wf unlisted ((a', b') :: m) = true := by
      simp only [Memory.wf, Bool.and_eq_true]
      exact h.2
    simp only [Memory.written, if_neg hne]
    exact ih htail x (by omega)

/-- The tail of a canonical memory is canonical. -/
theorem wf_tail {unlisted : Nat → Option Byte} {m : Memory} {c : Host.Cell} (h : Memory.wf unlisted (c :: m) = true) :
    Memory.wf unlisted m = true := by
  obtain ⟨a, b⟩ := c
  simp only [Memory.wf, Bool.and_eq_true] at h
  exact h.2

/-- Reading after one write: the byte written at its address, and every other address as before. -/
theorem value_put {unlisted : Nat → Option Byte} {m : Memory} (h : Memory.wf unlisted m = true) (addr : Nat) (byte : Byte)
    (x : Nat) :
    Memory.value unlisted (Memory.put unlisted addr byte m) x =
      if x = addr then some byte else Memory.value unlisted m x := by
  induction m with
  | nil =>
    by_cases hx : x = addr <;> by_cases hu : unlisted addr = some byte <;>
      simp [Memory.put, Memory.value, Memory.written, hx, hu]
  | cons c m ih =>
    obtain ⟨a, b⟩ := c
    have hgap := written_none_of_lt h
    have ih' := ih (wf_tail h)
    simp only [Memory.value] at ih' ⊢
    rcases Nat.lt_trichotomy addr a with hlt | heq | hgt
    · have hw : Memory.written ((a, b) :: m) addr = none := by
        simp only [Memory.written, if_neg (Nat.ne_of_lt hlt)]
        exact hgap addr (Nat.le_of_lt hlt)
      by_cases hu : unlisted addr = some byte
      · by_cases hx : x = addr
        · subst hx
          simp [Memory.put, hlt, hu, hw]
        · simp [Memory.put, hlt, hu, hx]
      · by_cases hx : x = addr
        · subst hx
          simp [Memory.put, hlt, hu, Memory.written]
        · simp [Memory.put, hlt, hu, hx, Memory.written]
    · subst heq
      by_cases hu : unlisted addr = some byte
      · by_cases hx : x = addr
        · subst hx
          simp [Memory.put, hu, hgap x (Nat.le_refl x)]
        · simp [Memory.put, hu, hx, Memory.written]
      · by_cases hx : x = addr <;> simp [Memory.put, hu, hx, Memory.written]
    · have h1 : ¬ addr < a := by omega
      have h2 : ¬ addr = a := by omega
      simp only [Memory.put, if_neg h1, if_neg h2, Memory.written]
      by_cases hx : x = a
      · subst hx
        have h3 : ¬ x = addr := by omega
        simp [h3]
      · simpa [hx] using ih'

/-- A write above the head's address leaves the head in its place. -/
theorem wf_cons_put {unlisted : Nat → Option Byte} {m : Memory} {a addr : Nat} {b byte : Byte}
    (h : Memory.wf unlisted ((a, b) :: m) = true) (hlt : a < addr)
    (hp : Memory.wf unlisted (Memory.put unlisted addr byte m) = true) :
    Memory.wf unlisted ((a, b) :: Memory.put unlisted addr byte m) = true := by
  simp only [Memory.wf, Bool.and_eq_true] at h ⊢
  refine ⟨⟨h.1.1, ?_⟩, hp⟩
  cases m with
  | nil => by_cases hu : unlisted addr = some byte <;> simp [Memory.put, hu, hlt]
  | cons c m =>
    obtain ⟨a', b'⟩ := c
    have ha : a < a' := by simpa using h.1.2
    have hgt := h.2
    simp only [Memory.put]
    split_ifs <;> simp_all
    all_goals
      cases m with
      | nil => simp
      | cons c m =>
        simp only [Memory.wf, Bool.and_eq_true, decide_eq_true_eq] at hgt
        simp only [decide_eq_true_eq]
        omega

/-- A write keeps the canonical form. -/
theorem wf_put {unlisted : Nat → Option Byte} {m : Memory} (h : Memory.wf unlisted m = true) (addr : Nat) (byte : Byte) :
    Memory.wf unlisted (Memory.put unlisted addr byte m) = true := by
  induction m with
  | nil => by_cases hu : unlisted addr = some byte <;> simp [Memory.put, Memory.wf, hu]
  | cons c m ih =>
    obtain ⟨a, b⟩ := c
    have ih' := ih (wf_tail h)
    rcases Nat.lt_trichotomy addr a with hlt | heq | hgt
    · by_cases hu : unlisted addr = some byte
      · simpa [Memory.put, hlt, hu] using h
      · simp only [Memory.put, if_pos hlt, if_neg hu]
        rw [Memory.wf]
        simp [hu, hlt, h]
    · subst heq
      by_cases hu : unlisted addr = some byte
      · simpa [Memory.put, hu] using wf_tail h
      · simp only [Memory.put, lt_irrefl, if_false, if_true, if_neg hu]
        simp only [Memory.wf, Bool.and_eq_true] at h ⊢
        exact ⟨⟨by simp [hu], h.1.2⟩, h.2⟩
    · have h1 : ¬ addr < a := by omega
      have h2 : ¬ addr = a := by omega
      simp only [Memory.put, if_neg h1, if_neg h2]
      exact wf_cons_put h hgt ih'

/-- A string of writes keeps the canonical form. -/
theorem wf_putBytes {unlisted : Nat → Option Byte} (bs : Bytes) {m : Memory} (h : Memory.wf unlisted m = true) (addr : Nat) :
    Memory.wf unlisted (Memory.putBytes unlisted addr bs m) = true := by
  induction bs generalizing addr m with
  | nil => exact h
  | cons b bs ih => exact ih (wf_put h addr b) (addr + 1)

/-- Reading after a string of writes. -/
theorem value_putBytes {unlisted : Nat → Option Byte} (bs : Bytes) {m : Memory} (h : Memory.wf unlisted m = true)
    (addr x : Nat) :
    Memory.value unlisted (Memory.putBytes unlisted addr bs m) x =
      if addr ≤ x ∧ x < addr + bs.length then some (bs.getD (x - addr) 0) else Memory.value unlisted m x := by
  induction bs generalizing addr m with
  | nil =>
    have : ¬ (addr ≤ x ∧ x < addr) := by omega
    simp [Memory.putBytes, this]
  | cons b bs ih =>
    rw [Memory.putBytes, ih (wf_put h addr b) (addr + 1), value_put h]
    by_cases hx : x = addr
    · subst hx
      simp
    · by_cases hr : addr + 1 ≤ x ∧ x < addr + 1 + bs.length
      · have h2 : addr ≤ x ∧ x < addr + (b :: bs).length := by simp only [List.length_cons]; omega
        have h3 : x - addr = x - (addr + 1) + 1 := by omega
        rw [if_pos hr, if_pos h2, h3, List.getD_cons_succ]
      · have h2 : ¬ (addr ≤ x ∧ x < addr + (b :: bs).length) := by simp only [List.length_cons]; omega
        rw [if_neg hr, if_neg h2, if_neg hx]

/-- A byte of DBUF as a value of the memory. -/
theorem dbufByte_eq (s : State) (x : Nat) :
    s.dbufByte x = (Memory.value dbufUnlisted s.dbuf x).getD (Config.unwrittenByte s.dbufEpoch x) := by
  unfold State.dbufByte Memory.value dbufUnlisted
  cases Memory.written s.dbuf x <;> rfl

/-- A byte of IDBUF as a value of the memory. -/
theorem idbufByte_eq (s : State) (x : Nat) : some (s.idbufByte x) = Memory.value idbufUnlisted s.idbuf x := by
  unfold State.idbufByte Memory.value idbufUnlisted
  cases Memory.written s.idbuf x <;> rfl

/-- Where an unlisted address has no value, a write is read back and leaves every other address, in any list. -/
theorem written_put_dbuf (m : Memory) (addr : Nat) (byte : Byte) (x : Nat) :
    Memory.written (Memory.put dbufUnlisted addr byte m) x = if x = addr then some byte else Memory.written m x := by
  induction m with
  | nil => simp [Memory.put, dbufUnlisted, Memory.written]
  | cons c m ih =>
    obtain ⟨a, b⟩ := c
    have hn : ¬ dbufUnlisted addr = some byte := by simp [dbufUnlisted]
    rcases Nat.lt_trichotomy addr a with hlt | heq | hgt
    · simp [Memory.put, hlt, hn, Memory.written]
    · subst heq
      by_cases hx : x = addr <;> simp [Memory.put, hn, Memory.written, hx]
    · have h1 : ¬ addr < a := by omega
      have h2 : ¬ addr = a := by omega
      simp only [Memory.put, if_neg h1, if_neg h2, Memory.written, ih]
      by_cases hx : x = a
      · have h3 : ¬ x = addr := by omega
        simp [hx, Ne.symm h2]
      · simp [hx]

/-- The bytes DBUF's list gives after a string of writes. -/
theorem written_putBytes_dbuf (bs : Bytes) (m : Memory) (addr x : Nat) :
    Memory.written (Memory.putBytes dbufUnlisted addr bs m) x =
      if addr ≤ x ∧ x < addr + bs.length then some (bs.getD (x - addr) 0) else Memory.written m x := by
  induction bs generalizing addr m with
  | nil =>
    have : ¬ (addr ≤ x ∧ x < addr) := by omega
    simp [Memory.putBytes, this]
  | cons b bs ih =>
    rw [Memory.putBytes, ih, written_put_dbuf]
    by_cases hx : x = addr
    · subst hx
      simp
    · by_cases hr : addr + 1 ≤ x ∧ x < addr + 1 + bs.length
      · have h2 : addr ≤ x ∧ x < addr + (b :: bs).length := by simp only [List.length_cons]; omega
        have h3 : x - addr = x - (addr + 1) + 1 := by omega
        rw [if_pos hr, if_pos h2, h3, List.getD_cons_succ]
      · have h2 : ¬ (addr ≤ x ∧ x < addr + (b :: bs).length) := by simp only [List.length_cons]; omega
        rw [if_neg hr, if_neg h2, if_neg hx]

/-- `MemWrite` then a read of one byte (R63): the byte of the string inside the region, the old byte outside. -/
theorem dbufByte_memWrite (s : State) (addr : Nat) (bs : Bytes) (x : Nat) :
    (s.memWrite addr bs).dbufByte x = if addr ≤ x ∧ x < addr + bs.length then bs.getD (x - addr) 0 else s.dbufByte x := by
  simp only [State.dbufByte, State.memWrite_dbuf, State.memWrite_dbufEpoch, written_putBytes_dbuf]
  split_ifs <;> rfl

@[simp] theorem memRead_length (s : State) (addr n : Nat) : (s.memRead addr n).length = n := by
  simp [State.memRead]

/-- `MemRead` after `MemWrite` of the same region gives the string written (R62, R63). -/
theorem memRead_memWrite (s : State) (addr : Nat) (bs : Bytes) : (s.memWrite addr bs).memRead addr bs.length = bs := by
  apply List.ext_getElem
  · simp
  · intro i h1 h2
    simp [State.memRead, dbufByte_memWrite, List.getD_eq_getElem?_getD, h2]

/-- Reset memory is canonical. -/
theorem reset_memory_wf : Memory.wf dbufUnlisted State.reset.dbuf = true ∧ Memory.wf idbufUnlisted State.reset.idbuf = true :=
  ⟨rfl, rfl⟩

end Sys2Proof.Machine
end

