-- ==== Sys2Proof/Laws/Ops.lean ====
section
/-! SUPPORT. What each shared operation can do, said once: the end of a command, the retry loop, the operand checks. -/

namespace Sys2Proof.Machine

/-- A command that draws no RNG word completes or faults, and answers a next state either way. -/
theorem finish_cases (s : State) (r : Except FaultCode State) :
    (∃ s', r = .ok s' ∧ s.finish r = .next s'.complete) ∨ (∃ c, r = .error c ∧ s.finish r = .next (s.raise c)) := by
  cases r with
  | ok s' => exact .inl ⟨s', rfl, rfl⟩
  | error c => exact .inr ⟨c, rfl, rfl⟩

@[simp] theorem finish_ok (s s' : State) : s.finish (.ok s') = .next s'.complete := rfl
@[simp] theorem finish_error (s : State) (c : FaultCode) : s.finish (.error c) = .next (s.raise c) := rfl

theorem checkRange_ok {α : Type} {bufsz addr n : Nat} {k : FaultCode} {rest : Except FaultCode α} {x : α} :
    checkRange bufsz addr n k rest = .ok x ↔ addr + n ≤ bufsz ∧ rest = .ok x := by
  unfold checkRange
  by_cases h : addr + n > bufsz
  · simp [h]
  · simp [h, Nat.le_of_not_lt h]

theorem checkRange_in {α : Type} {bufsz addr n : Nat} (k : FaultCode) (rest : Except FaultCode α) (h : addr + n ≤ bufsz) :
    checkRange bufsz addr n k rest = rest := if_neg (Nat.not_lt.mpr h)

theorem checkRange_out {α : Type} {bufsz addr n : Nat} (k : FaultCode) (rest : Except FaultCode α) (h : bufsz < addr + n) :
    checkRange bufsz addr n k rest = .error k := if_pos h

theorem checkPoint_ok {α : Type} {v : Point} {rest : Except FaultCode α} {x : α} :
    checkPoint v rest = .ok x ↔ onCurve v = true ∧ rest = .ok x := by
  unfold checkPoint
  cases v with
  | inf => simp [onCurve]
  | affine x y => by_cases h : onCurve (.affine x y) = true <;> simp [h]

theorem checkPoint_on {α : Type} {v : Point} (rest : Except FaultCode α) (h : onCurve v = true) :
    checkPoint v rest = rest := by simp [checkPoint, h]

theorem checkPoint_off {α : Type} {v : Point} (rest : Except FaultCode α) (h : onCurve v = false) :
    checkPoint v rest = .error .offCurve := by
  cases v with
  | inf => simp [onCurve] at h
  | affine x y => simp [checkPoint, h]

theorem checkFinite_ok {α : Type} {v : Point} {rest : Except FaultCode α} {x : α} :
    checkFinite v rest = .ok x ↔ v ≠ .inf ∧ onCurve v = true ∧ rest = .ok x := by
  unfold checkFinite
  cases v with
  | inf => simp
  | affine x y => by_cases h : onCurve (.affine x y) = true <;> simp [h]

theorem checkFinite_on {α : Type} {v : Point} (rest : Except FaultCode α) (h1 : v ≠ .inf) (h2 : onCurve v = true) :
    checkFinite v rest = rest := by simp [checkFinite, h1, h2]

theorem checkScalar_ok {α : Type} {k : Nat} {rest : Except FaultCode α} {x : α} :
    checkScalar k rest = .ok x ↔ 1 ≤ k ∧ k < Config.n ∧ rest = .ok x := by
  unfold checkScalar
  by_cases h : k = 0 ∨ k ≥ Config.n
  · rw [if_pos h]
    constructor
    · intro e; cases e
    · rintro ⟨h1, h2, -⟩; omega
  · rw [if_neg h]
    constructor
    · intro e; exact ⟨by omega, by omega, e⟩
    · exact fun e => e.2.2

theorem checkScalar_in {α : Type} {k : Nat} (rest : Except FaultCode α) (h1 : 1 ≤ k) (h2 : k < Config.n) :
    checkScalar k rest = rest := if_neg (by omega)

/-- When a range check ends in a fault: its own, or the one of the rest. -/
theorem checkRange_error {α : Type} {bufsz addr n : Nat} {k c : FaultCode} {rest : Except FaultCode α} :
    checkRange bufsz addr n k rest = .error c ↔ (bufsz < addr + n ∧ k = c) ∨ (addr + n ≤ bufsz ∧ rest = .error c) := by
  unfold checkRange
  by_cases h : addr + n > bufsz
  · rw [if_pos h]; constructor
    · intro e; injection e with e; exact .inl ⟨h, e⟩
    · rintro (⟨_, e⟩ | ⟨h', _⟩)
      · rw [e]
      · omega
  · rw [if_neg h]; constructor
    · intro e; exact .inr ⟨by omega, e⟩
    · rintro (⟨h', _⟩ | ⟨_, e⟩)
      · omega
      · exact e

/-- When the check of a point ends in a fault. -/
theorem checkPoint_error {α : Type} {v : Point} {c : FaultCode} {rest : Except FaultCode α} :
    checkPoint v rest = .error c ↔ (onCurve v = false ∧ c = .offCurve) ∨ (onCurve v = true ∧ rest = .error c) := by
  cases h : onCurve v with
  | true => simp [checkPoint_on rest h]
  | false => simp [checkPoint_off rest h, eq_comm]

/-- When the check of a finite point ends in a fault. -/
theorem checkFinite_error {α : Type} {v : Point} {c : FaultCode} {rest : Except FaultCode α} :
    checkFinite v rest = .error c ↔ (v = .inf ∧ c = .infinity) ∨ (v ≠ .inf ∧ onCurve v = false ∧ c = .offCurve) ∨ (v ≠ .inf ∧ onCurve v = true ∧ rest = .error c) := by
  unfold checkFinite
  by_cases hv : v = .inf
  · simp only [hv, if_true, Except.error.injEq, true_and, ne_eq, not_true_eq_false, false_and, or_false]; exact eq_comm
  · cases h : onCurve v <;> simp [hv]
    exact eq_comm

/-- When the check of a scalar ends in a fault. -/
theorem checkScalar_error {α : Type} {k : Nat} {c : FaultCode} {rest : Except FaultCode α} :
    checkScalar k rest = .error c ↔ ((k = 0 ∨ Config.n ≤ k) ∧ c = .scalarRange) ∨ (1 ≤ k ∧ k < Config.n ∧ rest = .error c) := by
  unfold checkScalar
  by_cases h : k = 0 ∨ k ≥ Config.n
  · rw [if_pos h]
    constructor
    · intro e; injection e with e; exact .inl ⟨by omega, e.symm⟩
    · rintro (⟨_, h⟩ | ⟨h1, h2, _⟩)
      · rw [h]
      · omega
  · rw [if_neg h]
    constructor
    · intro e; exact .inr ⟨by omega, by omega, e⟩
    · rintro (⟨h', _⟩ | ⟨h1, h2, e⟩)
      · omega
      · exact e

theorem Rng.skip_succ (g : Rng) (n : Nat) : g.skip (n + 1) = (g.skip n).draw.2 := by
  induction n generalizing g with
  | zero => rfl
  | succ n ih => exact ih g.draw.2

/-- The number of words drawn. -/
theorem Rng.skip_drawn (g : Rng) (n : Nat) : (g.skip n).drawn = g.drawn + n := by
  induction n with
  | zero => rfl
  | succ n ih =>
    rw [Rng.skip_succ]
    unfold Rng.draw
    split <;> simp [ih] <;> omega

/-- The words a state names are drawn in order. -/
theorem Rng.word_append (pre rest : List Word256) (w : Word256) (d : Nat) :
    Rng.word { words := pre ++ w :: rest, drawn := d } pre.length = w ∧
      Rng.skip { words := pre ++ w :: rest, drawn := d } (pre.length + 1) = { words := rest, drawn := d + pre.length + 1 } := by
  induction pre generalizing d with
  | nil => exact ⟨rfl, rfl⟩
  | cons x xs ih =>
    obtain ⟨h1, h2⟩ := ih (d + 1)
    refine ⟨h1, ?_⟩
    have e : Rng.skip { words := x :: xs ++ w :: rest, drawn := d } ((x :: xs).length + 1) =
        Rng.skip { words := xs ++ w :: rest, drawn := d + 1 } (xs.length + 1) := rfl
    rw [e, h2, List.length_cons]
    congr 1
    omega

/-- Everything the retry loop can do (R190, R201): succeed at iteration `j` after `j` failures, having drawn `j + 1` words, or
fail `bound` times, having drawn `bound` words. -/
theorem retryLoop_cases {α : Type} (attempt : Word256 → Option α) (bound : Nat) (g : Rng) :
    (∃ j out, j < bound ∧ (∀ i < j, attempt (g.word i) = none) ∧ attempt (g.word j) = some out ∧
        retryLoop attempt bound g = (some out, g.skip (j + 1))) ∨
      ((∀ i < bound, attempt (g.word i) = none) ∧ retryLoop attempt bound g = (none, g.skip bound)) := by
  induction bound generalizing g with
  | zero => exact .inr ⟨fun i h => absurd h (Nat.not_lt_zero i), rfl⟩
  | succ bound ih =>
    cases hw : attempt g.draw.1 with
    | some out =>
      refine .inl ⟨0, out, Nat.succ_pos _, fun i h => absurd h (Nat.not_lt_zero i), hw, ?_⟩
      simp [retryLoop, hw, Rng.skip]
    | none =>
      have e : retryLoop attempt (bound + 1) g = retryLoop attempt bound g.draw.2 := by simp [retryLoop, hw]
      rcases ih g.draw.2 with ⟨j, out, hj, hf, hs, hr⟩ | ⟨hf, hr⟩
      · refine .inl ⟨j + 1, out, Nat.succ_lt_succ hj, ?_, hs, e.trans hr⟩
        intro i hi
        cases i with
        | zero => exact hw
        | succ i => exact hf i (Nat.lt_of_succ_lt_succ hi)
      · refine .inr ⟨?_, e.trans hr⟩
        intro i hi
        cases i with
        | zero => exact hw
        | succ i => exact hf i (Nat.lt_of_succ_lt_succ hi)

end Sys2Proof.Machine
end

