-- ==== Sys2Proof/Laws/Ends.lean ====
section
/-! SUPPORT. How a command ends, said once: what holds after a completion (R280) with each kind of write, and after a fault
(R236). -/

namespace Sys2Proof.Machine

theorem State.Kept.refl (w : Writes) (s : State) : State.Kept w s s where
  r _ _ := rfl
  p _ _ := rfl
  a _ _ := rfl
  dbuf _ _ := rfl
  idbuf := rfl
  idlen := rfl
  t _ := rfl
  rng _ := rfl
  cfg := rfl
  ien := rfl
  cmd := rfl
  params := rfl
  dbufEpoch := rfl
  inputs := rfl
  readData := rfl

/-- What is kept outside `w` is kept by the other three writes of a completion. -/
theorem State.Kept.complete {w : Writes} {s s' : State} (k : State.Kept w s s') (hc : s'.cmdcnt = s.cmdcnt)
    (hi : s'.istat = s.istat) (he : s'.err = s.err) (h1 : s'.errcode = s.errcode) (h2 : s'.errcmd = s.errcmd) :
    State.Completed w s s'.complete where
  r := k.r
  p := k.p
  a := k.a
  dbuf := k.dbuf
  idbuf := k.idbuf
  idlen := k.idlen
  t := k.t
  rng := k.rng
  cfg := k.cfg
  ien := k.ien
  cmd := k.cmd
  params := k.params
  dbufEpoch := k.dbufEpoch
  inputs := k.inputs
  readData := k.readData
  cmdcnt := congrArg (· + 1) hc
  istat := by simp [hi]
  busy := rfl
  err := he
  errcode := h1
  errcmd := h2

/-- A fault before any word is drawn (R236). -/
theorem faulted_raise (w : Writes) (s : State) (c : FaultCode) : State.Faulted w c s (s.raise c) where
  toKept := { State.Kept.refl w s with }
  errcode := rfl
  errcmd := rfl
  err := rfl
  istat := rfl
  busy := rfl
  cmdcnt := rfl

/-- A fault after words were drawn (R236, R237). -/
theorem faulted_raise_rng (s : State) (g : Rng) (c : FaultCode) :
    State.Faulted { rng := true } c s ((s.withRng g).raise c) where
  toKept := { State.Kept.refl { rng := true } s with rng := fun h => Bool.noConfusion h }
  errcode := rfl
  errcmd := rfl
  err := rfl
  istat := rfl
  busy := rfl
  cmdcnt := rfl

theorem completed_nothing (s : State) : State.Completed {} s s.complete :=
  (State.Kept.refl {} s).complete rfl rfl rfl rfl rfl

theorem completed_writeR (s : State) (i : RegIdx) (v : Word256) : State.Completed { r := [i] } s (s.writeR i v).complete :=
  State.Kept.complete
    { State.Kept.refl { r := [i] } s with r := fun j hj => regGet_regSet_other s.r v (fun e => hj (by simp [e])) }
    rfl rfl rfl rfl rfl

theorem completed_writeR_writeR (s : State) (i j : RegIdx) (v w : Word256) :
    State.Completed { r := [i, j] } s ((s.writeR i v).writeR j w).complete :=
  State.Kept.complete
    { State.Kept.refl { r := [i, j] } s with
      r := fun k hk => by
        simp only [List.mem_cons, List.not_mem_nil, or_false, not_or] at hk
        exact (regGet_regSet_other (s.writeR i v).r w hk.2).trans (regGet_regSet_other s.r v hk.1) }
    rfl rfl rfl rfl rfl

theorem completed_writeA (s : State) (i : RegIdx) (v : Word) : State.Completed { a := [i] } s (s.writeA i v).complete :=
  State.Kept.complete
    { State.Kept.refl { a := [i] } s with a := fun j hj => regGet_regSet_other s.a v (fun e => hj (by simp [e])) }
    rfl rfl rfl rfl rfl

theorem completed_writeP (s : State) (i : RegIdx) (v : PointReg) : State.Completed { p := [i] } s (s.writeP i v).complete :=
  State.Kept.complete
    { State.Kept.refl { p := [i] } s with p := fun j hj => regGet_regSet_other s.p v (fun e => hj (by simp [e])) }
    rfl rfl rfl rfl rfl

theorem completed_writeT (s : State) (v : Bool) : State.Completed { t := true } s (s.writeT v).complete :=
  State.Kept.complete { State.Kept.refl { t := true } s with t := fun h => Bool.noConfusion h } rfl rfl rfl rfl rfl

/-- Every byte outside a region is as before a write to the region (R63). -/
theorem dbufByte_memWrite_outside (s : State) (addr : Nat) (bs : Bytes) {x : Nat} (h : ¬(addr ≤ x ∧ x < addr + bs.length)) :
    (s.memWrite addr bs).dbufByte x = s.dbufByte x := by rw [dbufByte_memWrite, if_neg h]

theorem completed_memWrite (s : State) (addr : Nat) (bs : Bytes) {n : Nat} (hn : bs.length = n) :
    State.Completed { dbuf := (addr, n) } s (s.memWrite addr bs).complete :=
  State.Kept.complete
    { State.Kept.refl { dbuf := (addr, n) } s with
      dbuf := fun x hx => dbufByte_memWrite_outside s addr bs (by subst hn; exact hx) }
    rfl rfl rfl rfl rfl

theorem completed_memWrite_writeA (s : State) (addr : Nat) (bs : Bytes) {n : Nat} (hn : bs.length ≤ n) (i : RegIdx) (v : Word) :
    State.Completed { a := [i], dbuf := (addr, n) } s ((s.memWrite addr bs).writeA i v).complete :=
  State.Kept.complete
    { State.Kept.refl { a := [i], dbuf := (addr, n) } s with
      dbuf := fun x hx => dbufByte_memWrite_outside s addr bs (fun h => hx ⟨h.1, lt_of_lt_of_le h.2 (Nat.add_le_add_left hn _)⟩)
      a := fun j hj => regGet_regSet_other s.a v (fun e => hj (by simp [e])) }
    rfl rfl rfl rfl rfl

theorem completed_memWrite_writeA_rng (s : State) (g : Rng) (addr : Nat) (bs : Bytes) {n : Nat} (hn : bs.length ≤ n) (i : RegIdx)
    (v : Word) :
    State.Completed { a := [i], dbuf := (addr, n), rng := true } s (((s.withRng g).memWrite addr bs).writeA i v).complete :=
  State.Kept.complete
    { State.Kept.refl { a := [i], dbuf := (addr, n), rng := true } s with
      dbuf := fun x hx => dbufByte_memWrite_outside (s.withRng g) addr bs
        (fun h => hx ⟨h.1, lt_of_lt_of_le h.2 (Nat.add_le_add_left hn _)⟩)
      a := fun j hj => regGet_regSet_other s.a v (fun e => hj (by simp [e]))
      rng := fun h => Bool.noConfusion h }
    rfl rfl rfl rfl rfl

/-- The bytes just written are read back, whatever register the command wrote after them (R62, R63). -/
theorem memRead_complete_writeA_memWrite (s : State) (addr : Nat) (bs : Bytes) (i : RegIdx) (v : Word) :
    (((s.memWrite addr bs).writeA i v).complete).memRead addr bs.length = bs := memRead_memWrite s addr bs

end Sys2Proof.Machine
end

