-- ==== Sys2Proof/Laws/ModArith.lean ====
section
/-! SUPPORT. The modular arithmetic: the difference of R143 is the mathematical remainder of R9, the inverse of R11 inverts, the
power of R171 is the power. -/

namespace Sys2Proof.Machine

theorem subMod_lt {x y m : Nat} (h : 0 < m) : subMod x y m < m := Nat.mod_lt _ h

/-- `(x - y) mod m` is the remainder of the integer difference (R9). -/
theorem subMod_eq_int {m : Nat} (x y : Nat) (h : 0 < m) : ((subMod x y m : Nat) : Int) = ((x : Int) - y) % m := by
  unfold subMod
  have hy : y % m ≤ m := Nat.le_of_lt (Nat.mod_lt _ h)
  push_cast [Nat.cast_sub hy]
  have e : (x : Int) + (m - (y : Int) % m) = (x - y) + m * (1 + y / m) := by
    have := Int.mul_ediv_add_emod (y : Int) m
    linarith
  rw [e, Int.add_mul_emod_self_left]

theorem subMod_cast {m : Nat} (x y : Nat) (h : 0 < m) : ((subMod x y m : Nat) : ZMod m) = (x : ZMod m) - y := by
  have e : (((subMod x y m : Nat) : Int) : ZMod m) = ((((x : Int) - y) % m : Int) : ZMod m) := by rw [subMod_eq_int x y h]
  rw [ZMod.intCast_mod] at e
  simpa using e

/-- The pairs of the extended Euclidean iteration: each coefficient times `v` is its remainder modulo `m`. With enough fuel the
result times `v` is the greatest common divisor. -/
theorem invLoop_spec (m v : Nat) (hm : 0 < m) :
    ∀ fuel r0 r1 t0 t1 : Nat, (t0 * v : ZMod m) = r0 → (t1 * v : ZMod m) = r1 → r1 < r0 → r0 * r1 < 2 ^ fuel → 
      ((invLoop m (fuel + 1) r0 r1 t0 t1 : Nat) * v : ZMod m) = (Nat.gcd r0 r1 : Nat) := by
  intro fuel
  induction fuel with
  | zero =>
    intro r0 r1 t0 t1 h0 _ hlt hf
    have hr : r1 = 0 := by
      rcases Nat.eq_zero_or_pos r1 with h | h
      · exact h
      · have := Nat.mul_pos (Nat.lt_trans h hlt) h
        omega
    subst hr
    simpa [invLoop] using h0
  | succ fuel ih =>
    intro r0 r1 t0 t1 h0 h1 hlt hf
    by_cases hr : r1 = 0
    · subst hr
      simpa [invLoop] using h0
    · have hpos : 0 < r1 := Nat.pos_of_ne_zero hr
      rw [invLoop, if_neg hr]
      have hq : 1 ≤ r0 / r1 := Nat.div_pos (Nat.le_of_lt hlt) hpos
      have hmod : r0 % r1 < r1 := Nat.mod_lt _ hpos
      have hsplit : r1 * (r0 / r1) + r0 % r1 = r0 := Nat.div_add_mod r0 r1
      have key : r1 * (r0 % r1) < 2 ^ fuel := by
        have h2 : 2 * (r0 % r1) < r0 := by nlinarith
        have h3 : 2 * (r1 * (r0 % r1)) < r0 * r1 := by nlinarith
        rw [pow_succ] at hf
        omega
      have hnew : ((subMod t0 (r0 / r1 * t1) m : Nat) * v : ZMod m) = (r0 % r1 : Nat) := by
        rw [subMod_cast _ _ hm]
        have hz : (r0 : ZMod m) = r1 * (r0 / r1 : Nat) + (r0 % r1 : Nat) := by
          rw [← Nat.cast_mul, ← Nat.cast_add, hsplit]
        push_cast at hz ⊢
        linear_combination h0 - ((r0 / r1 : Nat) : ZMod m) * h1 + hz
      rw [ih r1 (r0 % r1) t1 _ h1 hnew hmod key, Nat.gcd_comm r1, ← Nat.gcd_rec, Nat.gcd_comm]

/-- `inv(v, M)` times `v` is 1 modulo `M` (R11), for every `v` prime to `M`. -/
theorem inv_mul_cast {v m : Nat} (hm : 1 < m) (hc : Nat.Coprime v m) : ((inv v m : Nat) * v : ZMod m) = 1 := by
  have h0 : 0 < m := by omega
  have hv : v % m < m := Nat.mod_lt _ h0
  have hlog : m < 2 ^ (m.log2 + 1) := Nat.lt_log2_self
  have hbound : m * (v % m) < 2 ^ (2 * m.log2 + 3) := by
    have h2 : m * (v % m) < m * m := Nat.mul_lt_mul_of_pos_left hv h0
    have h3 : m * m < 2 ^ (m.log2 + 1) * 2 ^ (m.log2 + 1) := Nat.mul_lt_mul'' hlog hlog
    rw [← pow_add] at h3
    have h4 : 2 ^ (m.log2 + 1 + (m.log2 + 1)) ≤ 2 ^ (2 * m.log2 + 3) := Nat.pow_le_pow_right (by norm_num) (by omega)
    omega
  have h := invLoop_spec m v h0 (2 * m.log2 + 3) m (v % m) 0 (1 % m) (by simp) (by simp) hv hbound
  rw [inv, h]
  have hg : Nat.gcd m (v % m) = 1 := by
    rw [Nat.gcd_comm, ← Nat.gcd_rec, Nat.gcd_comm]
    exact hc
  rw [hg]
  simp

theorem inv_mul_mod {v m : Nat} (hm : 1 < m) (hc : Nat.Coprime v m) : inv v m * v % m = 1 := by
  have h := inv_mul_cast hm hc
  rw [← Nat.cast_mul, ← Nat.cast_one, ZMod.natCast_eq_natCast_iff] at h
  rw [h, Nat.mod_eq_of_lt hm]

theorem powModAux_spec (v m fuel : Nat) : ∀ e < 2 ^ fuel, powModAux v m fuel e = v ^ e % m := by
  induction fuel with
  | zero =>
    intro e he
    have : e = 0 := by simpa using he
    simp [powModAux, this]
  | succ fuel ih =>
    intro e he
    have hlt : e / 2 < 2 ^ fuel := by rw [pow_succ] at he; omega
    have hs := ih (e / 2) hlt
    have hsq : v ^ (e / 2) % m * (v ^ (e / 2) % m) % m = v ^ (e / 2 + e / 2) % m := by
      rw [← Nat.mul_mod, ← pow_add]
    simp only [powModAux, hs]
    by_cases hb : e % 2 = 1
    · have he' : e = e / 2 + e / 2 + 1 := by omega
      rw [if_pos hb, hsq]
      conv_rhs => rw [he', pow_succ, Nat.mul_mod]
      rw [Nat.mul_mod, Nat.mod_mod]
    · have he' : e = e / 2 + e / 2 := by omega
      rw [if_neg hb, hsq, ← he']

/-- `v^e mod m` (R171). -/
theorem powMod_eq (v m : Nat) {e : Nat} (he : e < 2 ^ 256) : powMod v e m = v ^ e % m := by
  rw [powMod, powModAux_spec _ _ _ e he, ← Nat.pow_mod]

end Sys2Proof.Machine
end

