-- ==== Sys2Proof/Laws/Prime.lean ====
section
/-! SUPPORT. The field prime p of R6 is prime (R11 says so from general knowledge): the factors of p + 1 are known, and an
element of order p + 1 in the ring of pairs with a square root of -1 modulo a divisor q of p leaves no room for q² ≤ p. -/

namespace Sys2Proof.Machine

/-- The product of two pairs `u.1 + u.2 * i` modulo `m`, with `i² = -1`. -/
def pairMul (m : Nat) (u v : Nat × Nat) : Nat × Nat :=
  ((u.1 * v.1 + (m - 1) * (u.2 * v.2)) % m, (u.1 * v.2 + u.2 * v.1) % m)

/-- The power of a pair, for exponents below `2^fuel`. -/
def pairPow (m : Nat) (u : Nat × Nat) : Nat → Nat → Nat × Nat
  | 0, _ => (1, 0)
  | fuel + 1, e =>
    if e % 2 = 1 then pairMul m (pairMul m (pairPow m u fuel (e / 2)) (pairPow m u fuel (e / 2))) u
    else pairMul m (pairPow m u fuel (e / 2)) (pairPow m u fuel (e / 2))

/-- A pair as an element of the ring modulo `q`. -/
def pairCast (q : Nat) (u : Nat × Nat) : QuadraticAlgebra (ZMod q) (-1) 0 := ⟨u.1, u.2⟩

theorem pairCast_mul {m q : Nat} (hm : 0 < m) (hq : q ∣ m) (u v : Nat × Nat) :
    pairCast q (pairMul m u v) = pairCast q u * pairCast q v := by
  have h0 : ((m : Nat) : ZMod q) = 0 := (ZMod.natCast_eq_zero_iff m q).mpr hq
  have hmod : ∀ x : Nat, ((x % m : Nat) : ZMod q) = x := by
    intro x
    rw [ZMod.natCast_eq_natCast_iff]
    exact (Nat.mod_modEq x m).of_dvd hq
  have h1 : ((m - 1 : Nat) : ZMod q) = -1 := by rw [Nat.cast_sub (by omega), h0]; simp
  ext
  · simp only [pairCast, pairMul, hmod, QuadraticAlgebra.re_mul]
    push_cast
    rw [h1, mul_assoc]
  · simp only [pairCast, pairMul, hmod, QuadraticAlgebra.im_mul]
    push_cast
    ring

theorem pairCast_pow {m q : Nat} (hm : 0 < m) (hq : q ∣ m) (u : Nat × Nat) (fuel : Nat) :
    ∀ e < 2 ^ fuel, pairCast q (pairPow m u fuel e) = pairCast q u ^ e := by
  induction fuel with
  | zero =>
    intro e he
    have : e = 0 := by simpa using he
    subst this
    ext
    · simp [pairCast, pairPow, QuadraticAlgebra.re_one]
    · simp [pairCast, pairPow, QuadraticAlgebra.im_one]
  | succ fuel ih =>
    intro e he
    have hs := ih (e / 2) (by rw [pow_succ] at he; omega)
    by_cases hb : e % 2 = 1
    · have he' : e = e / 2 + e / 2 + 1 := by omega
      rw [pairPow, if_pos hb, pairCast_mul hm hq, pairCast_mul hm hq, hs, ← pow_add, ← pow_succ, ← he']
    · have he' : e = e / 2 + e / 2 := by omega
      rw [pairPow, if_neg hb, pairCast_mul hm hq, hs, ← pow_add, ← he']

/-- The element of order p + 1. -/
def primeWitness : Nat × Nat :=
  (0xb3e453063759f22983759f22983759f22983759e6eb3e453bacf914c1bacf915,
   0xc8a60dd5b3e45306eb3e45306eb3e45306eb3e4467c8a60e9f22983759f22983)

/-- The prime factors of p + 1. -/
def primeFactors : List Nat := [2, 3, 5, 11, 17, 31, 41, 257, 61681, 65537, 414721, 4278255361, 44479210368001]

theorem primeWitness_pow : pairPow Config.p primeWitness 257 (Config.p + 1) = (1, 0) := by decide +kernel

/-- A pair that differs from 1 modulo every divisor of `m`. -/
def farFromOne (m : Nat) (u : Nat × Nat) : Bool := Nat.gcd u.2 m == 1 || Nat.gcd (u.1 + (m - 1)) m == 1

theorem pairCast_ne_one {m q : Nat} (hm : 0 < m) (hq : q ∣ m) (h1 : q ≠ 1) {u : Nat × Nat} (h : farFromOne m u = true) :
    pairCast q u ≠ 1 := by
  intro e
  have hdvd : ∀ x : Nat, (x : ZMod q) = 0 → Nat.gcd x m = 1 → False := by
    intro x hx hg
    have hd : q ∣ x := (ZMod.natCast_eq_zero_iff x q).mp hx
    exact h1 (Nat.dvd_one.mp (hg ▸ Nat.dvd_gcd hd hq))
  have hre : (u.1 : ZMod q) = 1 := congrArg QuadraticAlgebra.re e
  have him : (u.2 : ZMod q) = 0 := congrArg QuadraticAlgebra.im e
  simp only [farFromOne, Bool.or_eq_true, beq_iff_eq] at h
  rcases h with h | h
  · exact hdvd u.2 him h
  · refine hdvd (u.1 + (m - 1)) ?_ h
    have h0 : ((m : Nat) : ZMod q) = 0 := (ZMod.natCast_eq_zero_iff m q).mpr hq
    rw [Nat.cast_add, Nat.cast_sub (by omega), h0, hre]
    simp

theorem primeWitness_pow_div :
    (primeFactors.all fun r => farFromOne Config.p (pairPow Config.p primeWitness 257 ((Config.p + 1) / r))) = true := by
  decide +kernel

/-- Lucas's criterion, with the powers computed modulo `m`. -/
theorem prime_of_powers {m : Nat} (g : Nat) (fs : List Nat) (hm : 1 < m) (hbig : m < 2 ^ 256) (hp : powMod g (m - 1) m = 1)
    (hfs : ∀ r : Nat, r.Prime → r ∣ m - 1 → r ∈ fs) (hne : ∀ r ∈ fs, powMod g ((m - 1) / r) m ≠ 1) : m.Prime := by
  have cast_pow : ∀ e < 2 ^ 256, (g : ZMod m) ^ e = (powMod g e m : Nat) := by
    intro e he
    rw [powMod_eq g m he, ZMod.natCast_mod, Nat.cast_pow]
  apply lucas_primality m (g : ZMod m)
  · rw [cast_pow _ (by omega), hp, Nat.cast_one]
  · intro r hr hd
    rw [cast_pow _ (lt_of_le_of_lt (Nat.div_le_self _ _) (by omega))]
    intro e
    have hlt : (m - 1) / r < 2 ^ 256 := lt_of_le_of_lt (Nat.div_le_self _ _) (by omega)
    have e' : ((powMod g ((m - 1) / r) m : Nat) : ZMod m) = ((1 : Nat) : ZMod m) := by rw [e, Nat.cast_one]
    rw [ZMod.natCast_eq_natCast_iff, Nat.ModEq, Nat.mod_eq_of_lt hm, powMod_eq g m hlt, Nat.mod_mod,
      ← powMod_eq g m hlt] at e'
    exact hne r (hfs r hr hd) e'

/-- The prime divisors of a product of powers stand among its bases, where the bases are prime. -/
theorem mem_of_dvd_prod {r : Nat} (hr : r.Prime) (fs : List (Nat × Nat)) (hfs : ∀ f ∈ fs, f.1.Prime)
    (hd : r ∣ (fs.map fun f => f.1 ^ f.2).prod) : r ∈ fs.map Prod.fst := by
  induction fs with
  | nil => simp at hd; exact absurd hd hr.one_lt.ne'
  | cons f fs ih =>
    simp only [List.map_cons, List.prod_cons] at hd
    rcases (Nat.Prime.dvd_mul hr).mp hd with h | h
    · have := (Nat.prime_dvd_prime_iff_eq hr (hfs f (by simp))).mp (hr.dvd_of_dvd_pow h)
      simp [this]
    · exact List.mem_cons_of_mem _ (ih (fun g hg => hfs g (List.mem_cons_of_mem _ hg)) h)

theorem prime_4278255361 : Nat.Prime 4278255361 := by
  refine prime_of_powers 23 [2, 3, 5, 17, 65537] (by norm_num) (by norm_num) (by decide +kernel) ?_ (by decide +kernel)
  intro r hr hd
  have h : r ∣ ([(2, 8), (3, 1), (5, 1), (17, 1), (65537, 1)].map fun f : Nat × Nat => f.1 ^ f.2).prod := by norm_num at hd ⊢; exact hd
  exact mem_of_dvd_prod hr _ (by norm_num) h

theorem prime_6096383 : Nat.Prime 6096383 := by norm_num

theorem prime_44479210368001 : Nat.Prime 44479210368001 := by
  refine prime_of_powers 13 [2, 3, 5, 19, 6096383] (by norm_num) (by norm_num) (by decide +kernel) ?_ (by decide +kernel)
  intro r hr hd
  have h : r ∣ ([(2, 10), (3, 1), (5, 3), (19, 1), (6096383, 1)].map fun f : Nat × Nat => f.1 ^ f.2).prod := by
    norm_num at hd ⊢; exact hd
  exact mem_of_dvd_prod hr _ (by norm_num) h

/-- The prime divisors of p + 1 are the listed ones. -/
theorem mem_primeFactors {r : Nat} (hr : r.Prime) (hd : r ∣ Config.p + 1) : r ∈ primeFactors := by
  have e : Config.p + 1 = ([(2, 64), (3, 2), (5, 3), (11, 1), (17, 2), (31, 1), (41, 1), (257, 2), (61681, 1), (65537, 2),
      (414721, 1), (4278255361, 1), (44479210368001, 1)].map fun f : Nat × Nat => f.1 ^ f.2).prod := by decide +kernel
  rw [e] at hd
  refine mem_of_dvd_prod hr _ ?_ hd
  have h1 := prime_4278255361
  have h2 := prime_44479210368001
  simp only [List.mem_cons, List.not_mem_nil, or_false, forall_eq_or_imp, forall_eq]
  refine ⟨?_, ?_, ?_, ?_, ?_, ?_, ?_, ?_, ?_, ?_, ?_, h1, h2⟩ <;> norm_num

/-- The field prime is prime. -/
theorem p_prime : Nat.Prime Config.p := by
  have hp : 0 < Config.p := by decide +kernel
  by_contra hnot
  obtain ⟨q, hq⟩ : ∃ q, q = Config.p.minFac := ⟨_, rfl⟩
  have hne : Config.p ≠ 1 := by decide +kernel
  have hdvd : q ∣ Config.p := hq ▸ Nat.minFac_dvd _
  have hqp : q.Prime := hq ▸ Nat.minFac_prime hne
  have hsq : q ^ 2 ≤ Config.p := by
    rw [hq]
    exact Nat.minFac_sq_le_self hp hnot
  have : NeZero q := ⟨hqp.ne_zero⟩
  obtain ⟨x, hx⟩ : ∃ x, x = pairCast q primeWitness := ⟨_, rfl⟩
  have hbig : Config.p + 1 < 2 ^ 257 := by decide +kernel
  have hpow : x ^ (Config.p + 1) = 1 := by
    rw [hx, ← pairCast_pow hp hdvd primeWitness 257 _ hbig, primeWitness_pow]
    ext
    · simp [pairCast, QuadraticAlgebra.re_one]
    · simp [pairCast, QuadraticAlgebra.im_one]
  have hdiv : ∀ r : Nat, r.Prime → r ∣ Config.p + 1 → x ^ ((Config.p + 1) / r) ≠ 1 := by
    intro r hr hd
    rw [hx, ← pairCast_pow hp hdvd primeWitness 257 _ (lt_of_le_of_lt (Nat.div_le_self _ _) hbig)]
    exact pairCast_ne_one hp hdvd hqp.ne_one (List.all_eq_true.mp primeWitness_pow_div r (mem_primeFactors hr hd))
  have hord : orderOf x = Config.p + 1 := orderOf_eq_of_pow_and_pow_div_prime (Nat.succ_pos _) hpow hdiv
  have hcard : orderOf x ≤ q ^ 2 := by
    have hinj : Function.Injective fun i : Fin (orderOf x) => QuadraticAlgebra.equivProd (-1 : ZMod q) 0 (x ^ (i : Nat)) := by
      intro i j e
      have e' := (QuadraticAlgebra.equivProd (-1 : ZMod q) 0).injective e
      exact Fin.ext (pow_injOn_Iio_orderOf i.isLt j.isLt e')
    have := Fintype.card_le_of_injective _ hinj
    simpa [Fintype.card_prod, ZMod.card, sq] using this
  omega

end Sys2Proof.Machine
end

