-- ==== Sys2Proof/Laws/Codec.lean ====
section
/-! SUPPORT. The point codec (R170, R171, R174): lengths, faults, and the square root of a residue modulo p. -/

namespace Sys2Proof.Machine

theorem constValue_none {cid : BitVec 4} : constValue cid = none ↔ 10 ≤ cid.toNat := by
  revert cid; decide

theorem formOf_none {f : BitVec 4} : formOf f = none ↔ 3 ≤ f.toNat := by revert f; decide

theorem formOf_length {f : BitVec 4} {pf : PointForm} (h : formOf f = some pf) : encodedLength pf = formLength f := by
  revert h; revert f pf; intro f; revert f; intro f pf
  cases pf <;> revert f <;> decide

@[simp] theorem encodePoint_length (x y : Nat) (f : PointForm) : (encodePoint x y f).length = encodedLength f := by
  cases f <;> simp [encodePoint, encodedLength]

theorem decodedPoint_error {x y : Nat} {c} : decodedPoint x y = .error c ↔ onCurve (.affine x y) = false ∧ c = .offCurve := by
  unfold decodedPoint; cases h : onCurve (.affine x y) <;> simp [eq_comm]

/-- The faults of `Decode` (R171). -/
theorem decodePoint_error {bs : Bytes} {c : FaultCode} (h : decodePoint bs = .error c) :
   c ∈ [FaultCode.badPointLength, .badPrefix, .hybridParity, .offCurve, .noSqrt] := by
  unfold decodePoint decodePrefixed decompress at h
  simp only at h
  split_ifs at h <;> simp_all [decodedPoint_error]

theorem mod_eq_cast {a r m : Nat} (hr : r < m) : a % m = r ↔ (a : ZMod m) = r := by
  rw [ZMod.natCast_eq_natCast_iff, Nat.ModEq, Nat.mod_eq_of_lt hr]

/-- The candidate of R171 squares to every residue that has a root: p is 3 modulo 4 (R174). -/
theorem sqrtCandidate_of_root {r y : Nat} (hr : r < Config.p) (h : y * y % Config.p = r) : sqrtCandidate r * sqrtCandidate r % Config.p = r := by
  have : Fact Config.p.Prime := ⟨p_prime⟩
  rw [mod_eq_cast hr] at h ⊢
  have e : sqrtCandidate r = r ^ Config.sqrtExp % Config.p := powMod_eq _ _ (by decide)
  rw [e]
  push_cast [ZMod.natCast_mod]
  rw [← h]
  push_cast
  rw [← pow_add, ← pow_two, ← pow_mul, show 2 * (Config.sqrtExp + Config.sqrtExp) = Config.p + 1 by decide, pow_succ, ZMod.pow_card]
  ring

/-- A residue has at most two roots, and they add up to p. -/
theorem root_unique {r y c : Nat} (hy : y < Config.p) (hc : c < Config.p) (h : y * y % Config.p = r) (h' : c * c % Config.p = r) :
   y = c ∨ (y + c = Config.p) := by
  have : Fact Config.p.Prime := ⟨p_prime⟩
  have hp : 0 < Config.p := by decide
  have hr : r < Config.p := by rw [← h]; exact Nat.mod_lt _ hp
  rw [mod_eq_cast hr] at h h'
  have : ((y : ZMod Config.p) - c) * (y + c) = 0 := by
    push_cast at h h'
    linear_combination h - h'
  rcases mul_eq_zero.mp this with h1 | h1
  · left
    rw [sub_eq_zero, ZMod.natCast_eq_natCast_iff, Nat.ModEq, Nat.mod_eq_of_lt hy, Nat.mod_eq_of_lt hc] at h1
    exact h1
  · have h2 : ((y + c : Nat) : ZMod Config.p) = 0 := by push_cast; exact h1
    rw [ZMod.natCast_eq_zero_iff] at h2
    obtain ⟨q, hq⟩ := h2
    have : q < 2 := by
      by_contra hh
      have : Config.p * 2 ≤ Config.p * q := Nat.mul_le_mul_left _ (by omega)
      omega
    interval_cases q
    · left; omega
    · right; omega

theorem sqrtCandidate_lt (r : Nat) : sqrtCandidate r < Config.p := by
  have e : sqrtCandidate r = r ^ Config.sqrtExp % Config.p := powMod_eq _ _ (by decide)
  rw [e]; exact Nat.mod_lt _ (by decide)

theorem onCurve_iff (x y : Nat) : onCurve (.affine x y) = true ↔ x < Config.p ∧ y < Config.p ∧ y * y % Config.p = curveRhs x := by
  simp [onCurve, and_assoc]

/-- The root of the right parity is the one the compressed branch finds (R171). -/
theorem decompress_root {pc x y : Nat} (hx : x < Config.p) (hy : y < Config.p) (h : y * y % Config.p = curveRhs x) (hb : y % 2 = pc % 2) :
   decompress pc x = .ok (.affine x y) := by
  have hp : Config.p % 2 = 1 := by decide
  have hr : curveRhs x < Config.p := Nat.mod_lt _ (by decide)
  have hc := sqrtCandidate_of_root hr h
  have hcl := sqrtCandidate_lt (curveRhs x)
  have hon := (onCurve_iff x y).mpr ⟨hx, hy, h⟩
  unfold decompress
  simp only
  rw [if_neg (by omega), if_neg (by simpa using hc)]
  have key : (if sqrtCandidate (curveRhs x) % 2 ≠ pc % 2 then (Config.p - sqrtCandidate (curveRhs x)) % Config.p else sqrtCandidate (curveRhs x)) = y := by
    rcases root_unique hy hcl h hc with e | e
    · rw [← e, if_neg (by omega)]
    · split_ifs with h1
      · rw [show Config.p - sqrtCandidate (curveRhs x) = y by omega, Nat.mod_eq_of_lt hy]
      · exfalso; omega
  rw [key, if_neg (by omega)]
  simp [decodedPoint, hon]

/-- Without a root of the right parity the compressed branch faults (R171). -/
theorem decompress_noRoot {pc x : Nat} (hx : x < Config.p) (h : ¬∃ y, y < Config.p ∧ y * y % Config.p = curveRhs x ∧ y % 2 = pc % 2) :
   decompress pc x = .error .noSqrt := by
  have hcl := sqrtCandidate_lt (curveRhs x)
  have : Fact Config.p.Prime := ⟨p_prime⟩
  unfold decompress
  simp only
  rw [if_neg (by omega)]
  split_ifs with h1 h2 h3
  · rfl
  · rfl
  · exfalso; apply h
    push Not at h1 h3
    refine ⟨_, Nat.mod_lt _ (by decide), ?_, h3⟩
    have hr : curveRhs x < Config.p := Nat.mod_lt _ (by decide)
    rw [mod_eq_cast hr] at h1 ⊢
    rw [← h1, Nat.cast_mul, ZMod.natCast_mod, Nat.cast_sub (Nat.le_of_lt hcl), ZMod.natCast_self, Nat.cast_mul]
    ring
  · exfalso; apply h
    push Not at h1 h2
    exact ⟨_, hcl, h1, h2⟩

end Sys2Proof.Machine
end

