-- ==== Sys2Proof/Laws/Decode.lean ====
section
/-! SUPPORT. The fields of the words the two formats make (R91, R92), read back one by one. -/

namespace Sys2Proof.Laws

/-- The number with an opcode and six 4-bit fields (R91). -/
def sevenFields (op f1 f2 f3 f4 f5 fn : Nat) : Nat :=
  (((((op * 2 ^ 4 + f1) * 2 ^ 4 + f2) * 2 ^ 4 + f3) * 2 ^ 4 + f4) * 2 ^ 4 + f5) * 2 ^ 4 + fn

theorem formatF_toNat {op f1 f2 f3 f4 f5 fn : Nat} (ho : op < 256) (h1 : f1 < 16) (h2 : f2 < 16) (h3 : f3 < 16) (h4 : f4 < 16)
    (h5 : f5 < 16) (hn : fn < 16) : (formatF op f1 f2 f3 f4 f5 fn).toNat = sevenFields op f1 f2 f3 f4 f5 fn := by
  simp only [formatF, BitVec.toNat_ofNat, sevenFields]
  omega

theorem formatI_toNat {op f1 f2 imm : Nat} (ho : op < 256) (h1 : f1 < 16) (h2 : f2 < 16) (hi : imm < 65536) :
    (formatI op f1 f2 imm).toNat = ((op * 2 ^ 4 + f1) * 2 ^ 4 + f2) * 2 ^ 16 + imm := by
  simp only [formatI, BitVec.toNat_ofNat]
  omega

/-- The bits of a word in format F, by place. -/
theorem bitField_formatF {op f1 f2 f3 f4 f5 fn : Nat} (ho : op < 256) (h1 : f1 < 16) (h2 : f2 < 16) (h3 : f3 < 16) (h4 : f4 < 16)
    (h5 : f5 < 16) (hn : fn < 16) :
    let w := formatF op f1 f2 f3 f4 f5 fn
    opField w = op ∧ bitField w 20 4 = f1 ∧ bitField w 16 4 = f2 ∧ bitField w 12 4 = f3 ∧ bitField w 8 4 = f4 ∧
      bitField w 4 4 = f5 ∧ bitField w 0 4 = fn := by
  intro w
  have e : w.toNat = _ := formatF_toNat ho h1 h2 h3 h4 h5 hn
  simp only [opField, bitField, e, sevenFields]
  refine ⟨?_, ?_, ?_, ?_, ?_, ?_, ?_⟩ <;> omega

/-- The bits of a word in format I, by place. -/
theorem bitField_formatI {op f1 f2 imm : Nat} (ho : op < 256) (h1 : f1 < 16) (h2 : f2 < 16) (hi : imm < 65536) :
    let w := formatI op f1 f2 imm
    opField w = op ∧ bitField w 20 4 = f1 ∧ bitField w 16 4 = f2 ∧ bitField w 0 16 = imm := by
  intro w
  have e : w.toNat = _ := formatI_toNat ho h1 h2 hi
  simp only [opField, bitField, e]
  refine ⟨?_, ?_, ?_, ?_⟩ <;> omega

/-- A field of `a + b` bits is 0 exactly where both its parts are. -/
theorem bitField_split (w : Word) (lo a b : Nat) :
    bitField w lo (a + b) = bitField w lo a + 2 ^ a * bitField w (lo + a) b := by
  simp only [bitField, Nat.pow_add, Nat.mod_mul, Nat.div_div_eq_div_mul]

theorem bitField_lt (w : Word) (lo len : Nat) : bitField w lo len < 2 ^ len := Nat.mod_lt _ (Nat.two_pow_pos _)

/-- A register number written into a field is read back. -/
theorem regIdx_ofNat {v : Nat} {i : RegIdx} (h : v = i.val) : (Fin.ofNat 16 v : RegIdx) = i := by
  subst h
  exact Fin.ext (Nat.mod_eq_of_lt i.isLt)

end Sys2Proof.Laws
end

