-- ==== Sys2Proof/Laws/Engines.lean ====
section
/-! SUPPORT. Key derivation and encryption (R180, R190, R191): lengths, faults, and when an iteration of the retry loop fails. -/

namespace Sys2Proof.Machine

theorem kdfBlocks_length (H : Bytes → Bytes) (hH : ∀ b, (H b).length = 32) (z : Bytes) (n ct : Nat) : (kdfBlocks H z n ct).length = 32 * n := by
  induction n generalizing ct with
  | zero => rfl
  | succ n ih => simp [kdfBlocks, hH, ih]; omega

/-- The length of what `Kdf` returns (R180). -/
theorem kdf_ok_length {H : Bytes → Bytes} (hH : ∀ b, (H b).length = 32) {z : Bytes} {n : Nat} {t : Bytes} (h : kdf H z n = .ok t) : t.length = n := by
  unfold kdf at h
  simp only at h
  split_ifs at h with h1 h2
  injection h with h; subst h
  simp [kdfOutput, kdfBlocks_length H hH, Config.hlen]; omega

/-- The faults of `Kdf` (R180). -/
theorem kdf_error {H : Bytes → Bytes} {z : Bytes} {n : Nat} {c} (h : kdf H z n = .error c) : (n = 0 ∧ c = .empty) ∨ (n ≠ 0 ∧ c = .kdfZero) := by
  unfold kdf at h
  simp only at h
  split_ifs at h with h1 h2 <;> injection h with h <;> simp [h1, h]

theorem hash_length (m : Bytes) : (Config.hash m).length = 32 := by
  simp [Config.hash, sm3, sm3Digest]

theorem c1Length_error {raw} {bs : Bytes} {c} (h : c1Length raw bs = .error c) : c = .shortCiphertext ∨ c = .badPrefix := by
  unfold c1Length at h
  split_ifs at h <;> (injection h with h; subst h; simp)

/-- How the length of C1 is found (R191). -/
theorem c1Length_ok {raw} {bs : Bytes} {n} (h : c1Length raw bs = .ok n) : C1Length raw bs n ∧ (n = 64 ∨ n = 65 ∨ n = 33) := by
  unfold c1Length at h
  cases bs with
  | nil => 
    cases raw <;> simp at h
    subst h; simp [C1Length]
  | cons b rest =>
    simp only [byteAt, List.getD_cons_zero, List.length_cons] at h
    split_ifs at h with h1 h2 h3 h4
    · injection h with h; subst h; simp [C1Length, h1]
    · injection h with h; subst h
      refine ⟨.inr ⟨by simpa using h1, .inl ⟨b, rest, rfl, ?_, rfl⟩⟩, by simp⟩
      simp only [List.mem_cons, List.not_mem_nil, or_false]
      rcases h3 with h | h | h
      · left; apply BitVec.eq_of_toNat_eq; simpa using h
      · right; left; apply BitVec.eq_of_toNat_eq; simpa using h
      · right; right; apply BitVec.eq_of_toNat_eq; simpa using h
    · injection h with h; subst h
      refine ⟨.inr ⟨by simpa using h1, .inr ⟨b, rest, rfl, ?_, rfl⟩⟩, by simp⟩
      simp only [List.mem_cons, List.not_mem_nil, or_false]
      rcases h4 with h | h
      · left; apply BitVec.eq_of_toNat_eq; simpa using h
      · right; apply BitVec.eq_of_toNat_eq; simpa using h

/-- A C1 of the length its first byte says has no bad length. -/
theorem decode_c1_not_badlen {raw} {bs : Bytes} {n} (h : c1Length raw bs = .ok n) (hl : n ≤ bs.length) : decodePoint (slice bs 0 n) ≠ .error .badPointLength := by
  intro e
  have hs : (slice bs 0 n).length = n := slice_length (by omega)
  unfold c1Length at h
  unfold decodePoint withPrefix at e
  rw [hs] at e
  have hb : n ≠ 0 → byteAt (slice bs 0 n) 0 = byteAt bs 0 := by
    intro hn; cases bs with
    | nil => simp at hl; omega
    | cons b rest => cases n with
      | zero => simp at hn
      | succ n => simp [slice, byteAt]
  have key : ∀ x y, decodedPoint x y ≠ .error .badPointLength := by
    intro x y hh; rw [decodedPoint_error] at hh; exact absurd hh.2 (by decide)
  have key2 : ∀ pc x, decompress pc x ≠ .error .badPointLength := by
    intro pc x hh; unfold decompress at hh; simp only at hh
    split_ifs at hh <;> simp_all
  split_ifs at h with h1 h2 h3 h4
  · injection h with h; subst h
    simp only [if_true] at e
    unfold decodePrefixed at e
    simp [byteAt, hs] at e
    exact key _ _ e
  · injection h with h; subst h
    simp at e
    unfold decodePrefixed at e
    simp [hs, hb] at e
    rw [if_pos h3] at e
    split_ifs at e
    · cases e
    · exact key _ _ e
  · injection h with h; subst h
    simp at e
    unfold decodePrefixed at e
    simp [hs, hb] at e
    rw [if_pos h4] at e
    push Not at h3
    exact key2 _ _ (e h3.1 h3.2.1 h3.2.2)

/-- The faults of R191 from the decoding of C1 on. -/
theorem decryptBody_error {H mode c c1len mlen k f} (hm : mlen ≠ 0) (hc : c1len + 32 + mlen ≤ c.length) (h : decryptBody H mode c c1len mlen k = .error f) :
   f ∈ [FaultCode.badPointLength, .badPrefix, .hybridParity, .offCurve, .noSqrt, .scalarRange, .infinity, .kdfZero, .mac] := by
  unfold decryptBody at h
  split at h
  · rename_i f' e
    injection h with h; subst h
    have := decodePoint_error e; simp at this ⊢; tauto
  · rw [checkScalar_error] at h
    rcases h with ⟨_, h⟩ | ⟨_, _, h⟩
    · simp [h]
    · split at h
      · injection h with h; subst h; simp
      · unfold openCipher at h
        split at h
        · rename_i e
          injection h with h; subst h
          have hl : (cipherC2 mode c c1len mlen).length = mlen := by
            cases mode <;> simp only [cipherC2] <;> apply slice_length <;> omega
          rcases kdf_error e with ⟨h1, h2⟩ | ⟨_, h2⟩
          · omega
          · simp [h2]
        · simp only at h
          split_ifs at h
          injection h with h; subst h; simp

/-- The length of a ciphertext (R190). -/
theorem encryptAttempt_length {H cfg q msg w out} (hH : ∀ b, (H b).length = 32) (h : encryptAttempt H cfg q msg w = some out) : out.length = cipherLength cfg msg.length := by
  unfold encryptAttempt at h
  simp only at h
  split_ifs at h
  split at h
  · cases h
  · split at h
    · cases h
    · rename_i t ht
      injection h with h; subst h
      have hl := kdf_ok_length hH ht
      cases hm : cfg.mode <;> simp [assembleCipher, macOf, hH, hl, cipherLength] <;> omega

/-- When an iteration of ENCRYPT fails (R190). -/
theorem encryptAttempt_none {H : Bytes → Bytes} {cfg : Cfg} {q : Point} {msg : Bytes} {w : Word256} (hm : msg ≠ []) :
    encryptAttempt H cfg q msg w = none ↔ EncryptWordFails H q msg.length w.toNat := by
  have hl : msg.length ≠ 0 := by simpa using hm
  unfold encryptAttempt EncryptWordFails
  simp only
  by_cases h : w.toNat = 0 ∨ w.toNat ≥ Config.n
  · rw [if_pos h]; tauto
  · rw [if_neg h]
    cases hs : scalarMul w.toNat q with
    | inf => simp
    | affine x2 y2 =>
      simp only
      cases hk : kdf H (sharedBytes x2 y2) msg.length with
      | error c =>
        have : c = .kdfZero := by rcases kdf_error hk with ⟨h, _⟩ | ⟨_, h⟩ <;> tauto
        subst this
        simp only [true_iff]
        exact .inr (.inr (.inr ⟨x2, y2, rfl, hk⟩))
      | ok t =>
        simp only [reduceCtorEq, false_iff]
        rintro (h' | h' | h' | ⟨a, b, h1, h2⟩)
        · exact h (.inl h')
        · exact h (.inr h')
        · cases h'
        · injection h1 with h1 h1'; subst h1 h1'; rw [hk] at h2; cases h2

end Sys2Proof.Machine
end

