-- ==== Sys2Proof/Laws/Group.lean ====
section
/-! SUPPORT. The model's affine arithmetic (R150 to R153) is the group law of the Weierstrass curve over the field of p elements,
as the library has it. `Represents v q` ties a point value of the model to a point of that curve. -/

namespace Sys2Proof.Machine

/-- The field of p elements. -/
abbrev Fp := ZMod Config.p

theorem p_pos : 0 < Config.p := p_prime.pos

theorem fact_p : Fact Config.p.Prime := ⟨p_prime⟩

/-- The curve `y^2 = x^3 + a*x + b` (R150). -/
def curveW : WeierstrassCurve.Affine Fp := { a₁ := 0, a₂ := 0, a₃ := 0, a₄ := (Config.a : Fp), a₆ := (Config.b : Fp) }

theorem curveW_disc : curveW.Δ ≠ 0 := by
  have e : curveW.Δ = ((Config.p - (16 * (4 * Config.a ^ 3 + 27 * Config.b ^ 2)) % Config.p : Nat) : Fp) := by
    have hle : (16 * (4 * Config.a ^ 3 + 27 * Config.b ^ 2)) % Config.p ≤ Config.p := Nat.le_of_lt (Nat.mod_lt _ p_pos)
    rw [Nat.cast_sub hle, ZMod.natCast_self, ZMod.natCast_mod]
    simp only [WeierstrassCurve.Δ, WeierstrassCurve.b₂, WeierstrassCurve.b₄, WeierstrassCurve.b₆, WeierstrassCurve.b₈, curveW]
    push_cast
    ring
  rw [e]
  intro h
  rw [ZMod.natCast_eq_zero_iff] at h
  revert h
  decide +kernel

/-- Two residues below p are equal where their classes are. -/
theorem cast_inj {x y : Nat} (hx : x < Config.p) (hy : y < Config.p) : (x : Fp) = y ↔ x = y := by
  rw [ZMod.natCast_eq_natCast_iff, Nat.ModEq, Nat.mod_eq_of_lt hx, Nat.mod_eq_of_lt hy]

theorem curveRhs_cast (x : Nat) : ((curveRhs x : Nat) : Fp) = (x : Fp) ^ 3 + Config.a * x + Config.b := by
  rw [curveRhs, ZMod.natCast_mod]
  push_cast
  ring

/-- `OnCurve` of a pair is the curve equation over the field (R150). -/
theorem onCurve_affine {x y : Nat} :
    onCurve (.affine x y) = true ↔ x < Config.p ∧ y < Config.p ∧ curveW.Equation (x : Fp) (y : Fp) := by
  have e : curveW.Equation (x : Fp) (y : Fp) ↔ y * y % Config.p = curveRhs x := by
    rw [WeierstrassCurve.Affine.equation_iff]
    have h1 : y * y % Config.p < Config.p := Nat.mod_lt _ p_pos
    have h2 : curveRhs x < Config.p := Nat.mod_lt _ p_pos
    rw [← cast_inj h1 h2, curveRhs_cast, ZMod.natCast_mod]
    simp only [curveW]
    push_cast
    constructor <;> intro h <;> linear_combination h
  rw [e]
  simp [onCurve, and_assoc]

theorem onCurve_nonsingular {x y : Nat} (h : onCurve (.affine x y) = true) : curveW.Nonsingular (x : Fp) (y : Fp) :=
  (WeierstrassCurve.Affine.equation_iff_nonsingular_of_Δ_ne_zero (W := curveW) curveW_disc).mp (onCurve_affine.mp h).2.2

/-- The point of the curve a point value of the model stands for. -/
inductive Represents : Point → curveW.Point → Prop
  | inf : Represents .inf .zero
  | affine {x y : Nat} (hx : x < Config.p) (hy : y < Config.p) (h : curveW.Nonsingular (x : Fp) (y : Fp)) :
    Represents (.affine x y) (.some (x : Fp) (y : Fp) h)

/-- Every point value on the curve stands for a point. -/
theorem represents_of_onCurve {v : Point} (h : onCurve v = true) : ∃ q, Represents v q := by
  cases v with
  | inf => exact ⟨_, .inf⟩
  | affine x y =>
    obtain ⟨hx, hy, -⟩ := onCurve_affine.mp h
    exact ⟨_, .affine hx hy (onCurve_nonsingular h)⟩

theorem onCurve_of_represents {v : Point} {q : curveW.Point} (h : Represents v q) : onCurve v = true := by
  cases h with
  | inf => rfl
  | affine hx hy h => exact onCurve_affine.mpr ⟨hx, hy, h.1⟩

/-- A point is represented by one point value only: residues are unique. -/
theorem represents_unique {v w : Point} {q : curveW.Point} (hv : Represents v q) (hw : Represents w q) : v = w := by
  cases hv with
  | inf => cases hw; rfl
  | affine hx hy h =>
    generalize hq : WeierstrassCurve.Affine.Point.some _ _ h = q' at hw
    cases hw with
    | inf => cases hq
    | affine hx' hy' h' =>
      simp only [WeierstrassCurve.Affine.Point.some.injEq] at hq
      rw [(cast_inj hx hx').mp hq.1, (cast_inj hy hy').mp hq.2]

/-- A point value stands for one point only. -/
theorem represents_right_unique {v : Point} {q r : curveW.Point} (hq : Represents v q) (hr : Represents v r) : q = r := by
  cases hq <;> cases hr <;> rfl

/-- `INF` stands for the group's zero, and nothing else does. -/
theorem represents_inf {q : curveW.Point} : Represents .inf q ↔ q = 0 :=
  ⟨fun h => represents_right_unique h .inf, fun h => h ▸ .inf⟩

/-- Every point has a point value. -/
theorem exists_represents (q : curveW.Point) : ∃ v, Represents v q := by
  cases q with
  | zero => exact ⟨_, .inf⟩
  | some x y h =>
    have : NeZero Config.p := ⟨Nat.ne_of_gt p_pos⟩
    refine ⟨.affine x.val y.val, ?_⟩
    have hx : ((x.val : Nat) : Fp) = x := ZMod.natCast_rightInverse x
    have hy : ((y.val : Nat) : Fp) = y := ZMod.natCast_rightInverse y
    have h' : curveW.Nonsingular ((x.val : Nat) : Fp) ((y.val : Nat) : Fp) := by rw [hx, hy]; exact h
    have r := Represents.affine (ZMod.val_lt x) (ZMod.val_lt y) h'
    simpa only [hx, hy] using r

theorem represents_some {v : Point} {x y : Fp} {h : curveW.Nonsingular x y} (hr : Represents v (.some x y h)) :
    ∃ x' y' : Nat, v = .affine x' y' ∧ x' < Config.p ∧ y' < Config.p ∧ (x' : Fp) = x ∧ (y' : Fp) = y := by
  cases hr with
  | affine hx hy h => exact ⟨_, _, rfl, hx, hy, rfl, rfl⟩

/-- The inverse of R11 is the inverse of the field. -/
theorem inv_cast {v : Nat} (h : (v : Fp) ≠ 0) : ((inv v Config.p : Nat) : Fp) = (v : Fp)⁻¹ := by
  have := fact_p
  have hc : Nat.Coprime v Config.p := by
    rw [Nat.coprime_comm, Nat.Prime.coprime_iff_not_dvd p_prime]
    exact fun hd => h ((ZMod.natCast_eq_zero_iff v Config.p).mpr hd)
  exact eq_inv_of_mul_eq_one_left (inv_mul_cast p_prime.one_lt hc)

variable [Fact Config.p.Prime]

/-- The result of the chord construction, over the field. -/
theorem chord_represents {x1 y1 x2 y2 lam : Nat} (h1 : curveW.Nonsingular (x1 : Fp) (y1 : Fp))
    (h2 : curveW.Nonsingular (x2 : Fp) (y2 : Fp)) (hxy : ¬((x1 : Fp) = x2 ∧ (y1 : Fp) = curveW.negY x2 y2))
    (hlam : (lam : Fp) = curveW.slope (x1 : Fp) x2 y1 y2) :
    Represents (chord lam x1 y1 x2) (WeierstrassCurve.Affine.Point.some _ _ h1 + WeierstrassCurve.Affine.Point.some _ _ h2) := by
  rw [WeierstrassCurve.Affine.Point.add_some hxy]
  have hx3 : ((subMod (subMod (lam * lam) x1 Config.p) x2 Config.p : Nat) : Fp) =
      curveW.addX (x1 : Fp) x2 (curveW.slope (x1 : Fp) x2 y1 y2) := by
    rw [subMod_cast _ _ p_pos, subMod_cast _ _ p_pos, ← hlam]
    simp only [WeierstrassCurve.Affine.addX, curveW]
    push_cast
    ring
  have hy3 : ((subMod (lam * subMod x1 (subMod (subMod (lam * lam) x1 Config.p) x2 Config.p) Config.p) y1 Config.p : Nat) : Fp) =
      curveW.addY (x1 : Fp) x2 y1 (curveW.slope (x1 : Fp) x2 y1 y2) := by
    rw [subMod_cast _ _ p_pos, Nat.cast_mul, subMod_cast _ _ p_pos, hx3, ← hlam]
    simp only [WeierstrassCurve.Affine.addY, WeierstrassCurve.Affine.negY, WeierstrassCurve.Affine.negAddY, curveW]
    ring
  have hns := WeierstrassCurve.Affine.nonsingular_add h1 h2 hxy
  have hns' : curveW.Nonsingular
      ((subMod (subMod (lam * lam) x1 Config.p) x2 Config.p : Nat) : Fp)
      ((subMod (lam * subMod x1 (subMod (subMod (lam * lam) x1 Config.p) x2 Config.p) Config.p) y1 Config.p : Nat) : Fp) := by
    rw [hx3, hy3]
    exact hns
  have hrep := Represents.affine (subMod_lt p_pos) (subMod_lt p_pos) hns'
  unfold chord
  convert hrep using 1
  simp only [WeierstrassCurve.Affine.Point.some.injEq]
  exact ⟨hx3.symm, hy3.symm⟩

theorem two_ne_zero_fp : (2 : Fp) ≠ 0 := by
  intro h
  have h' : ((2 : Nat) : Fp) = 0 := by simpa using h
  rw [ZMod.natCast_eq_zero_iff] at h'
  revert h'
  decide +kernel

/-- `PointDouble` is the doubling of the group (R152). -/
theorem pointDouble_represents {v : Point} {q : curveW.Point} (h : Represents v q) :
    Represents (pointDouble v) (q + q) := by
  cases h with
  | inf => exact .inf
  | @affine x y hx hy h =>
    by_cases hy0 : y = 0
    · subst hy0
      have e : (WeierstrassCurve.Affine.Point.some _ _ h + WeierstrassCurve.Affine.Point.some _ _ h : curveW.Point) = 0 :=
        WeierstrassCurve.Affine.Point.add_self_of_Y_eq (by simp [WeierstrassCurve.Affine.negY, curveW])
      rw [e]
      exact Represents.inf
    · have hyF : (y : Fp) ≠ 0 := by
        intro e
        exact hy0 ((cast_inj hy p_pos).mp (by simpa using e))
      have hne : (y : Fp) ≠ curveW.negY x y := by
        intro e
        simp only [WeierstrassCurve.Affine.negY, curveW] at e
        have : (2 : Fp) * y = 0 := by linear_combination e
        rcases mul_eq_zero.mp this with h2 | h2
        · exact two_ne_zero_fp h2
        · exact hyF h2
      simp only [pointDouble, if_neg hy0]
      refine chord_represents h h (fun e => hne e.2) ?_
      rw [WeierstrassCurve.Affine.slope_of_Y_ne rfl hne, ZMod.natCast_mod, Nat.cast_mul, inv_cast]
      · simp only [WeierstrassCurve.Affine.negY, curveW, ZMod.natCast_mod]
        push_cast
        rw [div_eq_mul_inv]
        ring_nf
      · rw [ZMod.natCast_mod]
        push_cast
        exact mul_ne_zero two_ne_zero_fp hyF

/-- `PointAdd` is the addition of the group (R151). -/
theorem pointAdd_represents {v w : Point} {q r : curveW.Point} (hv : Represents v q) (hw : Represents w r) :
    Represents (pointAdd v w) (q + r) := by
  cases hv with
  | inf =>
    have e : (WeierstrassCurve.Affine.Point.zero + r : curveW.Point) = r := zero_add r
    rw [e]
    exact hw
  | @affine x1 y1 hx1 hy1 h1 =>
    cases hw with
    | inf =>
      have e : (WeierstrassCurve.Affine.Point.some _ _ h1 + WeierstrassCurve.Affine.Point.zero : curveW.Point) = .some _ _ h1 := add_zero _
      rw [e]
      exact .affine hx1 hy1 h1
    | @affine x2 y2 hx2 hy2 h2 =>
      by_cases hx : x1 = x2
      · subst hx
        have hsum : ((y1 + y2) % Config.p = 0) ↔ (y1 : Fp) = curveW.negY x1 y2 := by
          rw [← Nat.dvd_iff_mod_eq_zero, ← ZMod.natCast_eq_zero_iff]
          simp only [WeierstrassCurve.Affine.negY, curveW]
          push_cast
          constructor <;> intro h <;> linear_combination h
        by_cases hy : (y1 + y2) % Config.p = 0
        · have e : (WeierstrassCurve.Affine.Point.some _ _ h1 + WeierstrassCurve.Affine.Point.some _ _ h2 : curveW.Point) = 0 :=
            WeierstrassCurve.Affine.Point.add_of_Y_eq rfl (hsum.mp hy)
          rw [e]
          simp only [pointAdd, if_true, if_pos hy]
          exact Represents.inf
        · have hne : (y1 : Fp) ≠ curveW.negY x1 y2 := fun e => hy (hsum.mpr e)
          have hyy : (y1 : Fp) = y2 := WeierstrassCurve.Affine.Y_eq_of_Y_ne h1.1 h2.1 rfl hne
          have hyn : y1 = y2 := (cast_inj hy1 hy2).mp hyy
          subst hyn
          have := pointDouble_represents (Represents.affine hx1 hy1 h1)
          simpa [pointAdd, hy] using this
      · have hxF : (x1 : Fp) ≠ x2 := fun e => hx ((cast_inj hx1 hx2).mp e)
        simp only [pointAdd, if_neg hx]
        refine chord_represents h1 h2 (fun e => hxF e.1) ?_
        rw [WeierstrassCurve.Affine.slope_of_X_ne hxF, ZMod.natCast_mod, Nat.cast_mul, inv_cast]
        · rw [subMod_cast _ _ p_pos, subMod_cast _ _ p_pos, ← neg_sub (x1 : Fp), ← neg_sub (y1 : Fp), inv_neg, div_eq_mul_inv]
          ring
        · rw [subMod_cast _ _ p_pos]
          exact sub_ne_zero.mpr (Ne.symm hxF)

/-- The sum of `k` copies is the multiple of the group (R153). -/
theorem pointSum_represents {v : Point} {q : curveW.Point} (h : Represents v q) (k : Nat) :
    Represents (pointSum v k) (k • q) := by
  induction k with
  | zero => rw [zero_nsmul]; exact .inf
  | succ k ih => rw [succ_nsmul]; exact pointAdd_represents ih h

theorem scalarMulAux_represents {v : Point} {q : curveW.Point} (h : Represents v q) (fuel : Nat) :
    ∀ k < 2 ^ fuel, Represents (scalarMulAux v fuel k) (k • q) := by
  induction fuel with
  | zero =>
    intro k hk
    have : k = 0 := by simpa using hk
    subst this
    rw [zero_nsmul]
    exact .inf
  | succ fuel ih =>
    intro k hk
    by_cases hk0 : k = 0
    · subst hk0
      rw [zero_nsmul]
      exact .inf
    · have hd := pointDouble_represents (ih (k / 2) (by rw [pow_succ] at hk; omega))
      rw [← add_nsmul] at hd
      simp only [scalarMulAux, if_neg hk0]
      by_cases hb : k % 2 = 1
      · have e : k = k / 2 + k / 2 + 1 := by omega
        rw [if_pos hb]
        conv_rhs => rw [e, succ_nsmul]
        exact pointAdd_represents hd h
      · have e : k / 2 + k / 2 = k := by omega
        rw [if_neg hb]
        rwa [e] at hd

/-- `ScalarMul` is the multiple of the group (R153). -/
theorem scalarMul_represents {v : Point} {q : curveW.Point} (h : Represents v q) {k : Nat} (hk : k < 2 ^ 256) :
    Represents (scalarMul k v) (k • q) := scalarMulAux_represents h 256 k hk

end Sys2Proof.Machine
end

