-- ==== Sys2Proof/Laws/Inputs.lean ====
section
/-! SUPPORT. The accesses of the outside world that reach a running command (R271, R281): what `takeDuring` finds, said once, and
what it leaves. -/

namespace Sys2Proof.Machine

theorem answeredWhileBusy_eq_false (a : Access) : a.answeredWhileBusy = false ↔ HeldWhileBusy a := by
  cases a with
  | write off v => simp [Access.answeredWhileBusy, HeldWhileBusy]
  | read off => simp [Access.answeredWhileBusy, HeldWhileBusy]
  | hwReset n => simp [Access.answeredWhileBusy, HeldWhileBusy]

theorem answeredWhileBusy_eq_true (a : Access) : a.answeredWhileBusy = true ↔ ¬HeldWhileBusy a := by
  rw [← answeredWhileBusy_eq_false, Bool.not_eq_false]

/-- All `takeDuring` can answer: the first access that is not held, behind held ones alone, issued in time. -/
theorem takeDuring_eq_some (n : Nat) (q : List Input) (a : Access) (rest : List Input) :
    takeDuring n q = some (a, rest) ↔
      ∃ held k behind, q = held ++ { access := a, arrival := .duringCommand k } :: behind ∧
        (∀ x ∈ held, HeldWhileBusy x.access) ∧ n + held.length ≤ k ∧ ¬HeldWhileBusy a ∧ rest = held ++ behind := by
  induction q generalizing n rest with
  | nil => simp [takeDuring]
  | cons x q ih =>
    obtain ⟨b, arr⟩ := x
    constructor
    · intro h
      simp only [takeDuring] at h
      split at h
      · next hb =>
        split at h
        · next hr =>
          cases arr with
          | afterCommand => cases hr
          | duringCommand k =>
            simp only [Option.some.injEq, Prod.mk.injEq] at h
            obtain ⟨rfl, rfl⟩ := h
            exact ⟨[], k, q, rfl, by simp, by simpa [Arrival.issuedBehind] using hr, (answeredWhileBusy_eq_true _).1 hb, rfl⟩
        · cases h
      · next hb =>
        split at h
        · next a' rest' hq =>
          simp only [Option.some.injEq, Prod.mk.injEq] at h
          obtain ⟨rfl, rfl⟩ := h
          obtain ⟨held, k, behind, rfl, hh, hk, ha, rfl⟩ := (ih _ _).1 hq
          refine ⟨_ :: held, k, behind, rfl, ?_, by simp only [List.length_cons]; omega, ha, rfl⟩
          simp only [List.mem_cons, forall_eq_or_imp]
          exact ⟨(answeredWhileBusy_eq_false b).1 (by simpa using hb), hh⟩
        · cases h
    · rintro ⟨held, k, behind, hq, hh, hk, ha, rfl⟩
      cases held with
      | nil =>
        simp only [List.nil_append, List.cons.injEq, Input.mk.injEq] at hq
        obtain ⟨⟨rfl, rfl⟩, rfl⟩ := hq
        simp only [takeDuring, (answeredWhileBusy_eq_true b).2 ha]
        simpa [Arrival.issuedBehind] using hk
      | cons y held =>
        simp only [List.cons_append, List.cons.injEq] at hq
        obtain ⟨rfl, rfl⟩ := hq
        simp only [List.mem_cons, forall_eq_or_imp] at hh
        have hy : b.answeredWhileBusy = false := (answeredWhileBusy_eq_false b).2 hh.1
        have hr : takeDuring (n + 1) (held ++ { access := a, arrival := .duringCommand k } :: behind) = some (a, held ++ behind) :=
          (ih _ _).2 ⟨held, k, behind, rfl, hh.2, by simp only [List.length_cons] at hk; omega, ha, rfl⟩
        simp [takeDuring, hy, hr]

/-- The model finds the access that reaches the running command, and the accesses that wait on. -/
theorem reachesRunning_iff (q : List Input) (a : Access) (rest : List Input) :
    ReachesRunning q a rest ↔ takeDuring 0 q = some (a, rest) := by
  rw [takeDuring_eq_some]
  simp [ReachesRunning]

/-- Nothing happens to a running command exactly where no access reaches it. -/
theorem duringCommand_eq_none (s : State) : s.duringCommand = none ↔ ¬∃ a rest, ReachesRunning s.inputs a rest := by
  constructor
  · rintro h ⟨a, rest, hr⟩
    have ht := (reachesRunning_iff _ _ _).1 hr
    obtain ⟨_, _, _, _, _, _, ha, _⟩ := hr
    cases a with
    | write off v => exact ha (.inl ⟨off, v, rfl⟩)
    | read off => simp [State.duringCommand, ht] at h
    | hwReset n => simp [State.duringCommand, ht] at h
  · intro h
    cases ht : takeDuring 0 s.inputs with
    | none => simp [State.duringCommand, ht]
    | some o => exact absurd ⟨o.1, o.2, (reachesRunning_iff _ _ _).2 ht⟩ h

theorem takeDuring_holdFirst (n : Nat) (q : List Input) : takeDuring n (holdFirst q) = none := by
  induction q generalizing n with
  | nil => rfl
  | cons x q ih =>
    simp only [holdFirst]
    split
    · next h => simp [takeDuring, h, Arrival.issuedBehind]
    · next h => simp [takeDuring, h, ih]

/-- No access reaches the command that `withFetchWord` sets up. -/
@[simp] theorem duringCommand_withFetchWord (s : State) (nbits w : Nat) : (s.withFetchWord nbits w).duringCommand = none := by
  simp [State.duringCommand, State.withFetchWord, takeDuring_holdFirst]

end Sys2Proof.Machine
end

