-- ==== Sys2Proof/Laws/Order.lean ====
section
/-! SUPPORT. The group order n of R6 is prime (R11), and the generator G has order n (R7, R161). -/

namespace Sys2Proof.Machine

/-- Pocklington: a prime factor `f` of `m - 1`, and a power that is 1 while its `f`-th part is not, bound the divisors of `m`. -/
theorem dvd_pred_of_powers {m f r : Nat} (g : Nat) (hbig : m < 2 ^ 256) (hm : 1 < m) (hf : f.Prime) (hfm : f ∣ m - 1)
    (hpow : powMod g (m - 1) m = 1) (hpart : Nat.gcd (powMod g ((m - 1) / f) m + (m - 1)) m = 1) (hr : r.Prime) (hrm : r ∣ m) :
    f ∣ r - 1 := by
  have : Fact r.Prime := ⟨hr⟩
  have hm0 : ((m : Nat) : ZMod r) = 0 := (ZMod.natCast_eq_zero_iff m r).mpr hrm
  have hmod : ∀ x : Nat, ((x % m : Nat) : ZMod r) = x := by
    intro x
    rw [ZMod.natCast_eq_natCast_iff]
    exact (Nat.mod_modEq x m).of_dvd hrm
  have cast_pow : ∀ e < 2 ^ 256, ((powMod g e m : Nat) : ZMod r) = (g : ZMod r) ^ e := by
    intro e he
    rw [powMod_eq g m he, hmod, Nat.cast_pow]
  have h1 : (g : ZMod r) ^ (m - 1) = 1 := by rw [← cast_pow _ (by omega), hpow, Nat.cast_one]
  have hlt : (m - 1) / f < 2 ^ 256 := lt_of_le_of_lt (Nat.div_le_self _ _) (by omega)
  have hxf : ((g : ZMod r) ^ ((m - 1) / f)) ^ f = 1 := by rw [← pow_mul, Nat.div_mul_cancel hfm, h1]
  have hx1 : (g : ZMod r) ^ ((m - 1) / f) ≠ 1 := by
    intro e
    rw [← cast_pow _ hlt] at e
    have hd : r ∣ powMod g ((m - 1) / f) m + (m - 1) := by
      rw [← ZMod.natCast_eq_zero_iff, Nat.cast_add, e, Nat.cast_sub (by omega), hm0]
      simp
    exact hr.one_lt.ne' (Nat.dvd_one.mp (hpart ▸ Nat.dvd_gcd hd hrm))
  have : Fact f.Prime := ⟨hf⟩
  have hord := orderOf_eq_prime hxf hx1
  have hx0 : (g : ZMod r) ^ ((m - 1) / f) ≠ 0 := by
    intro e
    rw [e, zero_pow hf.ne_zero] at hxf
    exact zero_ne_one hxf
  rw [← hord]
  exact ZMod.orderOf_dvd_card_sub_one hx0

/-- A number whose least divisor would be above its square root is prime. -/
theorem prime_of_dvd_pred {m f : Nat} (hm : 1 < m) (hsq : m < f * f) (h : ∀ r : Nat, r.Prime → r ∣ m → f ∣ r - 1) : m.Prime := by
  by_contra hnot
  have hp := Nat.minFac_prime hm.ne'
  have h1 := Nat.le_of_dvd (by have := hp.two_le; omega) (h m.minFac hp (Nat.minFac_dvd m))
  have h2 := Nat.minFac_sq_le_self (by omega : 0 < m) hnot
  rw [sq] at h2
  have h3 : f * f ≤ m.minFac * m.minFac := Nat.mul_le_mul (by omega) (by omega)
  omega

theorem prime_5636460199499 : Nat.Prime 5636460199499 :=
  prime_of_dvd_pred (f := 9061163) (by norm_num) (by norm_num) fun _ hr hd =>
    dvd_pred_of_powers 2 (by norm_num) (by norm_num) (by norm_num) (by norm_num) (by decide +kernel) (by decide +kernel) hr hd

theorem prime_101456283590983 : Nat.Prime 101456283590983 :=
  prime_of_dvd_pred (f := 5636460199499) (by norm_num) (by norm_num) fun _ hr hd =>
    dvd_pred_of_powers 2 (by norm_num) (by norm_num) prime_5636460199499 (by norm_num) (by decide +kernel) (by decide +kernel) hr hd

theorem prime_2566129871 : Nat.Prime 2566129871 :=
  prime_of_dvd_pred (f := 84163) (by norm_num) (by norm_num) fun _ hr hd =>
    dvd_pred_of_powers 2 (by norm_num) (by norm_num) (by norm_num) (by norm_num) (by decide +kernel) (by decide +kernel) hr hd

theorem prime_order_factor2 : Nat.Prime 18120927127286907576013935251791662753637 :=
  prime_of_dvd_pred (f := 101456283590983 * 2566129871) (by norm_num) (by norm_num) fun _ hr hd =>
    Nat.Coprime.mul_dvd_of_dvd_of_dvd (by norm_num)
      (dvd_pred_of_powers 2 (by norm_num) (by norm_num) prime_101456283590983 (by norm_num) (by decide +kernel) (by decide +kernel) hr hd)
      (dvd_pred_of_powers 2 (by norm_num) (by norm_num) prime_2566129871 (by norm_num) (by decide +kernel) (by decide +kernel) hr hd)

theorem prime_order_factor1 : Nat.Prime 125197554539772723432468576818475380947471091418362477724521 :=
  prime_of_dvd_pred (f := 18120927127286907576013935251791662753637) (by norm_num) (by norm_num) fun _ hr hd =>
    dvd_pred_of_powers 2 (by norm_num) (by norm_num) prime_order_factor2 (by norm_num) (by decide +kernel) (by decide +kernel) hr hd

/-- The order n is prime (R11). -/
theorem n_prime : Nat.Prime Config.n :=
  prime_of_dvd_pred (f := 125197554539772723432468576818475380947471091418362477724521) (by decide +kernel) (by decide +kernel) fun _ hr hd =>
    dvd_pred_of_powers 2 (by decide +kernel) (by decide +kernel) prime_order_factor1 (by decide +kernel) (by decide +kernel)
      (by decide +kernel) hr hd

theorem n_pos : 0 < Config.n := n_prime.pos

theorem generator_onCurve : onCurve generator = true := by decide +kernel

/-- n copies of G sum to INF (R7). -/
theorem scalarMul_n_generator : scalarMul Config.n generator = .inf := by decide +kernel

/-- The generator stands for a point of order n (R7, R161). -/
theorem generator_represents [Fact Config.p.Prime] : ∃ g : curveW.Point, Represents generator g ∧ addOrderOf g = Config.n := by
  obtain ⟨q, hq⟩ := represents_of_onCurve generator_onCurve
  refine ⟨q, hq, ?_⟩
  have hnq : Config.n • q = 0 := by
    have a := scalarMul_represents hq (k := Config.n) (by decide)
    rw [scalarMul_n_generator] at a
    exact represents_inf.mp a
  have hq0 : q ≠ 0 := by
    rintro rfl
    have := represents_unique hq (represents_inf.mpr rfl)
    cases this
  rcases (Nat.dvd_prime n_prime).mp (addOrderOf_dvd_of_nsmul_eq_zero hnq) with h | h
  · exact absurd (AddMonoid.addOrderOf_eq_one_iff.mp h) hq0
  · exact h

end Sys2Proof.Machine
end

