-- ==== Sys2Proof/Laws/PerInstr.lean ====
section
/-! SUPPORT. Laws of the instruction as syntax, one lemma per constructor. Family RowMatch: the command word of a well-formed
instruction matches its row of spec/opcode_table.json (its `match` under its `mask`). -/

namespace Sys2Proof.Laws

open Sys2Proof.Machine

/-- The word of a well-formed instruction, under its row's mask, is its row's match. -/
def RowMatch.Statement (i : Instr) : Prop :=
  i.wellFormed = true → (encode i).toNat &&& (opcodeRow i).2 = (opcodeRow i).1

/-- The bitwise and of two numbers, block by block. -/
theorem and_block (k : Nat) {a b m c : Nat} (hb : b < 2 ^ k) (hc : c < 2 ^ k) :
    (a * 2 ^ k + b) &&& (m * 2 ^ k + c) = (a &&& m) * 2 ^ k + (b &&& c) := by
  have hp : 0 < 2 ^ k := Nat.two_pow_pos k
  have hdiv : ∀ x y : Nat, y < 2 ^ k → (x * 2 ^ k + y) / 2 ^ k = x := by
    intro x y hy
    rw [Nat.add_comm, Nat.add_mul_div_right _ _ hp, Nat.div_eq_of_lt hy, Nat.zero_add]
  have hmod : ∀ x y : Nat, y < 2 ^ k → (x * 2 ^ k + y) % 2 ^ k = y := by
    intro x y hy
    rw [Nat.add_comm, Nat.add_mul_mod_self_right, Nat.mod_eq_of_lt hy]
  have h1 : ((a * 2 ^ k + b) &&& (m * 2 ^ k + c)) / 2 ^ k = a &&& m := by rw [Nat.and_div_two_pow, hdiv _ _ hb, hdiv _ _ hc]
  have h2 : ((a * 2 ^ k + b) &&& (m * 2 ^ k + c)) % 2 ^ k = b &&& c := by rw [Nat.and_mod_two_pow, hmod _ _ hb, hmod _ _ hc]
  have h3 := Nat.div_add_mod ((a * 2 ^ k + b) &&& (m * 2 ^ k + c)) (2 ^ k)
  rw [h1, h2, Nat.mul_comm] at h3
  exact h3.symm

theorem sevenFields_and {op f1 f2 f3 f4 f5 fn mo m1 m2 m3 m4 m5 mn : Nat} (h1 : f1 < 16) (h2 : f2 < 16)
    (h3 : f3 < 16) (h4 : f4 < 16) (h5 : f5 < 16) (hn : fn < 16) (k1 : m1 < 16) (k2 : m2 < 16) (k3 : m3 < 16)
    (k4 : m4 < 16) (k5 : m5 < 16) (kn : mn < 16) :
    sevenFields op f1 f2 f3 f4 f5 fn &&& sevenFields mo m1 m2 m3 m4 m5 mn =
      sevenFields (op &&& mo) (f1 &&& m1) (f2 &&& m2) (f3 &&& m3) (f4 &&& m4) (f5 &&& m5) (fn &&& mn) := by
  simp only [sevenFields]
  rw [and_block 4 hn kn, and_block 4 h5 k5, and_block 4 h4 k4, and_block 4 h3 k3, and_block 4 h2 k2, and_block 4 h1 k1]

/-- The row law of a word in format F (R91). -/
theorem rowF {op f1 f2 f3 f4 f5 fn : Nat} (mo m1 m2 m3 m4 m5 mn : Nat) (ho : op < 256) (h1 : f1 < 16) (h2 : f2 < 16)
    (h3 : f3 < 16) (h4 : f4 < 16) (h5 : f5 < 16) (hn : fn < 16) (hm : m1 < 16 ∧ m2 < 16 ∧ m3 < 16 ∧ m4 < 16 ∧ m5 < 16 ∧ mn < 16)
    (e : sevenFields (op &&& mo) (f1 &&& m1) (f2 &&& m2) (f3 &&& m3) (f4 &&& m4) (f5 &&& m5) (fn &&& mn) = op * 2 ^ 24) :
    (formatF op f1 f2 f3 f4 f5 fn).toNat &&& sevenFields mo m1 m2 m3 m4 m5 mn = op * 2 ^ 24 := by
  obtain ⟨k1, k2, k3, k4, k5, kn⟩ := hm
  rw [formatF_toNat ho h1 h2 h3 h4 h5 hn, sevenFields_and h1 h2 h3 h4 h5 hn k1 k2 k3 k4 k5 kn, e]

/-- The row law of a word in format I (R92). -/
theorem rowI {op f1 f2 imm : Nat} (mo m2 : Nat) (ho : op < 256) (h1 : f1 < 16) (h2 : f2 < 16) (hi : imm < 65536) (k2 : m2 < 16)
    (e : op &&& mo = op) (e2 : f2 &&& m2 = 0) :
    (formatI op f1 f2 imm).toNat &&& ((mo * 2 ^ 4 + 0) * 2 ^ 4 + m2) * 2 ^ 16 = op * 2 ^ 24 := by
  rw [formatI_toNat ho h1 h2 hi, ← Nat.add_zero (((mo * 2 ^ 4 + 0) * 2 ^ 4 + m2) * 2 ^ 16),
    and_block 16 hi (by norm_num), and_block 4 h2 k2, and_block 4 h1 (by norm_num), e, e2]
  simp only [Nat.and_zero]
  omega

theorem RowMatch.nop : RowMatch.Statement (.nop) := fun _ =>
  rowF 0xFF 15 15 15 15 15 15 (by norm_num) (by norm_num) (by norm_num) (by norm_num) (by norm_num) (by norm_num) (by norm_num) (by norm_num) (by simp [sevenFields])

theorem RowMatch.li (d : RegIdx) (imm : BitVec 16) : RowMatch.Statement (.li d imm) := fun _ =>
  rowI 0xFF 15 (by norm_num) d.isLt (by norm_num) imm.isLt (by norm_num) (by decide) (by simp)

theorem RowMatch.aaddi (d : RegIdx) (a : RegIdx) (imm : BitVec 16) : RowMatch.Statement (.aaddi d a imm) := fun _ =>
  rowI 0xFF 0 (by norm_num) d.isLt a.isLt imm.isLt (by norm_num) (by decide) (by simp)

theorem RowMatch.ldr (d : RegIdx) (a : RegIdx) (imm : BitVec 16) : RowMatch.Statement (.ldr d a imm) := fun _ =>
  rowI 0xFF 0 (by norm_num) d.isLt a.isLt imm.isLt (by norm_num) (by decide) (by simp)

theorem RowMatch.str (s : RegIdx) (a : RegIdx) (imm : BitVec 16) : RowMatch.Statement (.str s a imm) := fun _ =>
  rowI 0xFF 0 (by norm_num) s.isLt a.isLt imm.isLt (by norm_num) (by decide) (by simp)

theorem RowMatch.movr (d : RegIdx) (a : RegIdx) : RowMatch.Statement (.movr d a) := fun _ =>
  rowF 0xFF 0 0 15 15 15 15 (by norm_num) d.isLt a.isLt (by norm_num) (by norm_num) (by norm_num) (by norm_num) (by norm_num) (by simp [sevenFields])

theorem RowMatch.ldc (d : RegIdx) (cid : BitVec 4) : RowMatch.Statement (.ldc d cid) := fun _ =>
  rowF 0xFF 0 15 15 15 15 0 (by norm_num) d.isLt (by norm_num) (by norm_num) (by norm_num) (by norm_num) cid.isLt (by norm_num) (by simp [sevenFields])

theorem RowMatch.pldg (d : RegIdx) : RowMatch.Statement (.pldg d) := fun _ =>
  rowF 0xFF 0 15 15 15 15 15 (by norm_num) d.isLt (by norm_num) (by norm_num) (by norm_num) (by norm_num) (by norm_num) (by norm_num) (by simp [sevenFields])

theorem RowMatch.pset (d : RegIdx) (a : RegIdx) (b : RegIdx) : RowMatch.Statement (.pset d a b) := fun _ =>
  rowF 0xFF 0 0 0 15 15 15 (by norm_num) d.isLt a.isLt b.isLt (by norm_num) (by norm_num) (by norm_num) (by norm_num) (by simp [sevenFields])

theorem RowMatch.pget (d : RegIdx) (e : RegIdx) (a : RegIdx) : RowMatch.Statement (.pget d e a) := fun _ =>
  rowF 0xFF 0 0 0 15 15 15 (by norm_num) d.isLt e.isLt a.isLt (by norm_num) (by norm_num) (by norm_num) (by norm_num) (by simp [sevenFields])

theorem RowMatch.pmov (d : RegIdx) (a : RegIdx) : RowMatch.Statement (.pmov d a) := fun _ =>
  rowF 0xFF 0 0 15 15 15 15 (by norm_num) d.isLt a.isLt (by norm_num) (by norm_num) (by norm_num) (by norm_num) (by norm_num) (by simp [sevenFields])

theorem RowMatch.psetinf (d : RegIdx) : RowMatch.Statement (.psetinf d) := fun _ =>
  rowF 0xFF 0 15 15 15 15 15 (by norm_num) d.isLt (by norm_num) (by norm_num) (by norm_num) (by norm_num) (by norm_num) (by norm_num) (by simp [sevenFields])

theorem RowMatch.montmul (d : RegIdx) (a : RegIdx) (b : RegIdx) (m : Modulus) : RowMatch.Statement (.montmul d a b m) := by
  intro _
  cases m <;> exact rowF 0xFF 0 0 0 15 15 14 (by norm_num) d.isLt a.isLt b.isLt (by norm_num) (by norm_num) (by decide) (by norm_num) (by simp [sevenFields, modulusBit])

theorem RowMatch.fadd (d : RegIdx) (a : RegIdx) (b : RegIdx) (m : Modulus) : RowMatch.Statement (.fadd d a b m) := by
  intro _
  cases m <;> exact rowF 0xFF 0 0 0 15 15 14 (by norm_num) d.isLt a.isLt b.isLt (by norm_num) (by norm_num) (by decide) (by norm_num) (by simp [sevenFields, modulusBit])

theorem RowMatch.fsub (d : RegIdx) (a : RegIdx) (b : RegIdx) (m : Modulus) : RowMatch.Statement (.fsub d a b m) := by
  intro _
  cases m <;> exact rowF 0xFF 0 0 0 15 15 14 (by norm_num) d.isLt a.isLt b.isLt (by norm_num) (by norm_num) (by decide) (by norm_num) (by simp [sevenFields, modulusBit])

theorem RowMatch.padd (d : RegIdx) (a : RegIdx) (b : RegIdx) : RowMatch.Statement (.padd d a b) := fun _ =>
  rowF 0xFF 0 0 0 15 15 15 (by norm_num) d.isLt a.isLt b.isLt (by norm_num) (by norm_num) (by norm_num) (by norm_num) (by simp [sevenFields])

theorem RowMatch.pdbl (d : RegIdx) (a : RegIdx) : RowMatch.Statement (.pdbl d a) := fun _ =>
  rowF 0xFF 0 0 15 15 15 15 (by norm_num) d.isLt a.isLt (by norm_num) (by norm_num) (by norm_num) (by norm_num) (by norm_num) (by simp [sevenFields])

theorem RowMatch.smul (d : RegIdx) (k : RegIdx) (a : RegIdx) : RowMatch.Statement (.smul d k a) := fun _ =>
  rowF 0xFF 0 0 0 15 15 15 (by norm_num) d.isLt k.isLt a.isLt (by norm_num) (by norm_num) (by norm_num) (by norm_num) (by simp [sevenFields])

theorem RowMatch.pchk (a : RegIdx) : RowMatch.Statement (.pchk a) := fun _ =>
  rowF 0xFF 0 15 15 15 15 15 (by norm_num) a.isLt (by norm_num) (by norm_num) (by norm_num) (by norm_num) (by norm_num) (by norm_num) (by simp [sevenFields])

theorem RowMatch.pinf (a : RegIdx) : RowMatch.Statement (.pinf a) := fun _ =>
  rowF 0xFF 0 15 15 15 15 15 (by norm_num) a.isLt (by norm_num) (by norm_num) (by norm_num) (by norm_num) (by norm_num) (by norm_num) (by simp [sevenFields])

theorem RowMatch.penc (o : RegIdx) (d : RegIdx) (a : RegIdx) (form : BitVec 4) : RowMatch.Statement (.penc o d a form) := fun _ =>
  rowF 0xFF 0 0 0 15 15 0 (by norm_num) o.isLt d.isLt a.isLt (by norm_num) (by norm_num) form.isLt (by norm_num) (by simp [sevenFields])

theorem RowMatch.pdec (d : RegIdx) (s : RegIdx) (l : RegIdx) : RowMatch.Statement (.pdec d s l) := fun _ =>
  rowF 0xFF 0 0 0 15 15 15 (by norm_num) d.isLt s.isLt l.isLt (by norm_num) (by norm_num) (by norm_num) (by norm_num) (by simp [sevenFields])

theorem RowMatch.kdf (d : RegIdx) (s : RegIdx) (l : RegIdx) (o : RegIdx) : RowMatch.Statement (.kdf d s l o) := fun _ =>
  rowF 0xFF 0 0 0 0 15 15 (by norm_num) d.isLt s.isLt l.isLt o.isLt (by norm_num) (by norm_num) (by norm_num) (by simp [sevenFields])

theorem RowMatch.encrypt (o : RegIdx) (d : RegIdx) (s : RegIdx) (l : RegIdx) (q : RegIdx) : RowMatch.Statement (.encrypt o d s l q) := fun _ =>
  rowF 0xFF 0 0 0 0 0 15 (by norm_num) o.isLt d.isLt s.isLt l.isLt q.isLt (by norm_num) (by norm_num) (by simp [sevenFields])

theorem RowMatch.decrypt (o : RegIdx) (d : RegIdx) (s : RegIdx) (l : RegIdx) (k : RegIdx) (raw : Bool) : RowMatch.Statement (.decrypt o d s l k raw) := by
  intro _
  cases raw <;> exact rowF 0xFF 0 0 0 0 0 14 (by norm_num) o.isLt d.isLt s.isLt l.isLt k.isLt (by decide) (by norm_num) (by simp [sevenFields])

theorem RowMatch.za (d : RegIdx) (a : RegIdx) : RowMatch.Statement (.za d a) := fun _ =>
  rowF 0xFF 0 0 15 15 15 15 (by norm_num) d.isLt a.isLt (by norm_num) (by norm_num) (by norm_num) (by norm_num) (by norm_num) (by simp [sevenFields])

theorem RowMatch.sign (o : RegIdx) (d : RegIdx) (s : RegIdx) (l : RegIdx) (k : RegIdx) : RowMatch.Statement (.sign o d s l k) := fun _ =>
  rowF 0xFF 0 0 0 0 0 15 (by norm_num) o.isLt d.isLt s.isLt l.isLt k.isLt (by norm_num) (by norm_num) (by simp [sevenFields])

theorem RowMatch.verify (s : RegIdx) (l : RegIdx) (g : RegIdx) (h : RegIdx) (q : RegIdx) : RowMatch.Statement (.verify s l g h q) := fun _ =>
  rowF 0xFF 0 0 0 0 0 15 (by norm_num) s.isLt l.isLt g.isLt h.isLt q.isLt (by norm_num) (by norm_num) (by simp [sevenFields])

end Sys2Proof.Laws
end

