-- ==== Sys2Proof/Laws/Signature.lean ====
section
/-! SUPPORT. Signatures (R201, R204, R205): the signature equation, when an iteration of the retry loop fails, DER INTEGERs. -/

namespace Sys2Proof.Machine

/-- `1 + d` has an inverse for every private scalar below n - 1 (R201). -/
theorem inverse_coprime {d : Nat} (h : d < Config.n - 1) : inv ((1 + d) % Config.n) Config.n * (1 + d) % Config.n = 1 := by
  have hn : 1 < Config.n := n_prime.one_lt
  rw [Nat.mod_eq_of_lt (show 1 + d < Config.n by omega)]
  apply inv_mul_mod hn
  rw [Nat.coprime_comm, Nat.Prime.coprime_iff_not_dvd n_prime]
  intro hd
  have := Nat.le_of_dvd (by omega) hd
  omega

/-- The signature equation: `s * (1 + d) = k - r * d` modulo n (R201). -/
theorem signS_spec {d k r : Nat} (h : d < Config.n - 1) :
    (((inv ((1 + d) % Config.n) Config.n * subMod k (r * d) Config.n % Config.n : Nat) : Int) * (1 + d)) % Config.n = ((k : Int) - r * d) % Config.n := by
  have hi := inverse_coprime h
  generalize inv ((1 + d) % Config.n) Config.n = di at *
  have hs := subMod_eq_int k (r * d) n_pos
  have e : ((di : Int) * (1 + d)) % Config.n = 1 := by exact_mod_cast hi
  push_cast
  rw [hs]
  push_cast
  rw [Int.mul_emod, Int.emod_emod_of_dvd _ (dvd_refl _), Int.mul_emod (di : Int) _, Int.emod_emod_of_dvd _ (dvd_refl _), ← Int.mul_emod (di : Int) _, ← Int.mul_emod]
  rw [show (di : Int) * ((k : Int) - r * d) * (1 + d) = (di * (1 + d)) * ((k : Int) - r * d) by ring, Int.mul_emod, e, one_mul, Int.emod_emod_of_dvd _ (dvd_refl _)]

theorem signS_zero {d k r : Nat} (h : d < Config.n - 1) :
    inv ((1 + d) % Config.n) Config.n * subMod k (r * d) Config.n % Config.n = 0 ↔ ((k : Int) - r * d) % Config.n = 0 := by
  have hs := signS_spec (k := k) (r := r) h
  constructor
  · intro h0; rw [h0] at hs; simpa using hs.symm
  · intro h0
    have := subMod_eq_int k (r * d) n_pos
    push_cast at this
    rw [h0] at this
    have : subMod k (r * d) Config.n = 0 := by exact_mod_cast this
    simp [this]

/-- When an iteration of SIGN fails (R201). -/
theorem signAttempt_none {d e : Nat} {w : Word256} (h : d < Config.n - 1) :
    signAttempt d e (inv ((1 + d) % Config.n) Config.n) w = none ↔ SignWordFails d e w.toNat := by
  unfold signAttempt SignWordFails
  simp only [← signS_zero h, signR]
  split_ifs with h1 h2 h3
  · exact iff_of_true rfl (by tauto)
  · exact iff_of_true rfl (by tauto)
  · exact iff_of_true rfl (by tauto)
  · refine iff_of_false (by simp) ?_
    rintro (h' | h' | h' | h' | h')
    · exact h1 (.inl h')
    · exact h1 (.inr h')
    · exact h2 (.inl h')
    · exact h2 (.inr h')
    · exact h3 h'

theorem signAttempt_range {d e di w rs} (h : signAttempt d e di w = some rs) : rs.1 < Config.n ∧ rs.2 < Config.n := by
  unfold signAttempt at h
  simp only at h
  split_ifs at h
  injection h with h; subst h
  exact ⟨Nat.mod_lt _ (by decide), Nat.mod_lt _ (by decide)⟩

theorem parseDerInt_error {bs : Bytes} {pos : Nat} {c} (h : parseDerInt bs pos = .error c) : c ∈ [FaultCode.badDer, .intNegative, .intNonminimal, .intTooLong] := by
  unfold parseDerInt at h
  simp only at h
  split_ifs at h <;> (injection h with h; subst h; decide)

/-- The faults of `ParseSig` (R205). -/
theorem parseSig_error {bs : Bytes} {enc} {c} (h : parseSig bs enc = .error c) : c ∈ [FaultCode.plainLength, .badDer, .intNegative, .intNonminimal, .intTooLong] := by
  cases enc with
  | plain =>
    simp only [parseSig, parsePlain] at h
    split_ifs at h; injection h with h; subst h; decide
  | der =>
    simp only [parseSig, parseDer] at h
    split_ifs at h
    · injection h with h; subst h; decide
    · split at h
      · rename_i c' hc
        injection h with h; subst h
        have := parseDerInt_error hc; simp at this ⊢; tauto
      · split at h
        · rename_i c' hc
          injection h with h; subst h
          have := parseDerInt_error hc; simp at this ⊢; tauto
        · split_ifs at h; injection h with h; subst h; decide

theorem byteLength_eq {v L : Nat} (hL : 1 ≤ L) (h1 : 256 ^ (L - 1) ≤ v) (h2 : v < 256 ^ L) : byteLength v = L := by
  unfold byteLength
  have hv : v ≠ 0 := by have := Nat.pow_pos (n := L - 1) (show 0 < 256 by norm_num); omega
  rw [show (256 : Nat) = 2 ^ 8 by norm_num, ← pow_mul] at h1 h2
  have a1 := (Nat.le_log2 hv).mpr h1
  have a2 := (Nat.log2_lt hv).mpr h2
  omega

theorem byteLength_bounds (v : Nat) : v < 256 ^ byteLength v ∧ (v ≠ 0 → 256 ^ (byteLength v - 1) ≤ v) ∧ 1 ≤ byteLength v := by
  unfold byteLength
  refine ⟨?_, ?_, by omega⟩
  · rw [show (256 : Nat) = 2 ^ 8 by norm_num, ← pow_mul]
    refine lt_of_lt_of_le (Nat.lt_log2_self (n := v)) (Nat.pow_le_pow_right (by norm_num) (by omega))
  · intro hv
    rw [show (256 : Nat) = 2 ^ 8 by norm_num, ← pow_mul]
    exact le_trans (Nat.pow_le_pow_right (by norm_num) (by omega)) (Nat.log2_self_le hv)

theorem byteLength_le {v L : Nat} (hL : 1 ≤ L) (h : v < 256 ^ L) : byteLength v ≤ L := by
  obtain ⟨_, b, c⟩ := byteLength_bounds v
  by_contra hh
  have hv : v ≠ 0 := by rintro rfl; simp [byteLength] at hh; omega
  have := Nat.pow_le_pow_right (show 1 ≤ 256 by norm_num) (show L ≤ byteLength v - 1 by omega)
  have := b hv; omega

/-- The contents of a DER INTEGER: their value, and that they are minimal and not negative (R204). -/
theorem derContents_spec (v : Nat) :
   os2i (derContents v) = v ∧ 1 ≤ (derContents v).length ∧ byteAt (derContents v) 0 < 0x80 ∧
   ¬((derContents v).length > 1 ∧ byteAt (derContents v) 0 = 0 ∧ byteAt (derContents v) 1 < 0x80) ∧ (∀ L, 1 ≤ L → v < 256 ^ L → (derContents v).length ≤ L + 1) := by
  obtain ⟨h1, h2, h3⟩ := byteLength_bounds v
  obtain ⟨w, hw⟩ : ∃ w, byteLength v = w + 1 := ⟨byteLength v - 1, by omega⟩
  have hc := i2os_cons v w
  unfold derContents
  simp only [hw]
  rw [hw] at h1 h2
  simp only [Nat.add_sub_cancel] at h2
  have hd : v / 256 ^ w < 256 := by rw [Nat.div_lt_iff_lt_mul (by positivity), ← pow_succ']; exact h1
  have hb0 : byteAt (i2os v (w+1)) 0 = v / 256 ^ w := by rw [hc]; simp [byteAt]; omega
  split_ifs with hs
  · refine ⟨?_, by simp, by simp [byteAt], ?_, ?_⟩
    · rw [os2i_cons]; simp [os2i_i2os_of_lt h1]
    · rintro ⟨_, _, hh⟩
      simp only [byteAt, List.getD_cons_succ] at hh hs
      omega
    · intro L hL hv; have := byteLength_le hL hv; simp; omega
  · refine ⟨os2i_i2os_of_lt h1, by simp, by omega, ?_, ?_⟩
    · rintro ⟨hl, h0, _⟩
      rw [hb0] at h0
      simp at hl
      have hv : v ≠ 0 := by
        rintro rfl
        have : byteLength 0 = 1 := by decide
        omega
      have := Nat.div_pos (h2 hv) (show 0 < 256 ^ w by positivity)
      omega
    · intro L hL hv; have := byteLength_le hL hv; simp; omega

/-- A minimal, non-negative INTEGER is the contents of its value (R204, R205). -/
theorem derContents_unique {c : Bytes} (h1 : 1 ≤ c.length) (h2 : byteAt c 0 < 0x80) (h3 : ¬(c.length > 1 ∧ byteAt c 0 = 0 ∧ byteAt c 1 < 0x80)) :
   derContents (os2i c) = c := by
  cases c with
  | nil => simp at h1
  | cons b c =>
    simp only [byteAt, List.getD_cons_zero, List.getD_cons_succ, List.length_cons] at h2 h3
    have hlt := os2i_lt (b :: c)
    have hlt' := os2i_lt c
    by_cases hb : b.toNat = 0
    · have hb' : b = 0#8 := BitVec.eq_of_toNat_eq (by simpa using hb)
      subst hb'
      have e : os2i (0#8 :: c) = os2i c := by rw [os2i_cons]; simp
      rw [e]
      cases c with
      | nil => decide
      | cons b' c =>
        simp at h3
        have hge : 256 ^ c.length ≤ os2i (b' :: c) := by
          rw [os2i_cons]
          have : 1 ≤ b'.toNat := by omega
          nlinarith [Nat.pow_pos (n := c.length) (show 0 < 256 by norm_num)]
        have hL : byteLength (os2i (b' :: c)) = (b' :: c).length := byteLength_eq (by simp) (by simpa using hge) hlt'
        unfold derContents
        simp only [hL, i2os_os2i]
        simp [byteAt, h3]
    · have hge : 256 ^ c.length ≤ os2i (b :: c) := by
          rw [os2i_cons]
          have : 1 ≤ b.toNat := by omega
          nlinarith [Nat.pow_pos (n := c.length) (show 0 < 256 by norm_num)]
      have hL : byteLength (os2i (b :: c)) = (b :: c).length := byteLength_eq (by simp) (by simpa using hge) hlt
      unfold derContents
      simp only [hL, i2os_os2i]
      have : ¬ byteAt (b :: c) 0 ≥ 128 := by simp [byteAt]; omega
      rw [if_neg this]

theorem derInt_length {v : Nat} (hv : v < 256 ^ 32) : 3 ≤ (derInt v).length ∧ (derInt v).length ≤ 35 := by
  obtain ⟨e1, e2, e3, e4, e5⟩ := derContents_spec v
  have e5 := e5 32 (by norm_num) hv
  simp [derInt]; omega

/-- No signature is longer than `sigmax` (R201, R204). -/
theorem encodeSig_length_le {r s : Nat} (hr : r < Config.n) (hs : s < Config.n) (enc : SigEnc) :
    (encodeSig r s enc).length ≤ sigMax enc := by
  cases enc with
  | plain => simp [encodeSig, sigMax]
  | der =>
    have hn : Config.n < 256 ^ 32 := by decide
    have l1 := derInt_length (v := r) (by omega)
    have l2 := derInt_length (v := s) (by omega)
    simp [encodeSig, sigMax]
    omega

end Sys2Proof.Machine
end

