-- ==== Sys2Proof/Tests/Slice0.lean ====
section
/-! SUPPORT. Tests. Expected values come from the spec: the vectors V<n> of spec/95_test_vectors.md, the worked encodings of
R101, and the examples of the command rules. After them, the witnesses of the statements' hypotheses. -/

namespace Sys2Proof.Tests

open Sys2Proof Sys2Proof.Machine

set_option Elab.async false

/-! ## Well-formedness -/

theorem test_ldc_selector_10_is_ill_formed : (Instr.ldc 0 10#4).wellFormed = false := by decide
theorem test_ldc_selector_9_is_well_formed : (Instr.ldc 0 9#4).wellFormed = true := by decide
theorem test_penc_form_3_is_ill_formed : (Instr.penc 2 1 1 3#4).wellFormed = false := by decide
theorem test_penc_form_2_is_well_formed : (Instr.penc 2 1 1 2#4).wellFormed = true := by decide

/-! ## Decoding: one word of the spec for each command -/

theorem test_decode_nop : decode 0x00000000#32 = .ok .nop := by decide
theorem test_decode_li : decode 0x01300100#32 = .ok (.li 3 256#16) := by decide
theorem test_decode_aaddi : decode 0x02210041#32 = .ok (.aaddi 2 1 65#16) := by decide
theorem test_decode_ldr : decode 0x04100020#32 = .ok (.ldr 1 0 32#16) := by decide
theorem test_decode_str : decode 0x05400040#32 = .ok (.str 4 0 64#16) := by decide
theorem test_decode_movr : decode 0x06500000#32 = .ok (.movr 5 0) := by decide
theorem test_decode_ldc : decode 0x07200008#32 = .ok (.ldc 2 8#4) := by decide
theorem test_decode_pldg : decode 0x08000000#32 = .ok (.pldg 0) := by decide
theorem test_decode_pset : decode 0x09112000#32 = .ok (.pset 1 1 2) := by decide
theorem test_decode_pget : decode 0x0A122000#32 = .ok (.pget 1 2 2) := by decide
theorem test_decode_pmov : decode 0x0B300000#32 = .ok (.pmov 3 0) := by decide
theorem test_decode_psetinf : decode 0x0C700000#32 = .ok (.psetinf 7) := by decide
theorem test_decode_montmul : decode 0x10302000#32 = .ok (.montmul 3 0 2 .p) := by decide
theorem test_decode_fadd : decode 0x11501000#32 = .ok (.fadd 5 0 1 .p) := by decide
theorem test_decode_fsub : decode 0x12601001#32 = .ok (.fsub 6 0 1 .n) := by decide
theorem test_decode_padd : decode 0x20430000#32 = .ok (.padd 4 3 0) := by decide
theorem test_decode_pdbl : decode 0x21300000#32 = .ok (.pdbl 3 0) := by decide
theorem test_decode_smul : decode 0x22100000#32 = .ok (.smul 1 0 0) := by decide
theorem test_decode_pchk : decode 0x23100000#32 = .ok (.pchk 1) := by decide
theorem test_decode_pinf : decode 0x24700000#32 = .ok (.pinf 7) := by decide
theorem test_decode_penc : decode 0x30211001#32 = .ok (.penc 2 1 1 1#4) := by decide
theorem test_decode_pdec : decode 0x31212000#32 = .ok (.pdec 2 1 2) := by decide
theorem test_decode_kdf : decode 0x40312400#32 = .ok (.kdf 3 1 2 4) := by decide
theorem test_decode_encrypt : decode 0x50431210#32 = .ok (.encrypt 4 3 1 2 1) := by decide
theorem test_decode_decrypt : decode 0x51653401#32 = .ok (.decrypt 6 5 3 4 0 true) := by decide
theorem test_decode_za : decode 0x60110000#32 = .ok (.za 1 1) := by decide
theorem test_decode_sign : decode 0x61431200#32 = .ok (.sign 4 3 1 2 0) := by decide
theorem test_decode_verify : decode 0x62123410#32 = .ok (.verify 1 2 3 4 1) := by decide

/-- V73. -/
theorem test_decode_unknown_opcodes :
    [0x03000000#32, 0x0D000000#32, 0x63000000#32, 0xFF000000#32].all (fun w => decode w == .error .unknownOpcode) = true := by decide
/-- V73: a must-be-zero bit is reported before a reserved selector. -/
theorem test_decode_reserved_bits :
    [0x00000001#32, 0x01310005#32, 0x24700001#32, 0x10302002#32, 0x10302100#32, 0x0701000A#32].all
      (fun w => decode w == .error .nonzeroReserved) = true := by decide
/-- V73. -/
theorem test_decode_reserved_selectors :
    [0x0700000A#32, 0x30210003#32].all (fun w => decode w == .error .badFunction) = true := by decide

/-- R99's text of the commands of R101. -/
theorem test_asm : [asm (.li 3 256#16), asm (.ldr 1 0 32#16), asm (.ldc 2 8#4), asm (.montmul 3 0 2 .p), asm (.penc 2 1 1 1#4),
    asm (.decrypt 6 5 3 4 0 true)] =
    ["LI A3, 256", "LDR R1, [A0+32]", "LDC R2, R2P", "MONTMUL R3, R0, R2, p", "PENC A2, A1, P1, C",
      "DECRYPT A6, A5, A3, A4, R0, RAW64"] := by decide +kernel

/-! ## One step on small states -/

/-- A check of the next state an outcome is. -/
def nextIs (o : Host.Outcome State Fault Refusal) (f : State → Bool) : Bool :=
  match o with
  | .next s => f s
  | .fault _ => false
  | .refused _ => false

/-- One step that runs the command word `w` at `s`. -/
def after (s : State) (w : Word) (f : State → Bool) : Bool := nextIs (step (s.withFetchWord 32 w.toNat)) f

/-- The machine after reset with some registers set. -/
def withR (s : State) (i : RegIdx) (v : Nat) : State := s.writeR i (BitVec.ofNat 256 v)
def withA (s : State) (i : RegIdx) (v : Nat) : State := s.writeA i (BitVec.ofNat 32 v)
def withP (s : State) (i : RegIdx) (x y : Nat) : State := s.writeP i (pointReg (.affine x y))
def completes (s : State) : Bool := s.cmdcnt == 1 && !s.err && s.istat.done && !s.istat.err && !s.busy
def faults (c : FaultCode) (s : State) : Bool := s.cmdcnt == 0 && s.err && s.errcode == some c && s.istat.err && !s.istat.done && !s.busy

def d8 : Nat := 0x4BD9A450D7E68A5D7E08EB7A0BFA468FD3EB32B71126246E66249A73A9E4D44A
def q8x : Nat := 0x970AB36C3B870FBC04041087DB1BC36FB4C6E125B5EA406DB0EC3E2F80F0A55D
def q8y : Nat := 0x8AFF28357A0BB215ADC2928BE76F1AFF869BF4C0A3852A78F3B827812C650AD3
def g2x : Nat := 0x56CEFD60D7C87C000D58EF57FA73BA4D9C0DFA08C08A7331495C2E1DA3F2BD52
def g2y : Nat := 0x31B7E7E6CC8189F668535CE0F8EAF1BD6DE84C182F6C8E716F780D3A970A23C3
def g3x : Nat := 0xA97F7CD4B3C993B4BE2DAA8CDB41E24CA13F6BD945302244E26918F1D0509EBF
def g3y : Nat := 0x530B5DD88C688EF5CCC5CEC08A72150F7C400EE5CD045292AAACDD037458F6E6
def maxw : Nat := 2 ^ 256 - 1

/-- R120. -/
theorem test_nop_counts : after State.reset 0x00000000#32 completes = true := by decide +kernel
/-- V72: the immediate is zero-extended. -/
theorem test_li_zero_extends : after State.reset 0x0130FFFF#32 (fun t => t.aNat 3 == 65535 && completes t) = true := by decide +kernel
/-- V72. -/
theorem test_aaddi_wraps : after (withA State.reset 1 0xFFFFFFFF) 0x02210001#32 (fun t => t.aNat 2 == 0) = true := by decide +kernel
/-- V71: the last address in range, and the first out of it. -/
theorem test_str_last_address : after (withR State.reset 0 d8) 0x05000FE0#32
    (fun t => completes t && t.memRead 4064 32 == i2os d8 32) = true := by decide +kernel
theorem test_str_out_of_range : after (withR State.reset 0 d8) 0x05000FE1#32 (faults .dstRange) = true := by decide +kernel
/-- V71: the address does not wrap. -/
theorem test_ldr_does_not_wrap : after (withA State.reset 1 0xFFFFFFFF) 0x0411FFFF#32 (faults .srcRange) = true := by decide +kernel
/-- V70: unaligned, most significant byte first. -/
theorem test_ldr_unaligned : after ((withA State.reset 1 1).memWrite 65 (i2os d8 32)) 0x04210040#32
    (fun t => t.rNat 2 == d8) = true := by decide +kernel
/-- R125's example. -/
theorem test_movr : after (withR State.reset 0 d8) 0x06500000#32 (fun t => t.rNat 5 == d8) = true := by decide +kernel
/-- R126's example, and V10's R2N. -/
theorem test_ldc_r2p : after State.reset 0x07200008#32
    (fun t => t.rNat 2 == 0x0000000400000002000000010000000100000002FFFFFFFF0000000200000003) = true := by decide +kernel
theorem test_ldc_r2n : after State.reset 0x07200009#32
    (fun t => t.rNat 2 == 0x1EB5E412A22B3D3B620FC84C3AFFE0D43464504ADE6FA2FA901192AF7C114F20) = true := by decide +kernel
theorem test_pldg : after State.reset 0x08000000#32 (fun t => t.point 0 == .affine Config.gx Config.gy) = true := by decide +kernel
/-- V25: PSET does not check. -/
theorem test_pset_off_curve : after (withR (withR State.reset 1 q8x) 2 q8x) 0x09112000#32
    (fun t => completes t && t.point 1 == .affine q8x q8x) = true := by decide +kernel
/-- R129's example. -/
theorem test_pget : after (withP State.reset 2 q8x q8y) 0x0A122000#32 (fun t => t.rNat 1 == q8x && t.rNat 2 == q8y) = true := by
  decide +kernel
/-- V28. -/
theorem test_pget_infinity : after State.reset 0x0A125000#32 (faults .infinity) = true := by decide +kernel
theorem test_pmov : after (withP State.reset 0 1 1) 0x0B300000#32 (fun t => t.point 3 == .affine 1 1) = true := by decide +kernel
theorem test_psetinf : after (withP State.reset 7 1 1) 0x0C700000#32 (fun t => regGet t.p 7 == { x := 0, y := 0, inf := true }) = true := by
  decide +kernel
/-- V11, V12. -/
theorem test_montmul_p : after (withR (withR State.reset 0 d8) 2 q8x) 0x10302000#32
    (fun t => t.rNat 3 == 0xD5581CF9B70CAB3C7FDAAD9DFF717B1D8128C8B648F2A5F8F4EC2EF59C127A64) = true := by decide +kernel
theorem test_montmul_n_unreduced : after (withR State.reset 0 maxw) 0x10300001#32
    (fun t => t.rNat 3 == 0x6F39133013ABB48CA81BA1178588D9017EE1720D1DCFF4E6C02D47FC2DE3F4C5) = true := by decide +kernel
/-- V15: p-1 + 1, and unreduced operands. -/
theorem test_fadd_wraps : after (withR (withR State.reset 0 (Config.p - 1)) 1 1) 0x11501000#32
    (fun t => t.rNat 5 == 0 && completes t) = true := by decide +kernel
theorem test_fadd_unreduced : after (withR State.reset 0 maxw) 0x11500000#32
    (fun t => t.rNat 5 == 0x0000000200000000000000000000000000000001FFFFFFFE0000000000000000) = true := by decide +kernel
/-- V16: d8 - Q8x modulo n, and 0 - MAXW. -/
theorem test_fsub_n : after (withR (withR State.reset 0 d8) 1 q8x) 0x12601001#32
    (fun t => t.rNat 6 == 0xB4CEF0E39C5F7AA17A04DAF230DE831F912830FC7D01E92C08F4504D62C97010) = true := by decide +kernel
theorem test_fsub_p_unreduced : after (withR State.reset 1 maxw) 0x12601000#32
    (fun t => t.rNat 6 == 0xFFFFFFFDFFFFFFFFFFFFFFFFFFFFFFFFFFFFFFFE00000001FFFFFFFFFFFFFFFF) = true := by decide +kernel
/-- V21: 2G + G. -/
theorem test_padd : after (withP (withP State.reset 3 g2x g2y) 0 Config.gx Config.gy) 0x20430000#32
    (fun t => t.point 4 == .affine g3x g3y) = true := by decide +kernel
/-- V22: G + (-G), stored one way. -/
theorem test_padd_inverse : after (withP (withP State.reset 3 Config.gx (Config.p - Config.gy)) 0 Config.gx Config.gy) 0x20430000#32
    (fun t => regGet t.p 4 == PointReg.infinity) = true := by decide +kernel
/-- V20. -/
theorem test_pdbl : after (withP State.reset 0 Config.gx Config.gy) 0x21300000#32 (fun t => t.point 3 == .affine g2x g2y) = true := by
  decide +kernel
/-- V21: 3*G. -/
theorem test_smul : after (withR (withP State.reset 0 Config.gx Config.gy) 0 3) 0x22100000#32
    (fun t => t.point 1 == .affine g3x g3y) = true := by decide +kernel
/-- V26: the scalar is not reduced. -/
theorem test_smul_scalar_n : after (withR (withP State.reset 0 Config.gx Config.gy) 0 Config.n) 0x22100000#32
    (faults .scalarRange) = true := by decide +kernel
/-- V25, V27. -/
theorem test_pchk_off_curve : after (withP State.reset 1 q8x q8x) 0x23100000#32 (fun t => completes t && !t.t) = true := by decide +kernel
theorem test_pchk_infinity : after State.reset 0x23100000#32 (fun t => completes t && t.t) = true := by decide +kernel
theorem test_pinf : after State.reset 0x24700000#32 (fun t => completes t && t.t) = true := by decide +kernel
/-- V39. -/
theorem test_penc_compressed : after (withA (withP State.reset 1 q8x q8y) 1 64) 0x30211001#32
    (fun t => t.memRead 64 33 == 0x03#8 :: i2os q8x 32 && t.aNat 2 == 33) = true := by decide +kernel
theorem test_penc_infinity_before_range : after (withA State.reset 1 4032) 0x30211000#32 (faults .infinity) = true := by decide +kernel
/-- V32: the even root. -/
theorem test_pdec_even_root : after ((withA (withA State.reset 1 64) 2 33).memWrite 64 (0x02#8 :: i2os q8x 32)) 0x31212000#32
    (fun t => t.point 2 == .affine q8x 0x7500D7C985F44DEA523D6D741890E50079640B3E5C7AD5880C47D87ED39AF52C) = true := by decide +kernel
/-- V37. -/
theorem test_pdec_no_root : after ((withA (withA State.reset 1 64) 2 33).memWrite 64 (0x02#8 :: i2os 2 32)) 0x31212000#32
    (faults .noSqrt) = true := by decide +kernel
/-- V43: overlapping regions. -/
theorem test_kdf_overlap : after ((withA (withA State.reset 2 3) 4 16).memWrite 0 [0x61#8, 0x62#8, 0x63#8]) 0x40312400#32
    (fun t => t.memRead 0 16 == i2os 0xFE1EA80DAC6F100C33537BD24619EC7C 16) = true := by decide +kernel
/-- V43: an empty region is in range up to address BUFSZ only. -/
theorem test_kdf_empty_region : after (withA (withA (withA State.reset 1 4097) 3 100) 4 1) 0x40312400#32 (faults .srcRange) = true := by
  decide +kernel
/-- V51: an empty plaintext, and eight words out of range. -/
theorem test_encrypt_empty : after (withA State.reset 1 5000) 0x50431210#32 (faults .empty) = true := by decide +kernel
theorem test_encrypt_exhausted :
    after ({ withA (withA (withP State.reset 1 q8x q8y) 2 19) 3 256 with rng := { words := List.replicate 9 0, drawn := 0 } }) 0x50431210#32
      (fun t => faults .retryExhausted t && t.rng == { words := [0], drawn := 8 }) = true := by decide +kernel
/-- V52. -/
theorem test_decrypt_bad_prefix : after ((withA (withA State.reset 3 512) 4 116).memWrite 512 [0x05#8]) 0x51653400#32
    (faults .badPrefix) = true := by decide +kernel
theorem test_decrypt_short : after ((withA (withA State.reset 3 512) 4 97).memWrite 512 [0x04#8]) 0x51653400#32
    (faults .shortCiphertext) = true := by decide +kernel
/-- R202's example. -/
theorem test_za : after (withP State.reset 1 0x09F9DF311E5421A150DD7D161E4BC5C672179FAD1833FC076BB08FF356F35020
      0xCCEA490CE26775A52DC6EA718CC1AA600AED05FBF35E084A6632F6072DA9AD13) 0x60110000#32
    (fun t => t.rNat 1 == 0xB2E14C5C79C6DF5B85F4FE7ED8DB7A262B9DA7E07CCB0EA9F4747B8CCDA8A4F3) = true := by decide +kernel
/-- V60: d = 1, the RNG word 1, message "message digest", Plain. -/
def signState : State :=
  { (withR (withA (withA (withA State.reset 1 32) 2 14) 3 128) 0 1).memWrite 32
      [0x6D#8, 0x65#8, 0x73#8, 0x73#8, 0x61#8, 0x67#8, 0x65#8, 0x20#8, 0x64#8, 0x69#8, 0x67#8, 0x65#8, 0x73#8, 0x74#8] with
    cfg := { mode := .c1c3c2, sigenc := .plain, c1form := .uncompressed }
    rng := { words := [1], drawn := 0 } }
theorem test_sign_plain : after signState 0x61431200#32 (fun t => t.aNat 4 == 64 && t.rng == { words := [], drawn := 1 } &&
    t.memRead 128 64 == i2os 0x7223B3AD96142B88D5185B9A3D729278EB189594E2B8838DF9F218106C89EE24 32 ++
      i2os 0x46EE2628B4F5EA3B9573D232E146B6C34375A4EB1F86C0CEACE4EDFC66A5A980 32) = true := by decide +kernel
/-- V61. -/
theorem test_sign_no_inverse : after (withR signState 0 (Config.n - 1)) 0x61431200#32
    (fun t => faults .noInverse t && t.rng.drawn == 0) = true := by decide +kernel
/-- V62: r = 0 gives false before the key, here INF, is looked at. -/
theorem test_verify_out_of_range : after ({ (withA (withA State.reset 3 128) 4 64).memWrite 128 (i2os 1 64) with
      cfg := { mode := .c1c3c2, sigenc := .plain, c1form := .uncompressed }, t := true }) 0x62123410#32
    (fun t => completes t && !t.t) = true := by decide +kernel
/-- V48: a negative INTEGER is a fault, and T keeps its value. -/
theorem test_verify_negative_integer : after ({ (withA (withA State.reset 3 128) 4 8).memWrite 128
      [0x30#8, 0x06#8, 0x02#8, 0x01#8, 0x80#8, 0x02#8, 0x01#8, 0x01#8] with t := true }) 0x62123410#32
    (fun t => faults .intNegative t && t.t) = true := by decide +kernel

/-- V45, V46. -/
theorem test_encode_der : encodeSig 1 1 .der = [0x30#8, 0x06#8, 0x02#8, 0x01#8, 0x01#8, 0x02#8, 0x01#8, 0x01#8] ∧
    encodeSig 0x80 0x7F .der = [0x30#8, 0x07#8, 0x02#8, 0x02#8, 0x00#8, 0x80#8, 0x02#8, 0x01#8, 0x7F#8] := by decide +kernel

/-! ## The host's side -/

/-- The machine with one access waiting. -/
def waiting (s : State) (a : Access) : State := { s with inputs := [{ access := a, arrival := .afterCommand }] }

/-- V76: reads after reset. -/
theorem test_host_reads :
    [(0x00000#17, 0x534D3243#32), (0x00024#17, 0x10#32), (0x02000#17, 0x31323334#32), (0x02004#17, 0x35363738#32), (0x02010#17, 0#32),
      (0x00030#17, 0#32), (0x00028#17, 0#32)].all
      (fun r => nextIs (step (waiting State.reset (.read r.1))) (fun t => t.readData == r.2)) = true := by decide +kernel
/-- V76: CFG is write-any-read-legal. -/
theorem test_cfg_write : nextIs (step (waiting State.reset (.write 0x0C#17 0xFFFFFFFF#32))) (fun t => cfgWord t.cfg == 3#32) = true ∧
    nextIs (step (waiting State.reset (.write 0x0C#17 9#32))) (fun t => cfgWord t.cfg == 9#32) = true := by decide +kernel
/-- V76: IDLEN above IDMAX is ignored. -/
theorem test_idlen_write : nextIs (step (waiting State.reset (.write 0x24#17 0x101#32))) (fun t => t.idlen == 16) = true ∧
    nextIs (step (waiting State.reset (.write 0x24#17 0x100#32))) (fun t => t.idlen == 0x100) = true := by decide +kernel
/-- V70: the packing of a DBUF word. -/
theorem test_dbuf_word : nextIs (step (waiting (State.reset.memWrite 64 (i2os d8 32)) (.read 0x10040#17)))
    (fun t => t.readData == 0x4BD9A450#32) = true := by decide +kernel
/-- V74: fault entry, drop, acknowledge. -/
theorem test_fault_entry : after State.reset 0x03000000#32 (fun t => t.statusWord == 2 && errcodeWord t.errcode == 0x0106 &&
    t.errcmd == 0x03000000 && t.cmdcnt == 0 && irqWord t.istat == 2) = true := by decide +kernel
theorem test_cmd_dropped : nextIs (step (waiting (State.reset.raise .unknownOpcode) (.write 0x28#17 0x01100005#32)))
    (fun t => !t.busy && t.aNat 1 == 0 && t == State.reset.raise .unknownOpcode) = true := by decide +kernel
theorem test_acknowledge : nextIs (step (waiting (State.reset.raise .unknownOpcode) (.write 0x08#17 2#32)))
    (fun t => !t.err && t.errcode == some .unknownOpcode && t.istat.err) = true := by decide +kernel
/-- R281: a read of STATUS issued behind a held CMD write is answered at once, BUSY = 1; one not yet issued is not. -/
theorem test_status_read_overtakes :
    nextIs (step { State.reset with busy := true, inputs :=
        [{ access := .write 0x28#17 0#32, arrival := .afterCommand }, { access := .read 0x08#17, arrival := .duringCommand 1 }] })
      (fun t => t.readData == 1 && t.busy && t.inputs.length == 1) = true ∧
    nextIs (step { State.reset with busy := true, inputs :=
        [{ access := .write 0x28#17 0#32, arrival := .afterCommand }, { access := .read 0x08#17, arrival := .duringCommand 0 }] })
      (fun t => t.cmdcnt == 1 && t.inputs.length == 2) = true := by decide +kernel
/-- V75: irq follows ERR_IP and ERR_IE. -/
theorem test_irq : State.irq { State.reset with ien := { done := false, err := true }, istat := { done := true, err := false } } = false ∧
    State.irq { State.reset with ien := { done := false, err := true }, istat := { done := true, err := true } } = true := by decide

/-! ## Witnesses: a state and operands for the hypotheses of each statement, clause by clause, at the ends of its ranges -/

/-- What a check of an outcome says. -/
theorem nextIs_next {o : Host.Outcome State Fault Refusal} {f : State → Bool} (h : nextIs o f = true) :
    ∃ s', o = .next s' ∧ f s' = true := by
  cases o with
  | next s' => exact ⟨s', rfl, h⟩
  | fault e => cases e
  | refused r => cases h

def input (a : Access) : Input := { access := a, arrival := .afterCommand }
def during (a : Access) : Input := { access := a, arrival := .duringCommand 0 }
/-- An access issued during a command, behind up to `k` held ones. -/
def overtaking (k : Nat) (a : Access) : Input := { access := a, arrival := .duringCommand k }
def idle (q : List Input) : State := { State.reset with inputs := q }
def running (w : Word) (q : List Input) : State := { State.reset with busy := true, cmd := w, inputs := q }

theorem witness_EncodingMap : (9#4).toNat < 10 ∧ (2#4).toNat < 3 ∧
    commandMap.lookup ((0x03000000#32).extractLsb' 24 8) = none := by decide

theorem witness_DecodeOrder_unknown : commandMap.lookup ((running 0x63000000#32 []).cmd.extractLsb' 24 8) = none := by decide
theorem witness_DecodeOrder_reserved_bit : commandMap.lookup ((running 0x30210013#32 []).cmd.extractLsb' 24 8) = some 0x000FF0#24 ∧
    (running 0x30210013#32 []).cmd.extractLsb' 0 24 &&& 0x000FF0#24 ≠ 0#24 := by decide
theorem witness_DecodeOrder_reserved_form : (running 0x30210003#32 []).cmd.extractLsb' 0 24 &&& 0x000FF0#24 = 0#24 ∧
    reservedFunction (running 0x30210003#32 []).cmd := by unfold reservedFunction; decide
theorem witness_DecodeOrder_reserved_cid : (running 0x0700000A#32 []).cmd.extractLsb' 0 24 &&& 0x0FFFF0#24 = 0#24 ∧
    reservedFunction (running 0x0700000A#32 []).cmd := by unfold reservedFunction; decide
theorem witness_DecodeOrder_command : (running 0x30210002#32 []).cmd.extractLsb' 0 24 &&& 0x000FF0#24 = 0#24 ∧
    ¬reservedFunction (running 0x30210002#32 []).cmd := by unfold reservedFunction; decide

/-- For the clause `ReservedBitsFault` of every command statement: the word whose must-be-zero bits are all 1. -/
theorem witness_ReservedBitsFault : commandMap.all (fun e =>
    (running (BitVec.ofNat 32 (e.1.toNat * 2 ^ 24 + e.2.toNat)) []).cmd.extractLsb' 24 8 == e.1 &&
      (e.2 == 0#24 || (running (BitVec.ofNat 32 (e.1.toNat * 2 ^ 24 + e.2.toNat)) []).cmd.extractLsb' 0 24 &&& e.2 != 0#24)) = true := by
  decide +kernel

theorem witness_PseudoInstructions_registers : (1 : RegIdx) ≠ 0 := by decide
theorem witness_PseudoInstructions_scalar : 1 ≤ (withR State.reset 0 (Config.n - 1)).rNat 0 ∧
    (withR State.reset 0 (Config.n - 1)).rNat 0 < Config.n := by decide +kernel

theorem witness_StepRunsDecodedCommand : (running 0x01300100#32 []).busy = true ∧ (running 0x01300100#32 []).duringCommand = none ∧
    decode (running 0x01300100#32 []).cmd = .ok (.li 3 256#16) ∧ (Instr.ldc 0 9#4).wellFormed = true := by decide

theorem witness_CommandWrite_dropped :
    ({ idle [input (.write 0x28#17 0#32)] with err := true } : State).busy = false ∧
      ({ idle [input (.write 0x28#17 0#32)] with err := true } : State).err = true := by decide
theorem witness_CommandWrite_accepted : (idle [input (.write 0x28#17 0#32)]).busy = false ∧
    (idle [input (.write 0x28#17 0#32)]).err = false ∧
    ({ idle [input (.write 0x28#17 0#32)] with inputs := [], busy := true, cmd := 0#32 } : State).duringCommand = none := by decide
theorem witness_CommandWrite_held : (running 0#32 [during (.write 0x28#17 1#32)]).busy = true ∧
    (running 0#32 [during (.write 0x28#17 1#32)]).inputs = { access := .write 0x28#17 1#32, arrival := .duringCommand 0 } :: [] := by decide

theorem witness_FaultStopsQueue :
    (∀ x ∈ [input (.write 0x28#17 0#32), during (.write 0x28#17 1#32)], ∃ w : Word, x.access = .write 0x28#17 w) ∧
      ({ idle ([input (.write 0x28#17 0#32), during (.write 0x28#17 1#32)] ++ [input (.read 0#17)]) with err := true } : State).busy =
        false := by
  refine ⟨?_, rfl⟩
  intro x hx
  simp only [List.mem_cons, List.not_mem_nil, or_false] at hx
  rcases hx with rfl | rfl
  · exact ⟨_, rfl⟩
  · exact ⟨_, rfl⟩

theorem witness_HeldAccesses_answered : (running 0#32 [during (.write 0x28#17 0#32), overtaking 1 (.read 0x08#17)]).busy = true ∧
    ReachesRunning (running 0#32 [during (.write 0x28#17 0#32), overtaking 1 (.read 0x08#17)]).inputs (.read 0x08#17)
      [during (.write 0x28#17 0#32)] ∧
    ReachesRunning (running 0#32 [during (.read 0x20#17)]).inputs (.read 0x20#17) [] :=
  ⟨rfl, (reachesRunning_iff _ _ _).2 (by decide), (reachesRunning_iff _ _ _).2 (by decide)⟩
theorem witness_HeldAccesses_held : (running 0#32 [during (.read 0x0C#17), during (.read 0x08#17)]).busy = true ∧
    ¬∃ a rest, ReachesRunning (running 0#32 [during (.read 0x0C#17), during (.read 0x08#17)]).inputs a rest :=
  ⟨rfl, (duringCommand_eq_none _).1 (by decide)⟩
theorem witness_HeldAccesses_later : (idle [input (.read 0x0C#17)]).busy = false := by decide

/-- For the hypotheses `step s = .next s'` and `exec i s = .next s'` of the statements about every step. -/
theorem witness_next_step : ∃ s', step (running 0x23000000#32 []) = .next s' ∧ s'.t = true :=
  nextIs_next (f := fun s' => s'.t == true) (by decide +kernel) |>.imp fun _ h => ⟨h.1, by simpa using h.2⟩

theorem witness_CommandCounter_end : (running 0#32 []).busy = true ∧ (running 0#32 []).duringCommand = none ∧
    (running 0#32 []).err = false ∧
    step { running 0#32 [] with cmdcnt := 0xFFFFFFFF#32 } = .next (State.complete { running 0#32 [] with cmdcnt := 0xFFFFFFFF#32 }) ∧
    (State.complete { running 0#32 [] with cmdcnt := 0xFFFFFFFF#32 }).err = false ∧
    step (running 0x03000000#32 []) = .next ((running 0x03000000#32 []).raise .unknownOpcode) ∧
    ((running 0x03000000#32 []).raise .unknownOpcode).err = true :=
  ⟨rfl, rfl, rfl, rfl, rfl, rfl, rfl⟩
theorem witness_CommandCounter_reset : (idle [input (.hwReset 0)]).TakesReset ∧ (idle [input (.write 0x04#17 1#32)]).TakesReset ∧
    (running 0#32 [during (.write 0x28#17 0#32), overtaking 1 (.hwReset 0)]).TakesReset :=
  ⟨.inl ⟨rfl, _, _, rfl, .inl ⟨_, rfl⟩⟩, .inl ⟨rfl, _, _, rfl, .inr ⟨_, rfl, by decide⟩⟩,
    .inr ⟨rfl, 0, _, (reachesRunning_iff _ _ _).2 rfl⟩⟩
theorem witness_CommandCounter_kept : ¬(idle []).TakesReset ∧ (idle []).busy = false ∧
    ¬(running 0#32 [during (.read 0x08#17)]).TakesReset ∧ (running 0#32 [during (.read 0x08#17)]).duringCommand ≠ none := by
  refine ⟨?_, rfl, ?_, by decide⟩
  · rintro (⟨-, x, rest, h, -⟩ | ⟨h, -⟩) <;> cases h
  · rintro (⟨h, -⟩ | ⟨-, n, rest, h⟩)
    · cases h
    · exact absurd ((reachesRunning_iff _ _ _).1 h) (by simp [running, during, takeDuring, Access.answeredWhileBusy, Arrival.issuedBehind])

theorem witness_ResetValues : (idle [input (.hwReset 3)]).busy = false ∧ (idle [input (.write 0x04#17 1#32)]).busy = false ∧
    (1#32).getLsbD 0 = true ∧ (2#32).getLsbD 0 = false := by decide
theorem witness_ResetAtAnyTime_abandons : (running 0x61431200#32 [during (.write 0x28#17 0#32), overtaking 1 (.hwReset 3)]).busy = true ∧
    ReachesRunning (running 0x61431200#32 [during (.write 0x28#17 0#32), overtaking 1 (.hwReset 3)]).inputs (.hwReset 3)
      [during (.write 0x28#17 0#32)] ∧
    decode (running 0x61431200#32 []).cmd = .ok (.sign 4 3 1 2 0) ∧ decode (running 0#32 []).cmd = .ok .nop :=
  ⟨rfl, (reachesRunning_iff _ _ _).2 rfl, by decide, by decide⟩
theorem witness_ResetAtAnyTime_held : (running 0#32 [during (.write 0x04#17 1#32)]).busy = true ∧
    (running 0#32 [during (.write 0x04#17 1#32)]).duringCommand = none := by decide

/-- A sound state in which a command is about to run, and its step. -/
theorem witness_StepKeepsSound : State.Sound (running 0x01300100#32 []) ∧ ∃ s', step (running 0x01300100#32 []) = .next s' :=
  ⟨⟨by decide, by decide, by decide, by decide, by decide, by decide, by decide⟩, _, rfl⟩

/-- The ends of every range of the window: each read answers. -/
theorem witness_HostWindow_reads :
    [0x00#17, 0x04#17, 0x08#17, 0x0C#17, 0x10#17, 0x14#17, 0x18#17, 0x1C#17, 0x20#17, 0x24#17, 0x28#17, 0x2C#17, 0x3C#17, 0x40#17, 0x7C#17,
      0x80#17, 0x1FFC#17, 0x2000#17, 0x20FC#17, 0x2100#17, 0xFFFC#17, 0x10000#17, 0x10FFC#17, 0x11000#17, 0x1FFFC#17].all
      (fun off => (idle [input (.read off)]).params.ok && !(idle [input (.read off)]).busy && off.toNat % 4 == 0 &&
        nextIs (step (idle [input (.read off)])) (fun s' => s'.inputs.isEmpty)) = true := by decide
theorem witness_HostWindow_writes :
    [0x00#17, 0x10#17, 0x14#17, 0x18#17, 0x2C#17, 0x3C#17, 0x80#17, 0x1FFC#17, 0x2100#17, 0xFFFC#17, 0x11000#17, 0x1FFFC#17].all
      (fun off : HostOffset => off.toNat % 4 == 0 && decide (off.toNat ∈ [0x00, 0x10, 0x14, 0x18] ∨ (0x2C ≤ off.toNat ∧ off.toNat < 0x40) ∨
        (0x80 ≤ off.toNat ∧ off.toNat < 0x2000) ∨ (0x2000 + 256 ≤ off.toNat ∧ off.toNat < 0x10000) ∨ 0x10000 + 4096 ≤ off.toNat)) = true := by
  decide

theorem witness_ConfigurationWrites_cfg : (idle [input (.write 0x0C#17 0#32)]).busy = false ∧ (0#32).extractLsb' 2 2 = 0#2 ∧
    (4#32).extractLsb' 2 2 = 1#2 ∧ (8#32).extractLsb' 2 2 = 2#2 ∧ (12#32).extractLsb' 2 2 = 3#2 := by decide
theorem witness_ConfigurationWrites_idlen : (idle [input (.write 0x24#17 256#32)]).busy = false ∧
    ((256#32).extractLsb' 0 16).toNat ≤ State.reset.params.idmax ∧ State.reset.params.idmax < ((257#32).extractLsb' 0 16).toNat := by decide
theorem witness_InterruptBits : (idle [input (.write 0x20#17 1#32)]).busy = false ∧ (idle [input (.write 0x1C#17 3#32)]).busy = false ∧
    (1#32).getLsbD 0 = true ∧ (1#32).getLsbD 1 = false ∧ (2#32).getLsbD 0 = false ∧ (2#32).getLsbD 1 = true := by decide
theorem witness_AcknowledgeFault :
    ({ idle [input (.write 0x08#17 2#32), input (.write 0x28#17 0#32)] with err := true } : State).busy = false ∧
      (2#32).getLsbD 1 = true ∧ (5#32).getLsbD 1 = false := by decide

/-- The first and the last word of both byte memories. -/
theorem witness_HostWordView : State.Sound (idle [input (.write (BitVec.ofNat 17 (0x10000 + 4 * 1023)) 1#32)]) ∧
    4 * 1023 < State.reset.params.bufsz ∧ 4 * 63 < State.reset.params.idmax :=
  ⟨⟨by decide, by decide, by decide, by decide, by decide, by decide, by decide⟩, by decide, by decide⟩

theorem witness_HostCannotReachKeys : State.reset.perform (.write 0x04#17 1#32) = .next State.reset.resetCore ∧
    (∃ s', State.reset.perform (.read 0x40#17) = .next s') ∧ State.reset.perform (.read 1#17) = .refused .unalignedHostAccess :=
  ⟨rfl, ⟨_, rfl⟩, rfl⟩

theorem witness_MemoryReadsWrites : 1 < [0x01#8, 0x02#8].length ∧ (4 < 5 ∨ 5 + [0x01#8, 0x02#8].length ≤ 4) ∧
    (7 < 5 ∨ 5 + [0x01#8, 0x02#8].length ≤ 7) := by decide
theorem witness_MemoryCanonical : Memory.wf dbufUnlisted [(0, 1#8), (4095, 0#8)] = true ∧ Memory.wf idbufUnlisted [(0, 0#8)] = true ∧
    (∀ x, ((Memory.written [(0, 1#8)] x).or (dbufUnlisted x)) = ((Memory.written [(0, 1#8)] x).or (dbufUnlisted x))) :=
  ⟨by decide, by decide, fun _ => rfl⟩

theorem witness_NopAndImmediates : (0x02FFFFFF#32).extractLsb' 24 8 = 0x02#8 := by decide
theorem witness_LoadRegister : State.reset.aNat 0 + (4064#16).toNat + 32 ≤ State.reset.params.bufsz ∧
    State.reset.params.bufsz < State.reset.aNat 0 + (4065#16).toNat + 32 := by decide
theorem witness_StoreRegister : State.reset.effAddr 0 4064#16 + 32 ≤ State.reset.params.bufsz ∧
    State.reset.params.bufsz < State.reset.effAddr 0 4065#16 + 32 := by decide
theorem witness_StoreThenLoad : State.reset.effAddr 0 4064#16 + 32 ≤ State.reset.params.bufsz ∧
    State.reset.effAddr 0 4064#16 ≤ 4 * 1016 ∧ 4 * 1023 + 4 ≤ State.reset.effAddr 0 4064#16 + 32 := by decide
theorem witness_EveryCommandEnds : (Instr.ldc 0 10#4).wellFormed = false ∧ (Instr.penc 0 0 0 15#4).wellFormed = false := by decide

theorem witness_CopyAndConstants : (9#4).toNat < 10 ∧ 10 ≤ (10#4).toNat ∧
    (running 0x0720000A#32 []).cmd = 0x07#8 ++ regField 2 ++ 0#16 ++ 10#4 := by decide
theorem witness_PointCoordinates : (regGet State.reset.p 0).inf = true ∧ (regGet (withP State.reset 0 1 1).p 0).inf = false ∧
    (1 : RegIdx) ≠ 2 := by decide

theorem witness_MontgomeryProduct : Config.p % 2 = 1 ∧ 2 ^ 255 < Config.p ∧ Config.p < 2 ^ 256 ∧ maxw < 2 ^ 256 := by decide +kernel
theorem witness_PointAddFormulas : onCurve generator = true ∧ onCurve (.affine Config.gx (Config.p - Config.gy)) = true ∧
    (Config.gy + (Config.p - Config.gy)) % Config.p = 0 ∧ (Config.gy + Config.gy) % Config.p ≠ 0 ∧ onCurve (.affine g2x g2y) = true ∧
    Config.gx ≠ g2x ∧ Config.gy ≠ 0 := by decide +kernel
theorem witness_PointAddGroup : onCurve generator = true ∧ onCurve (.affine g2x g2y) = true ∧ onCurve (.affine g3x g3y) = true ∧
    onCurve .inf = true := by decide +kernel
theorem witness_ScalarMulIsSum : onCurve generator = true ∧ 1 ≤ 2 ^ 256 - 2 ∧ 2 ^ 256 - 2 + 1 < 2 ^ 256 ∧ 2 ^ 128 * (2 ^ 128 - 1) < 2 ^ 256 := by
  decide +kernel
theorem witness_GeneratorOrder : 1 ≤ Config.n - 1 ∧ Config.n - 1 < Config.n ∧
    scalarMul 1 generator = scalarMul 1 generator ∧ 1 < Config.n := by decide +kernel

theorem witness_PointSumAndDouble : onCurve ((withP State.reset 0 1 1).point 0) = false ∧ onCurve (State.reset.point 0) = true ∧
    onCurve ((withP State.reset 0 Config.gx Config.gy).point 0) = true := by decide +kernel
theorem witness_ScalarMultiply : onCurve (State.reset.point 0) = true ∧ State.reset.rNat 0 = 0 ∧
    Config.n ≤ (withR State.reset 0 Config.n).rNat 0 ∧ 1 ≤ (withR State.reset 0 1).rNat 0 ∧
    (withR State.reset 0 (Config.n - 1)).rNat 0 < Config.n ∧ onCurve ((withP State.reset 0 1 1).point 0) = false := by decide +kernel

theorem witness_PointEncode_reserved_form : 3 ≤ (3#4).toNat ∧
    (running 0x30211003#32 []).cmd = 0x30#8 ++ regField 2 ++ regField 1 ++ regField 1 ++ 0#8 ++ 3#4 := by decide
theorem witness_PointEncode : (2#4).toNat < 3 ∧ 3 ≤ (3#4).toNat ∧ State.reset.point 0 = .inf ∧
    onCurve ((withP State.reset 0 1 1).point 0) = false ∧
    (withP State.reset 0 Config.gx Config.gy).point 0 = .affine Config.gx Config.gy ∧ onCurve (.affine Config.gx Config.gy) = true ∧
    (withA State.reset 1 4063).aNat 1 + formLength 1#4 ≤ State.reset.params.bufsz ∧
    State.reset.params.bufsz < (withA State.reset 1 4064).aNat 1 + formLength 1#4 ∧
    (withA State.reset 1 4031).aNat 1 + formLength 2#4 ≤ State.reset.params.bufsz := by decide +kernel
/-- The last region in range, holding an encoded point, and holding none. -/
def decodeState (b : Byte) : State := (withA (withA State.reset 1 4063) 2 33).memWrite 4063 (b :: i2os Config.gx 32)
theorem witness_PointDecode : State.reset.params.bufsz < (withA State.reset 1 4097).aNat 1 + (withA State.reset 1 4097).aNat 2 ∧
    (decodeState 0x02#8).aNat 1 + (decodeState 0x02#8).aNat 2 ≤ (decodeState 0x02#8).params.bufsz ∧
    decodePoint ((decodeState 0x02#8).memRead ((decodeState 0x02#8).aNat 1) ((decodeState 0x02#8).aNat 2)) =
      .ok (.affine Config.gx Config.gy) ∧
    decodePoint ((decodeState 0x05#8).memRead ((decodeState 0x05#8).aNat 1) ((decodeState 0x05#8).aNat 2)) = .error .badPrefix := by
  decide +kernel

theorem witness_DecodeChecks_lengths : (List.replicate 64 0x00#8).length = 64 ∧ ([] : Bytes).length ≠ 63 ∧
    0x05#8 ∉ [0x02#8, 0x03#8, 0x04#8, 0x06#8, 0x07#8] ∧ 0x07#8 ∈ [0x04#8, 0x06#8, 0x07#8] ∧ (List.replicate 65 0x00#8).length ≠ 64 ∧
    0x03#8 ∈ [0x02#8, 0x03#8] ∧ (List.replicate 33 0x00#8).length ≠ 32 := by decide
theorem witness_DecodeChecks_points : (i2os Config.gx 32).length = 32 ∧
    onCurve (.affine (os2i (i2os Config.gx 32)) (os2i (i2os Config.gy 32))) = true ∧
    onCurve (.affine (os2i (i2os Config.gx 32)) (os2i (i2os Config.gx 32))) = false ∧
    os2i (i2os Config.gy 32) % 2 = (0x06#8).toNat % 2 ∧ os2i (i2os Config.gy 32) % 2 ≠ (0x07#8).toNat % 2 := by decide +kernel
theorem witness_DecodeChecks_compressed : Config.p ≤ os2i (i2os Config.p 32) ∧ os2i (i2os Config.gx 32) < Config.p ∧ Config.gy < Config.p ∧
    Config.gy * Config.gy % Config.p = curveRhs (os2i (i2os Config.gx 32)) ∧ Config.gy % 2 = (0x02#8).toNat % 2 := by decide +kernel
theorem witness_DecodeChecks_no_root : os2i (i2os 2 32) < Config.p ∧
    ¬∃ y, y < Config.p ∧ y * y % Config.p = curveRhs (os2i (i2os 2 32)) ∧ y % 2 = (0x02#8).toNat % 2 := by
  refine ⟨by decide +kernel, ?_⟩
  rintro ⟨y, -, h, -⟩
  have hr := sqrtCandidate_of_root (Nat.mod_lt _ (by decide) : curveRhs (os2i (i2os 2 32)) < Config.p) h
  revert hr
  decide +kernel
theorem witness_CodecRoundTrip : onCurve (.affine Config.gx Config.gy) = true ∧
    decodePoint (0x04#8 :: (i2os Config.gx 32 ++ i2os Config.gy 32)) = .ok (.affine Config.gx Config.gy) := by decide +kernel

/-- A hash with zero bytes only, and one with none, at an output that ends inside the second block. -/
theorem witness_KdfBytes : (∀ b : Bytes, ((fun _ => List.replicate 32 0x00#8 : Bytes → Bytes) b).length = 32) ∧
    (∀ b : Bytes, ((fun _ => List.replicate 32 0x01#8 : Bytes → Bytes) b).length = 32) ∧ 33 ≠ 0 ∧
    (∀ j < 33, ((fun _ => List.replicate 32 0x00#8 : Bytes → Bytes) ([] ++ i2os (j / 32 + 1) 4))[j % 32]? = some 0#8) ∧
    ¬(∀ j < 33, ((fun _ => List.replicate 32 0x01#8 : Bytes → Bytes) ([] ++ i2os (j / 32 + 1) 4))[j % 32]? = some 0#8) :=
  ⟨fun _ => rfl, fun _ => rfl, by decide, by decide, by decide⟩
/-- KDF of one byte `49` to one byte is all zero. -/
theorem witness_KdfCommand : State.reset.aNat 4 = 0 ∧ (withA State.reset 4 1).aNat 4 ≠ 0 ∧
    State.reset.params.bufsz < (withA State.reset 1 4097).aNat 1 + State.reset.aNat 2 ∧
    (withA State.reset 1 4096).aNat 1 + State.reset.aNat 2 ≤ State.reset.params.bufsz ∧
    State.reset.params.bufsz < (withA State.reset 3 4096).aNat 3 + (withA State.reset 4 1).aNat 4 ∧
    (withA State.reset 3 4095).aNat 3 + (withA State.reset 4 1).aNat 4 ≤ State.reset.params.bufsz ∧
    kdf Config.hash ((State.reset.memWrite 0 [0x49#8]).memRead 0 1) 1 = .error .kdfZero ∧
    kdf Config.hash ((State.reset.memWrite 0 [0x61#8]).memRead 0 1) 1 ≠ .error .kdfZero := by decide +kernel
theorem witness_HashShape : ([0x61#8, 0x62#8, 0x63#8].length + 1 + 52) % 64 = 56 := by decide

/-- One byte at address 0, the public key G, the ciphertext in the last bytes of DBUF, the RNG word 1. -/
def encryptState : State :=
  { (withP (withA (withA State.reset 2 1) 3 3998) 1 Config.gx Config.gy).memWrite 0 [0x61#8] with rng := { words := [0, 1], drawn := 0 } }
theorem witness_EncryptCommand_operands : State.reset.aNat 2 = 0 ∧ encryptState.aNat 2 ≠ 0 ∧
    encryptState.params.bufsz < (withA encryptState 1 4096).aNat 1 + encryptState.aNat 2 ∧
    (withA encryptState 1 4095).aNat 1 + encryptState.aNat 2 ≤ encryptState.params.bufsz ∧
    encryptState.params.bufsz < (withA encryptState 3 3999).aNat 3 + cipherLength encryptState.cfg (encryptState.aNat 2) ∧
    encryptState.aNat 3 + cipherLength encryptState.cfg (encryptState.aNat 2) ≤ encryptState.params.bufsz ∧
    State.reset.point 1 = .inf ∧ encryptState.point 1 ≠ .inf ∧ onCurve (encryptState.point 1) = true ∧
    onCurve ((withP encryptState 1 1 1).point 1) = false := by decide +kernel
/-- The first word fails, the second does not. -/
theorem witness_EncryptCommand_word : 1 < encryptState.params.retryMax ∧
    (∀ i < 1, EncryptWordFails Config.hash (encryptState.point 1) (encryptState.aNat 2) (encryptState.rng.word i).toNat) ∧
    ¬EncryptWordFails Config.hash (encryptState.point 1) (encryptState.aNat 2) (encryptState.rng.word 1).toNat := by
  refine ⟨by decide, ?_, ?_⟩
  · intro i hi
    have : i = 0 := by omega
    subst this
    exact .inl (by decide)
  · have h := encryptAttempt_none (H := Config.hash) (cfg := encryptState.cfg) (q := encryptState.point 1) (msg := [0x61#8])
      (w := encryptState.rng.word 1) (by decide)
    have e : [0x61#8].length = encryptState.aNat 2 := by decide
    rw [← e, ← h]
    decide +kernel
theorem witness_EncryptCommand_exhausted : ∀ i < State.reset.params.retryMax, EncryptWordFails Config.hash (encryptState.point 1)
    (encryptState.aNat 2) (Rng.word { words := List.replicate 8 0, drawn := 0 } i).toNat := by
  intro i hi
  exact .inl (by revert hi i; decide)

/-- A ciphertext of `len` bytes at the end of DBUF, with the first byte `b` of an uncompressed point and an all-zero rest. -/
def cipherState (b : Byte) (len : Nat) : State :=
  (withA (withA (withA (withR State.reset 0 1) 3 (4096 - len)) 4 len) 5 4095).memWrite (4096 - len)
    (b :: (i2os Config.gx 32 ++ i2os Config.gy 32 ++ List.replicate (len - 65) 0x00#8))
theorem witness_DecryptCommand_lengths : State.reset.params.bufsz < (withA State.reset 3 4097).aNat 3 + State.reset.aNat 4 ∧
    State.reset.aNat 4 = 0 ∧ (cipherState 0x05#8 98).aNat 4 ≠ 0 ∧
    (cipherState 0x05#8 98).aNat 3 + (cipherState 0x05#8 98).aNat 4 ≤ (cipherState 0x05#8 98).params.bufsz ∧
    (cipherState 0x05#8 98).dbufByte ((cipherState 0x05#8 98).aNat 3) ∉ [0x02#8, 0x03#8, 0x04#8, 0x06#8, 0x07#8] ∧
    (cipherState 0x04#8 97).aNat 4 < 65 + 32 + 1 ∧ (cipherState 0x04#8 98).aNat 4 = 65 + 32 + 1 := by decide +kernel
theorem witness_DecryptCommand_c1Length :
    C1Length false ((cipherState 0x04#8 98).memRead ((cipherState 0x04#8 98).aNat 3) ((cipherState 0x04#8 98).aNat 4)) 65 ∧
    C1Length false ((cipherState 0x03#8 98).memRead ((cipherState 0x03#8 98).aNat 3) ((cipherState 0x03#8 98).aNat 4)) 33 ∧
    C1Length true ((cipherState 0x04#8 98).memRead ((cipherState 0x04#8 98).aNat 3) ((cipherState 0x04#8 98).aNat 4)) 64 :=
  ⟨(c1Length_ok (raw := false) (by decide +kernel)).1, (c1Length_ok (raw := false) (by decide +kernel)).1,
    (c1Length_ok (raw := true) rfl).1⟩
theorem witness_DecryptCommand_point : (cipherState 0x04#8 98).aNat 5 + 1 ≤ (cipherState 0x04#8 98).params.bufsz ∧
    (cipherState 0x04#8 98).params.bufsz < (withA (cipherState 0x04#8 98) 5 4096).aNat 5 + 1 ∧
    decodePoint ((cipherState 0x04#8 98).memRead ((cipherState 0x04#8 98).aNat 3) 65) = .ok generator ∧
    decodePoint ((cipherState 0x07#8 98).memRead ((cipherState 0x07#8 98).aNat 3) 65) = .error .hybridParity ∧
    State.reset.rNat 0 = 0 ∧ 1 ≤ (cipherState 0x04#8 98).rNat 0 ∧ (cipherState 0x04#8 98).rNat 0 < Config.n ∧
    Config.n ≤ (withR State.reset 0 Config.n).rNat 0 := by decide +kernel
/-- The shared point of the private scalar 1, and of 351, whose key stream of one byte is zero. -/
theorem witness_DecryptCommand_shared : scalarMul 1 generator = .affine Config.gx Config.gy ∧
    (match scalarMul 351 generator with
      | .affine x y => kdf Config.hash (i2os x 32 ++ i2os y 32) 1 == .error .kdfZero
      | .inf => false) = true ∧
    (match kdf Config.hash (i2os Config.gx 32 ++ i2os Config.gy 32) 1 with
      | .ok t => Config.hash (i2os Config.gx 32 ++ xorBytes ((cipherState 0x04#8 98).memRead 4095 1) t ++ i2os Config.gy 32) !=
          (cipherState 0x04#8 98).memRead 4063 32
      | .error _ => false) = true := by decide +kernel
/-- ENCRYPT under the public key of the scalar 1, and a state in which its ciphertext stands and decrypts: the ciphertext region is
the one ENCRYPT wrote, and RAW64 starts one byte later. -/
theorem witness_DecryptInvertsEncrypt : ∃ s1, exec (.encrypt 4 3 1 2 1) encryptState = .next s1 ∧ s1.cmdcnt = encryptState.cmdcnt + 1 ∧
    1 < Config.n ∧ encryptState.point 1 = scalarMul 1 generator ∧ (withR s1 0 1).cfg.mode = encryptState.cfg.mode ∧
    (withR s1 0 1).rNat 0 = 1 ∧ (withR s1 0 1).aNat 3 + (withR s1 0 1).aNat 4 ≤ (withR s1 0 1).params.bufsz ∧
    (withR s1 0 1).aNat 5 + encryptState.aNat 2 ≤ (withR s1 0 1).params.bufsz ∧
    (withR s1 0 1).memRead ((withR s1 0 1).aNat 3) ((withR s1 0 1).aNat 4) =
      s1.memRead (encryptState.aNat 3) (cipherLength encryptState.cfg (encryptState.aNat 2)) ∧
    encryptState.cfg.c1form = .uncompressed ∧
    0x04#8 :: (withA (withA s1 3 3999) 4 97).memRead ((withA (withA s1 3 3999) 4 97).aNat 3) ((withA (withA s1 3 3999) 4 97).aNat 4) =
      s1.memRead (encryptState.aNat 3) (cipherLength encryptState.cfg (encryptState.aNat 2)) ∧
    nextIs (exec (.decrypt 6 5 3 4 0 false) (withR s1 0 1)) (fun s3 => s3.memRead 0 1 == [0x61#8]) = true := by
  obtain ⟨s1, h, h'⟩ := nextIs_next (o := exec (.encrypt 4 3 1 2 1) encryptState) (f := fun s1 =>
    decide (s1.cmdcnt = encryptState.cmdcnt + 1 ∧
    1 < Config.n ∧ encryptState.point 1 = scalarMul 1 generator ∧ (withR s1 0 1).cfg.mode = encryptState.cfg.mode ∧
    (withR s1 0 1).rNat 0 = 1 ∧ (withR s1 0 1).aNat 3 + (withR s1 0 1).aNat 4 ≤ (withR s1 0 1).params.bufsz ∧
    (withR s1 0 1).aNat 5 + encryptState.aNat 2 ≤ (withR s1 0 1).params.bufsz ∧
    (withR s1 0 1).memRead ((withR s1 0 1).aNat 3) ((withR s1 0 1).aNat 4) =
      s1.memRead (encryptState.aNat 3) (cipherLength encryptState.cfg (encryptState.aNat 2)) ∧
    encryptState.cfg.c1form = .uncompressed ∧
    0x04#8 :: (withA (withA s1 3 3999) 4 97).memRead ((withA (withA s1 3 3999) 4 97).aNat 3) ((withA (withA s1 3 3999) 4 97).aNat 4) =
      s1.memRead (encryptState.aNat 3) (cipherLength encryptState.cfg (encryptState.aNat 2)) ∧
    nextIs (exec (.decrypt 6 5 3 4 0 false) (withR s1 0 1)) (fun s3 => s3.memRead 0 1 == [0x61#8]) = true)) (by decide +kernel)
  exact ⟨s1, h, by simpa using h'⟩

theorem witness_ZaCommand : State.reset.point 0 = .inf ∧ onCurve ((withP State.reset 0 1 1).point 0) = false ∧
    (withP State.reset 0 Config.gx Config.gy).point 0 = .affine Config.gx Config.gy ∧ onCurve (.affine Config.gx Config.gy) = true := by
  decide +kernel
theorem witness_SignCommand_operands : signState.params.bufsz < (withA signState 1 4083).aNat 1 + signState.aNat 2 ∧
    (withA signState 1 4082).aNat 1 + signState.aNat 2 ≤ signState.params.bufsz ∧
    signState.params.bufsz < (withA signState 3 4033).aNat 3 + (if signState.cfg.sigenc = .plain then 64 else 72) ∧
    (withA signState 3 4032).aNat 3 + (if signState.cfg.sigenc = .plain then 64 else 72) ≤ signState.params.bufsz ∧
    State.reset.rNat 0 = 0 ∧ Config.n ≤ (withR signState 0 Config.n).rNat 0 ∧
    (withR signState 0 (Config.n - 1)).rNat 0 = Config.n - 1 ∧ 1 ≤ signState.rNat 0 ∧
    (withR signState 0 (Config.n - 2)).rNat 0 < Config.n - 1 := by decide +kernel
/-- The first word does not fail. -/
theorem witness_SignCommand_word : 0 < signState.params.retryMax ∧
    ¬SignWordFails (signState.rNat 0) (os2i (Config.hash (zaOf Config.hash signState.userId (scalarMul (signState.rNat 0) generator) ++
      signState.memRead (signState.aNat 1) (signState.aNat 2)))) (signState.rng.word 0).toNat := by
  refine ⟨by decide, ?_⟩
  rw [← signAttempt_none (show signState.rNat 0 < Config.n - 1 by decide +kernel)]
  decide +kernel
theorem witness_SignCommand_exhausted (d e : Nat) : ∀ i < State.reset.params.retryMax,
    SignWordFails d e (Rng.word { words := List.replicate 8 0, drawn := 0 } i).toNat := by
  intro i hi
  exact .inl (by revert hi i; decide)

/-- A Plain signature at the end of DBUF, and a key. -/
def verifyState (r s x y : Nat) : State :=
  { (withP (withA (withA State.reset 3 4032) 4 64) 1 x y).memWrite 4032 (i2os r 32 ++ i2os s 32) with
    cfg := { mode := .c1c3c2, sigenc := .plain, c1form := .uncompressed } }
theorem witness_VerifyCommand_operands : State.reset.params.bufsz < (withA State.reset 1 4097).aNat 1 + State.reset.aNat 2 ∧
    (withA State.reset 1 4096).aNat 1 + State.reset.aNat 2 ≤ State.reset.params.bufsz ∧
    (verifyState 1 1 1 1).aNat 3 + (verifyState 1 1 1 1).aNat 4 ≤ (verifyState 1 1 1 1).params.bufsz ∧
    (verifyState 1 1 1 1).params.bufsz < (withA (verifyState 1 1 1 1) 3 4033).aNat 3 + (verifyState 1 1 1 1).aNat 4 ∧
    parseSig ((verifyState 1 1 1 1).memRead 4032 63) .plain = .error .plainLength := by decide +kernel
theorem witness_VerifyCommand_pairs : parseSig ((verifyState 0 Config.n 1 1).memRead 4032 64) .plain = .ok (0, Config.n) ∧
    parseSig ((verifyState 1 (Config.n - 1) 1 1).memRead 4032 64) .plain = .ok (1, Config.n - 1) ∧
    State.reset.point 1 = .inf ∧ onCurve ((verifyState 1 1 1 1).point 1) = false ∧
    onCurve ((verifyState 1 1 Config.gx Config.gy).point 1) = true ∧ (verifyState 1 1 Config.gx Config.gy).point 1 ≠ .inf := by decide +kernel
theorem witness_SignatureCodec : 1 ≤ Config.n - 1 ∧ Config.n - 1 < Config.n ∧
    parseSig [0x30#8, 0x06#8, 0x02#8, 0x01#8, 0x01#8, 0x02#8, 0x01#8, 0x01#8] .der = .ok (1, 1) ∧
    parseSig (i2os 1 32 ++ i2os 2 32) .plain = .ok (1, 2) := by decide +kernel
/-- Every fault of an INTEGER: absent, negative, not minimal, too long. -/
theorem witness_SignatureFaults_integers : DerIntFault [] .badDer ∧ DerIntFault [0x02#8, 0x01#8, 0x80#8] .intNegative ∧
    DerIntFault [0x02#8, 0x02#8, 0x00#8, 0x7F#8] .intNonminimal ∧
    DerIntFault (0x02#8 :: 0x22#8 :: List.replicate 34 0x01#8) .intTooLong ∧ (0x02#8 :: 0x22#8 :: List.replicate 34 0x01#8).length < 0x80 := by
  refine ⟨.inl (by decide), .inr (by decide), .inr (by decide), .inr (by decide), by decide⟩
theorem witness_SignatureFaults_sequence : ([] : Bytes).length ≠ 64 ∧ [0x30#8].length < 2 ∧ byteAt [0x31#8, 0x00#8] 0 ≠ 0x30 ∧
    0x80 ≤ byteAt [0x30#8, 0x81#8] 1 ∧ byteAt [0x30#8, 0x01#8] 1 ≠ [0x30#8, 0x01#8].length - 2 ∧ DerContents 0 [0x00#8] ∧
    DerContents 0x80 [0x00#8, 0x80#8] ∧ [0x00#8] ≠ [] ∧ 2 + 1 + (2 + 2) + 1 < 0x80 :=
  ⟨by decide, by decide, by decide, by decide, by decide, ⟨by decide, by decide, by decide, by decide, by decide⟩,
    ⟨by decide, by decide, by decide, by decide, by decide⟩, by decide, by decide⟩
/-- SIGN under the scalar 1, and a state in which its signature stands under the public key G. -/
theorem witness_VerifyAcceptsSign : ∃ s1, exec (.sign 4 3 1 2 0) signState = .next s1 ∧ s1.cmdcnt = signState.cmdcnt + 1 ∧
    (withP s1 1 Config.gx Config.gy).cfg.sigenc = signState.cfg.sigenc ∧ (withP s1 1 Config.gx Config.gy).userId = signState.userId ∧
    (withP s1 1 Config.gx Config.gy).point 1 = scalarMul (signState.rNat 0) generator ∧
    (withP s1 1 Config.gx Config.gy).aNat 1 + (withP s1 1 Config.gx Config.gy).aNat 2 ≤ (withP s1 1 Config.gx Config.gy).params.bufsz ∧
    (withP s1 1 Config.gx Config.gy).aNat 3 + (withP s1 1 Config.gx Config.gy).aNat 4 ≤ (withP s1 1 Config.gx Config.gy).params.bufsz ∧
    (withP s1 1 Config.gx Config.gy).memRead ((withP s1 1 Config.gx Config.gy).aNat 1) ((withP s1 1 Config.gx Config.gy).aNat 2) =
      signState.memRead (signState.aNat 1) (signState.aNat 2) ∧
    (withP s1 1 Config.gx Config.gy).memRead ((withP s1 1 Config.gx Config.gy).aNat 3) ((withP s1 1 Config.gx Config.gy).aNat 4) =
      s1.memRead (signState.aNat 3) (s1.aNat 4) := by
  obtain ⟨s1, h, h'⟩ := nextIs_next (o := exec (.sign 4 3 1 2 0) signState) (f := fun s1 =>
    decide (s1.cmdcnt = signState.cmdcnt + 1 ∧
    (withP s1 1 Config.gx Config.gy).cfg.sigenc = signState.cfg.sigenc ∧ (withP s1 1 Config.gx Config.gy).userId = signState.userId ∧
    (withP s1 1 Config.gx Config.gy).point 1 = scalarMul (signState.rNat 0) generator ∧
    (withP s1 1 Config.gx Config.gy).aNat 1 + (withP s1 1 Config.gx Config.gy).aNat 2 ≤ (withP s1 1 Config.gx Config.gy).params.bufsz ∧
    (withP s1 1 Config.gx Config.gy).aNat 3 + (withP s1 1 Config.gx Config.gy).aNat 4 ≤ (withP s1 1 Config.gx Config.gy).params.bufsz ∧
    (withP s1 1 Config.gx Config.gy).memRead ((withP s1 1 Config.gx Config.gy).aNat 1) ((withP s1 1 Config.gx Config.gy).aNat 2) =
      signState.memRead (signState.aNat 1) (signState.aNat 2) ∧
    (withP s1 1 Config.gx Config.gy).memRead ((withP s1 1 Config.gx Config.gy).aNat 3) ((withP s1 1 Config.gx Config.gy).aNat 4) =
      s1.memRead (signState.aNat 3) (s1.aNat 4))) (by decide +kernel)
  exact ⟨s1, h, by simpa using h'⟩

end Sys2Proof.Tests
end

/-! PROOFS. Steps and ends of commands, said once: which case a step is, and how a command ends, alike whatever T holds before
it (R27). Then the state's statements: the reset values (R45), T (R27) and the interrupt bits (R39). -/

namespace Sys2Proof.Machine

/-! ## The step, case by case -/

theorem step_idle {s : State} {x : Input} {rest : List Input} (hb : s.busy = false) (hi : s.inputs = x :: rest) :
    step s = State.perform { s with inputs := rest } x.access := by
  simp [step, hb, hi]

theorem perform_write_next {s s' : State} {off : HostOffset} {v : Word} (h : s.perform (.write off v) = .next s') :
    s' = hostWrite s v (hostReg s.params off.toNat) := by
  simp only [State.perform] at h
  split at h <;> cases h
  rfl

theorem perform_read_next {s s' : State} {off : HostOffset} (h : s.perform (.read off) = .next s') :
    ∃ v, s' = { s with readData := v } := by
  simp only [State.perform] at h
  split at h <;> cases h
  exact ⟨_, rfl⟩

/-- An access reaches the running command: a read answered from the state before it (R281), or a hardware reset that abandons it
(R271). -/
theorem duringCommand_some {s s' : State} (h : s.duringCommand = some s') :
    (∃ off rest v, ReachesRunning s.inputs (.read off) rest ∧ s' = { s with inputs := rest, readData := v }) ∨
      ∃ n rest, ReachesRunning s.inputs (.hwReset n) rest ∧ s' = State.abandon { s with inputs := rest } n := by
  unfold State.duringCommand at h
  split at h
  next off rest ht =>
    cases h
    exact .inl ⟨off, rest, _, (reachesRunning_iff _ _ _).2 ht, rfl⟩
  next n rest ht =>
    cases h
    exact .inr ⟨n, rest, (reachesRunning_iff _ _ _).2 ht, rfl⟩
  · cases h
  · cases h

/-- Everything a step that answers a next state can be: nothing waits; an idle CORE performs an access; an access reaches the
running command; the command runs. -/
theorem step_cases {s s' : State} (h : step s = .next s') :
    (s.busy = false ∧ s.inputs = [] ∧ s' = s) ∨
      (s.busy = false ∧ ∃ x rest, s.inputs = x :: rest ∧ State.perform { s with inputs := rest } x.access = .next s') ∨
      (s.busy = true ∧ s.duringCommand = some s') ∨ (s.busy = true ∧ s.duringCommand = none ∧ runCommand s = .next s') := by
  unfold step at h
  split at h
  next hb =>
    split at h
    next s1 hd =>
      cases h
      exact .inr (.inr (.inl ⟨hb, hd⟩))
    next hd => exact .inr (.inr (.inr ⟨hb, hd, h⟩))
  next hb =>
    have hb' : s.busy = false := Bool.eq_false_iff.2 hb
    split at h
    next hi =>
      cases h
      exact .inl ⟨hb', hi, rfl⟩
    next x rest hi => exact .inr (.inl ⟨hb', x, rest, hi, h⟩)

/-! ## Reset (R45) -/

theorem idbufReset_beyond {addr : Nat} (h : 16 ≤ addr) : Config.idbufReset addr = 0 :=
  List.getD_eq_default _ _ h

theorem atReset_reset : State.AtReset State.reset where
  r i := by simp [regGet, State.reset]
  p i := by simp [regGet, State.reset, PointReg.infinity]
  a i := by simp [regGet, State.reset]
  t := rfl
  busy := rfl
  err := rfl
  cfg := rfl
  errcode := rfl
  errcmd := rfl
  cmdcnt := rfl
  ien := rfl
  istat := rfl
  irq := rfl
  idlen := rfl
  defaultId := by decide
  idbuf _ h := idbufReset_beyond h
  dbuf _ := rfl

/-- A reset leaves the table of R45, whatever stood before: what `resetCore` keeps is not in the table. -/
theorem atReset_resetCore (s : State) : State.AtReset s.resetCore := { atReset_reset with }

@[simp] theorem resetCore_t (s : State) : s.resetCore.t = false := rfl

/-- Settles O14: the hardware reset and SRST = 1 both end in `resetCore`, and SRST = 0 leaves the state. -/
theorem resetValues : Obligations.ResetValues := by
  unfold Obligations.ResetValues
  refine ⟨atReset_reset, fun s n arr rest hb hi => ?_, fun s v arr rest hb hi => ?_⟩
  · exact ⟨_, step_idle hb hi, atReset_resetCore _, rfl⟩
  · have hw : step s = .next (hostWrite { s with inputs := rest } v .ctrl) := step_idle hb hi
    refine ⟨fun h1 => ?_, fun h0 => ?_⟩
    · rw [hostWrite, if_pos h1] at hw
      exact ⟨_, hw, atReset_resetCore _, rfl⟩
    · rwa [hostWrite, if_neg (Bool.eq_false_iff.1 h0)] at hw

/-! ## T does not reach a command's operands (R27) -/

section
variable (s : State) (b : Bool)

@[simp] theorem rNat_writeT (i : RegIdx) : (s.writeT b).rNat i = s.rNat i := rfl
@[simp] theorem aNat_writeT (i : RegIdx) : (s.writeT b).aNat i = s.aNat i := rfl
@[simp] theorem effAddr_writeT (a : RegIdx) (imm : BitVec 16) : (s.writeT b).effAddr a imm = s.effAddr a imm := rfl
@[simp] theorem point_writeT (i : RegIdx) : (s.writeT b).point i = s.point i := rfl
@[simp] theorem memRead_writeT (addr n : Nat) : (s.writeT b).memRead addr n = s.memRead addr n := rfl
@[simp] theorem userId_writeT : (s.writeT b).userId = s.userId := rfl
@[simp] theorem memWrite_writeT (addr : Nat) (bs : Bytes) :
    (s.writeT b).memWrite addr bs = (s.memWrite addr bs).writeT b := rfl
@[simp] theorem encryptOperands_writeT (d src l q : RegIdx) :
    encryptOperands d src l q (s.writeT b) = encryptOperands d src l q s := rfl
@[simp] theorem decryptResult_writeT (H : Bytes → Bytes) (d src l k : RegIdx) (raw : Bool) :
    decryptResult H d src l k raw (s.writeT b) = decryptResult H d src l k raw s := rfl
@[simp] theorem signOperands_writeT (dst src l k : RegIdx) :
    signOperands dst src l k (s.writeT b) = signOperands dst src l k s := rfl
@[simp] theorem verifyResult_writeT (H : Bytes → Bytes) (src l g h q : RegIdx) :
    verifyResult H src l g h q (s.writeT b) = verifyResult H src l g h q s := rfl

end

/-! ## How a command ends, whatever T holds -/

/-- What no command writes before its end, T apart: the completion counter and the pending bits. -/
structure State.KeepsEnd (s u : State) : Prop where
  t : u.t = s.t
  cmdcnt : u.cmdcnt = s.cmdcnt
  istat : u.istat = s.istat

theorem keepsEnd_memWrite (s : State) (addr : Nat) (bs : Bytes) : s.KeepsEnd (s.memWrite addr bs) := ⟨rfl, rfl, rfl⟩

/-- The results of a command without RNG from `s` and from `s` with T = `b`: the same fault, or the same writes, none of them
to T. -/
inductive SameResult (s : State) (b : Bool) : Except FaultCode State → Except FaultCode State → Prop
  | ok {u : State} (hu : s.KeepsEnd u) : SameResult s b (.ok u) (.ok (u.writeT b))
  | error (c : FaultCode) : SameResult s b (.error c) (.error c)

namespace SameResult

variable {s : State} {b : Bool} {r r' : Except FaultCode State}

theorem ite {p : Prop} [Decidable p] {q q' : Except FaultCode State} (h : SameResult s b r r') (h' : SameResult s b q q') :
    SameResult s b (if p then r else q) (if p then r' else q') := by
  split
  · exact h
  · exact h'

theorem checkRange {bufsz addr n : Nat} {c : FaultCode} (h : SameResult s b r r') :
    SameResult s b (Machine.checkRange bufsz addr n c r) (Machine.checkRange bufsz addr n c r') := .ite (.error c) h

theorem checkPoint {v : Point} (h : SameResult s b r r') :
    SameResult s b (Machine.checkPoint v r) (Machine.checkPoint v r') := .ite (.error _) h

theorem checkFinite {v : Point} (h : SameResult s b r r') :
    SameResult s b (Machine.checkFinite v r) (Machine.checkFinite v r') := .ite (.error _) (.ite (.error _) h)

theorem checkScalar {k : Nat} (h : SameResult s b r r') :
    SameResult s b (Machine.checkScalar k r) (Machine.checkScalar k r') := .ite (.error _) h

end SameResult

/-- The ends of a command from `s` and from `s` with T = `b`: both complete after the same writes, none to T; both fault alike; or
(only where the command may write T) both complete with the same verdict in T. -/
inductive EndsAlike (mayWriteT : Bool) (s : State) (b : Bool) :
    Host.Outcome State Fault Refusal → Host.Outcome State Fault Refusal → Prop
  | completes {u : State} (hu : s.KeepsEnd u) : EndsAlike mayWriteT s b (.next u.complete) (.next (u.writeT b).complete)
  | faults {u : State} (c : FaultCode) (hu : s.KeepsEnd u) : EndsAlike mayWriteT s b (.next (u.raise c)) (.next ((u.writeT b).raise c))
  | verdict (v : Bool) (hw : mayWriteT = true) : EndsAlike mayWriteT s b (.next (s.writeT v).complete) (.next (s.writeT v).complete)

theorem SameResult.finish {w : Bool} {s : State} {b : Bool} {r r' : Except FaultCode State} (h : SameResult s b r r') :
    EndsAlike w s b (s.finish r) ((s.writeT b).finish r') := by
  cases h with
  | ok hu => exact .completes hu
  | error c => exact .faults c ⟨rfl, rfl, rfl⟩

section
variable {w : Bool} (s : State) (b : Bool)

theorem execStr_endsAlike (src a : RegIdx) (imm : BitVec 16) :
    EndsAlike w s b (execStr src a imm s) (execStr src a imm (s.writeT b)) := by
  simp only [execStr, effAddr_writeT, rNat_writeT, memWrite_writeT]
  exact SameResult.finish (.checkRange (.ok (keepsEnd_memWrite s _ _)))

theorem execLdc_endsAlike (d : RegIdx) (cid : BitVec 4) : EndsAlike w s b (execLdc d cid s) (execLdc d cid (s.writeT b)) := by
  unfold execLdc
  cases constValue cid with
  | some v => exact .completes ⟨rfl, rfl, rfl⟩
  | none => exact .faults _ ⟨rfl, rfl, rfl⟩

theorem execPenc_endsAlike (o d a : RegIdx) (form : BitVec 4) :
    EndsAlike w s b (execPenc o d a form s) (execPenc o d a form (s.writeT b)) := by
  unfold execPenc
  cases formOf form with
  | some f => exact SameResult.finish (.checkFinite (.checkRange (.ok ⟨rfl, rfl, rfl⟩)))
  | none => exact .faults _ ⟨rfl, rfl, rfl⟩

theorem execPdec_endsAlike (d src l : RegIdx) : EndsAlike w s b (execPdec d src l s) (execPdec d src l (s.writeT b)) := by
  refine SameResult.finish (.checkRange ?_)
  simp only [aNat_writeT, memRead_writeT]
  cases decodePoint (s.memRead (s.aNat src) (s.aNat l)) with
  | ok v => exact .ok ⟨rfl, rfl, rfl⟩
  | error c => exact .error c

theorem execKdf_endsAlike (d src l o : RegIdx) : EndsAlike w s b (execKdf d src l o s) (execKdf d src l o (s.writeT b)) := by
  refine SameResult.finish (.ite (.error _) (.checkRange (.checkRange ?_)))
  simp only [aNat_writeT, memRead_writeT]
  cases kdf Config.hash (s.memRead (s.aNat src) (s.aNat l)) (s.aNat o) with
  | ok z => exact .ok ⟨rfl, rfl, rfl⟩
  | error c => exact .error c

theorem execEncrypt_endsAlike (o d src l q : RegIdx) :
    EndsAlike w s b (execEncrypt o d src l q s) (execEncrypt o d src l q (s.writeT b)) := by
  simp only [execEncrypt, encryptOperands_writeT, State.writeT_cfg, State.writeT_params, State.writeT_rng, point_writeT]
  cases encryptOperands d src l q s with
  | error c => exact .faults c ⟨rfl, rfl, rfl⟩
  | ok msg =>
    dsimp only
    obtain ⟨out, g⟩ := retryLoop (encryptAttempt Config.hash s.cfg (s.point q) msg) s.params.retryMax s.rng
    cases out with
    | some out => exact .completes ⟨rfl, rfl, rfl⟩
    | none => exact .faults (u := s.withRng g) _ ⟨rfl, rfl, rfl⟩

theorem execDecrypt_endsAlike (o d src l k : RegIdx) (raw : Bool) :
    EndsAlike w s b (execDecrypt o d src l k raw s) (execDecrypt o d src l k raw (s.writeT b)) := by
  simp only [execDecrypt, decryptResult_writeT]
  cases decryptResult Config.hash d src l k raw s with
  | ok msg => exact .completes ⟨rfl, rfl, rfl⟩
  | error c => exact .faults c ⟨rfl, rfl, rfl⟩

theorem execSign_endsAlike (o dst src l k : RegIdx) :
    EndsAlike w s b (execSign o dst src l k s) (execSign o dst src l k (s.writeT b)) := by
  simp only [execSign, signOperands_writeT, State.writeT_cfg, State.writeT_params, State.writeT_rng, rNat_writeT, userId_writeT]
  cases signOperands dst src l k s with
  | error c => exact .faults c ⟨rfl, rfl, rfl⟩
  | ok msg =>
    dsimp only
    generalize retryLoop _ s.params.retryMax s.rng = run
    obtain ⟨rs, g⟩ := run
    cases rs with
    | some rs => exact .completes ⟨rfl, rfl, rfl⟩
    | none => exact .faults (u := s.withRng g) _ ⟨rfl, rfl, rfl⟩

theorem execVerify_endsAlike (src l g h q : RegIdx) :
    EndsAlike true s b (execVerify src l g h q s) (execVerify src l g h q (s.writeT b)) := by
  simp only [execVerify, verifyResult_writeT]
  cases verifyResult Config.hash src l g h q s with
  | ok v => exact .verdict v rfl
  | error c => exact .faults c ⟨rfl, rfl, rfl⟩

end

/-- Every command ends, and from two states that differ in T alone it ends alike (R27, R280, R236). -/
theorem exec_endsAlike (i : Instr) (s : State) (b : Bool) :
    EndsAlike (commandWrites i s).t s b (exec i s) (exec i (s.writeT b)) := by
  cases i with
  | ldr d a imm => exact SameResult.finish (.checkRange (.ok ⟨rfl, rfl, rfl⟩))
  | str src a imm => exact execStr_endsAlike s b src a imm
  | ldc d cid => exact execLdc_endsAlike s b d cid
  | pget d e a => exact SameResult.finish (.ite (.error _) (.ok ⟨rfl, rfl, rfl⟩))
  | padd d a c => exact SameResult.finish (.checkPoint (.checkPoint (.ok ⟨rfl, rfl, rfl⟩)))
  | pdbl d a => exact SameResult.finish (.checkPoint (.ok ⟨rfl, rfl, rfl⟩))
  | smul d k a => exact SameResult.finish (.checkPoint (.checkScalar (.ok ⟨rfl, rfl, rfl⟩)))
  | pchk a => exact .verdict _ rfl
  | pinf a => exact .verdict _ rfl
  | penc o d a form => exact execPenc_endsAlike s b o d a form
  | pdec d src l => exact execPdec_endsAlike s b d src l
  | kdf d src l o => exact execKdf_endsAlike s b d src l o
  | encrypt o d src l q => exact execEncrypt_endsAlike s b o d src l q
  | decrypt o d src l k raw => exact execDecrypt_endsAlike s b o d src l k raw
  | za d a => exact SameResult.finish (.checkFinite (.ok ⟨rfl, rfl, rfl⟩))
  | sign o dst src l k => exact execSign_endsAlike s b o dst src l k
  | verify src l g h q => exact execVerify_endsAlike s b src l g h q
  | nop | li | aaddi | movr | pldg | pset | pmov | psetinf | montmul | fadd | fsub => exact .completes ⟨rfl, rfl, rfl⟩

/-- How a command that answers a next state has ended. -/
theorem exec_ends {i : Instr} {s s' : State} (h : exec i s = .next s') :
    (∃ u, s.KeepsEnd u ∧ s' = u.complete) ∨ (∃ u c, s.KeepsEnd u ∧ s' = u.raise c) ∨
      ((commandWrites i s).t = true ∧ ∃ v, s' = (s.writeT v).complete) := by
  have he := exec_endsAlike i s s.t
  generalize exec i (s.writeT s.t) = o at he
  rw [h] at he
  cases he with
  | completes hu => exact .inl ⟨_, hu, rfl⟩
  | faults c hu => exact .inr (.inl ⟨_, c, hu, rfl⟩)
  | verdict v hw => exact .inr (.inr ⟨hw, v, rfl⟩)

/-! ## Who writes T (R27) -/

theorem commandWrites_t {i : Instr} {s : State} (h : (commandWrites i s).t = true) :
    (∃ a, i = .pchk a) ∨ (∃ a, i = .pinf a) ∨ ∃ src l g h q, i = .verify src l g h q := by
  cases i with
  | pchk a => exact .inl ⟨a, rfl⟩
  | pinf a => exact .inr (.inl ⟨a, rfl⟩)
  | verify src l g hlen q => exact .inr (.inr ⟨src, l, g, hlen, q, rfl⟩)
  | _ => cases h

theorem runCommand_cases {s s' : State} (h : runCommand s = .next s') :
    (∃ i, decode s.cmd = .ok i ∧ exec i s = .next s') ∨ ∃ e, decode s.cmd = .error e ∧ s' = s.raise (decodeFault e) := by
  unfold runCommand at h
  split at h
  next i hd => exact .inl ⟨i, hd, h⟩
  next e hd =>
    cases h
    exact .inr ⟨e, hd, rfl⟩

theorem runCommand_t {s s' : State} (h : runCommand s = .next s') :
    s'.t = s.t ∨ ∃ i, decode s.cmd = .ok i ∧ (commandWrites i s).t = true ∧ State.Completed { t := true } s s' := by
  rcases runCommand_cases h with ⟨i, hd, hx⟩ | ⟨e, -, rfl⟩
  · rcases exec_ends hx with ⟨u, hu, rfl⟩ | ⟨u, c, hu, rfl⟩ | ⟨hw, v, rfl⟩
    · exact .inl hu.t
    · exact .inl hu.t
    · exact .inr ⟨i, hd, hw, completed_writeT s v⟩
  · exact .inl rfl

theorem hostReg_eq_ctrl {c : Params} {off : Nat} (h : hostReg c off = .ctrl) : off = 4 := by
  by_contra hne
  simp [hostReg, hne, ite_eq_iff] at h

theorem hostWrite_t (s : State) (v : Word) (r : HostReg) :
    (hostWrite s v r).t = s.t ∨ (r = .ctrl ∧ v.getLsbD 0 = true ∧ (hostWrite s v r).t = false) := by
  cases r with
  | ctrl =>
    cases hv : v.getLsbD 0 with
    | true => exact .inr ⟨rfl, rfl, by rw [hostWrite, if_pos hv, resetCore_t]⟩
    | false => exact .inl (by rw [hostWrite, if_neg (Bool.eq_false_iff.1 hv)])
  | status => exact .inl (by simp only [hostWrite]; split <;> rfl)
  | idlen => exact .inl (by simp only [hostWrite, State.writeIdlen]; split <;> rfl)
  | cmd => exact .inl (by simp only [hostWrite, State.acceptCommand]; split <;> rfl)
  | _ => exact .inl rfl

theorem perform_t {s s' : State} {a : Access} (h : s.perform a = .next s') : s'.t = s.t ∨ (Resets a ∧ s'.t = false) := by
  cases a with
  | hwReset n =>
    cases h
    exact .inr ⟨.inl ⟨n, rfl⟩, rfl⟩
  | read off =>
    obtain ⟨v, rfl⟩ := perform_read_next h
    exact .inl rfl
  | write off v =>
    obtain rfl := perform_write_next h
    rcases hostWrite_t s v (hostReg s.params off.toNat) with ht | ⟨hr, hv, ht⟩
    · exact .inl ht
    · have hoff : off = 0x04#17 := BitVec.eq_of_toNat_eq (hostReg_eq_ctrl hr)
      exact .inr ⟨.inr ⟨v, by rw [hoff], hv⟩, ht⟩

/-- The bits of a register the host reads stand apart (R33, R39). -/
theorem getLsbD_bitAt (b : Bool) (pos : Nat) {k : Nat} (hk : k < 32) : (bitAt b pos).getLsbD k = (b && decide (pos = k)) := by
  rw [bitAt, BitVec.getLsbD_ofNat]
  cases b <;> simp [hk, Nat.testBit_two_pow]

theorem statusWord_t (s : State) : s.statusWord.getLsbD 2 = s.t := by
  simp only [State.statusWord, BitVec.getLsbD_or, getLsbD_bitAt _ _ (show 2 < 32 by decide)]
  simp

theorem step_t {s s' : State} (h : step s = .next s') :
    s'.t = s.t ∨ (s.TakesReset ∧ s'.t = false) ∨
      (s.busy = true ∧ ∃ i, decode s.cmd = .ok i ∧ (commandWrites i s).t = true ∧ State.Completed { t := true } s s') := by
  rcases step_cases h with ⟨-, -, rfl⟩ | ⟨hb, x, rest, hi, hp⟩ | ⟨hb, hd⟩ | ⟨hb, -, hr⟩
  · exact .inl rfl
  · rcases perform_t hp with ht | ⟨hx, ht⟩
    · exact .inl ht
    · exact .inr (.inl ⟨.inl ⟨hb, x, rest, hi, hx⟩, ht⟩)
  · rcases duringCommand_some hd with ⟨off, rest, v, -, rfl⟩ | ⟨n, rest, hn, rfl⟩
    · exact .inl rfl
    · exact .inr (.inl ⟨.inr ⟨hb, n, rest, hn⟩, rfl⟩)
  · exact (runCommand_t hr).imp_right fun h => .inr ⟨hb, h⟩

/-- No command reads T (R27): what it leaves from two states that differ in T alone. -/
theorem exec_writeT {i : Instr} {s s1 : State} (b : Bool) (h : exec i s = .next s1) :
    ∃ s2, exec i (s.writeT b) = .next s2 ∧ s2.writeT s1.t = s1 ∧ (s2.t = s1.t ∨ (s1.t = s.t ∧ s2.t = b)) := by
  have he := exec_endsAlike i s b
  generalize exec i (s.writeT b) = o at he ⊢
  rw [h] at he
  cases he with
  | completes hu => exact ⟨_, rfl, rfl, .inr ⟨hu.t, rfl⟩⟩
  | faults c hu => exact ⟨_, rfl, rfl, .inr ⟨hu.t, rfl⟩⟩
  | verdict v _ => exact ⟨_, rfl, rfl, .inl rfl⟩

/-- Settles O11: every step is one of four cases, and in each the writer of T is known; that no command reads T is
`exec_writeT`. -/
theorem flagTWriters : Obligations.FlagTWriters := by
  unfold Obligations.FlagTWriters
  refine ⟨fun s s' h => ?_, statusWord_t, fun i s s1 b h => exec_writeT b h⟩
  rcases step_t h with ht | hr | ⟨hb, i, hd, hw, hc⟩
  · exact .inl ht
  · exact .inr (.inl hr)
  · exact .inr (.inr ⟨hb, i, hd, hc, commandWrites_t hw⟩)

/-! ## The interrupt bits (R39) -/

theorem exec_istat {i : Instr} {s s' : State} (h : exec i s = .next s') :
    (s'.cmdcnt = s.cmdcnt + 1 ∧ s'.istat = { done := true, err := s.istat.err }) ∨
      (s'.cmdcnt = s.cmdcnt ∧ s'.err = true ∧ s'.istat = { done := s.istat.done, err := true }) := by
  rcases exec_ends h with ⟨u, hu, rfl⟩ | ⟨u, c, hu, rfl⟩ | ⟨-, v, rfl⟩
  · exact .inl ⟨by rw [State.complete_cmdcnt, hu.cmdcnt], by rw [State.complete_istat, hu.istat]⟩
  · exact .inr ⟨hu.cmdcnt, rfl, by rw [State.raise_istat, hu.istat]⟩
  · exact .inl ⟨rfl, rfl⟩

theorem irq_iff (s : State) :
    s.irq = true ↔ (s.istat.done = true ∧ s.ien.done = true) ∨ (s.istat.err = true ∧ s.ien.err = true) := by
  simp [State.irq]

/-- Settles O21: a command's end sets its pending bit and leaves the other, and a write to ISTAT clears by `clearBits`. -/
theorem interruptBits : Obligations.InterruptBits := by
  unfold Obligations.InterruptBits
  refine ⟨fun i s s' h => exec_istat h, fun s v arr rest hb hi => ?_, fun s v arr rest hb hi => step_idle hb hi, irq_iff, rfl, rfl⟩
  refine ⟨clearBits s.istat v, step_idle hb hi, ?_⟩
  simp +contextual [clearBits]

end Sys2Proof.Machine

/-! PROOFS. Memory: DBUF byte by byte (R62, R63), and the host's word view of DBUF and IDBUF (R61). -/

namespace Sys2Proof.Machine

/-! ## MemWrite and MemRead (R62, R63) -/

theorem dbufByte_memWrite_inside (s : State) (addr : Nat) {bs : Bytes} {i : Nat} (hi : i < bs.length) :
    (s.memWrite addr bs).dbufByte (addr + i) = bs[i] := by
  rw [dbufByte_memWrite, if_pos ⟨Nat.le_add_right _ _, Nat.add_lt_add_left hi _⟩, Nat.add_sub_cancel_left,
    List.getD_eq_getElem _ _ hi]

theorem memRead_getElem? (s : State) (addr : Nat) {n i : Nat} (hi : i < n) :
    (s.memRead addr n)[i]? = some (s.dbufByte (addr + i)) := by
  simp [State.memRead, hi]

/-- Settles O25: the bytes inside and outside the region written, and each byte of the region read. -/
theorem memoryReadsWrites : Obligations.MemoryReadsWrites := by
  unfold Obligations.MemoryReadsWrites
  refine ⟨fun s addr bs => ⟨fun i hi => ?_, fun x hx => ?_, rfl⟩,
    fun s addr n => ⟨memRead_length s addr n, fun i hi => memRead_getElem? s addr hi⟩⟩
  · rw [dbufByte_memWrite_inside s addr hi, List.getElem?_eq_getElem hi]
  · exact dbufByte_memWrite_outside s addr bs (by omega)

/-! ## The host's word access (R30, R61) -/

theorem Params.sizes_le {c : Params} (h : c.ok = true) : c.bufsz ≤ 65536 ∧ c.idmax ≤ 8188 := by
  simp only [Params.ok, Bool.and_eq_true, decide_eq_true_eq] at h
  omega

/-- Past the registers the window holds the two byte memories alone. -/
theorem hostReg_past_registers (c : Params) {off : Nat} (h : 0x80 ≤ off) :
    hostReg c off =
      if 0x2000 ≤ off ∧ off < 0x2000 + c.idmax then .idbuf (off - 0x2000)
      else if 0x10000 ≤ off ∧ off < 0x10000 + c.bufsz then .dbuf (off - 0x10000)
      else .unmapped := by
  have hne : ∀ n < 0x80, off ≠ n := by omega
  simp [hostReg, hne, h]

theorem hostReg_dbuf {c : Params} {k : Nat} (hc : c.ok = true) (hk : k < c.bufsz) : hostReg c (0x10000 + k) = .dbuf k := by
  have hmax := (Params.sizes_le hc).2
  rw [hostReg_past_registers c (by omega), if_neg (by omega), if_pos (by omega), Nat.add_sub_cancel_left]

theorem hostReg_idbuf {c : Params} {k : Nat} (hk : k < c.idmax) : hostReg c (0x2000 + k) = .idbuf k := by
  rw [hostReg_past_registers c (by omega), if_pos (by omega), Nat.add_sub_cancel_left]

theorem wordAligned_ofNat {n : Nat} (h4 : 4 ∣ n) (hn : n < 2 ^ 17) : wordAligned (BitVec.ofNat 17 n) = true := by
  rw [wordAligned, BitVec.toNat_ofNat, Nat.mod_eq_of_lt hn, Nat.mod_eq_zero_of_dvd h4]
  rfl

/-- A host write to a whole word, at an idle CORE: the register is the one the map gives its place. -/
theorem step_write_word {s : State} {arr : Arrival} {rest : List Input} {v : Word} {n : Nat} (hb : s.busy = false)
    (h4 : 4 ∣ n) (hn : n < 2 ^ 17) (hi : s.inputs = { access := .write (BitVec.ofNat 17 n) v, arrival := arr } :: rest) :
    step s = .next (hostWrite { s with inputs := rest } v (hostReg s.params n)) := by
  rw [step_idle hb hi, State.perform, if_pos (wordAligned_ofNat h4 hn), BitVec.toNat_ofNat, Nat.mod_eq_of_lt hn]

/-- A host read of a whole word, at an idle CORE. -/
theorem step_read_word {s : State} {arr : Arrival} {rest : List Input} {n : Nat} (hb : s.busy = false)
    (h4 : 4 ∣ n) (hn : n < 2 ^ 17) (hi : s.inputs = { access := .read (BitVec.ofNat 17 n), arrival := arr } :: rest) :
    step s = .next { s with inputs := rest, readData := hostRead { s with inputs := rest } (hostReg s.params n) } := by
  rw [step_idle hb hi, State.perform, if_pos (wordAligned_ofNat h4 hn), BitVec.toNat_ofNat, Nat.mod_eq_of_lt hn]

/-- A host write to IDBUF, byte by byte: as `MemWrite` to DBUF, where the list of IDBUF is canonical. -/
theorem idbufByte_hostWrite {s : State} (hs : Memory.wf idbufUnlisted s.idbuf = true) (v : Word) (k x : Nat) :
    (hostWrite s v (.idbuf k)).idbufByte x = if k ≤ x ∧ x < k + 4 then (bytesOfWord v).getD (x - k) 0 else s.idbufByte x := by
  apply Option.some.inj
  rw [idbufByte_eq, hostWrite, value_putBytes _ hs, apply_ite some, idbufByte_eq]
  rfl

/-- What four bytes replaced by those of a word read as, and that no other byte differs. -/
theorem bytes_of_replaced_word {f f' : Nat → Byte} {v : Word} {k : Nat}
    (h : ∀ x, f' x = if k ≤ x ∧ x < k + 4 then (bytesOfWord v).getD (x - k) 0 else f x) :
    f' k = v.extractLsb' 24 8 ∧ f' (k + 1) = v.extractLsb' 16 8 ∧ f' (k + 2) = v.extractLsb' 8 8 ∧
      f' (k + 3) = v.extractLsb' 0 8 ∧ ∀ addr, addr < k ∨ k + 4 ≤ addr → f' addr = f addr :=
  ⟨by simp [h, bytesOfWord], by simp [h, bytesOfWord], by simp [h, bytesOfWord], by simp [h, bytesOfWord],
    fun addr ha => by rw [h, if_neg (by omega)]⟩

theorem wf_of_memoryInside {unlisted : Nat → Option Byte} {size : Nat} {m : Memory} (h : memoryInside unlisted size m = true) :
    Memory.wf unlisted m = true := (Bool.and_eq_true_iff.1 h).1

/-- Settles O23: each word of the window names its word register, whose write replaces the four bytes and whose read packs
them. -/
theorem hostWordView : Obligations.HostWordView := by
  unfold Obligations.HostWordView
  intro s w v arr rest hs hb
  have hsize := Params.sizes_le hs.params
  refine ⟨fun hw => ⟨fun hi => ?_, fun hi => ?_⟩, fun hw => ⟨fun hi => ?_, fun hi => ?_⟩⟩
  · have hstep := step_write_word hb (by omega) (by omega) hi
    rw [hostReg_dbuf hs.params hw] at hstep
    exact ⟨_, hstep, rfl, bytes_of_replaced_word (dbufByte_memWrite _ _ (bytesOfWord v))⟩
  · have hstep := step_read_word hb (by omega) (by omega) hi
    rwa [hostReg_dbuf hs.params hw] at hstep
  · have hstep := step_write_word hb (by omega) (by omega) hi
    rw [hostReg_idbuf hw] at hstep
    have hidbuf := wf_of_memoryInside hs.idbuf
    exact ⟨_, hstep, rfl, bytes_of_replaced_word (idbufByte_hostWrite (s := { s with inputs := rest }) hidbuf v _)⟩
  · have hstep := step_read_word hb (by omega) (by omega) hi
    rwa [hostReg_idbuf hw] at hstep

end Sys2Proof.Machine

/-! PROOFS. The encoding (R90 to R98). Decoding undoes encoding, so each word of the map is read through the encoder; and the
decoder's arms stand against the rows of the map, one lemma for an arm of each kind. -/

namespace Sys2Proof.Machine

/-! ## Encoding, then decoding (R91, R92, R96) -/

section
variable {op f1 f2 f3 f4 f5 fn imm : Nat} (ho : op < 256) (h1 : f1 < 16) (h2 : f2 < 16)

section
variable (h3 : f3 < 16) (h4 : f4 < 16) (h5 : f5 < 16) (hn : fn < 16)
include ho h1 h2 h3 h4 h5 hn

theorem opField_formatF : opField (formatF op f1 f2 f3 f4 f5 fn) = op := by
  obtain ⟨h, -⟩ := Laws.bitField_formatF ho h1 h2 h3 h4 h5 hn
  exact h

theorem f1Field_formatF : f1Field (formatF op f1 f2 f3 f4 f5 fn) = Fin.ofNat 16 f1 := by
  obtain ⟨-, h, -⟩ := Laws.bitField_formatF ho h1 h2 h3 h4 h5 hn
  exact congrArg _ h

theorem f2Field_formatF : f2Field (formatF op f1 f2 f3 f4 f5 fn) = Fin.ofNat 16 f2 := by
  obtain ⟨-, -, h, -⟩ := Laws.bitField_formatF ho h1 h2 h3 h4 h5 hn
  exact congrArg _ h

theorem f3Field_formatF : f3Field (formatF op f1 f2 f3 f4 f5 fn) = Fin.ofNat 16 f3 := by
  obtain ⟨-, -, -, h, -⟩ := Laws.bitField_formatF ho h1 h2 h3 h4 h5 hn
  exact congrArg _ h

theorem f4Field_formatF : f4Field (formatF op f1 f2 f3 f4 f5 fn) = Fin.ofNat 16 f4 := by
  obtain ⟨-, -, -, -, h, -⟩ := Laws.bitField_formatF ho h1 h2 h3 h4 h5 hn
  exact congrArg _ h

theorem f5Field_formatF : f5Field (formatF op f1 f2 f3 f4 f5 fn) = Fin.ofNat 16 f5 := by
  obtain ⟨-, -, -, -, -, h, -⟩ := Laws.bitField_formatF ho h1 h2 h3 h4 h5 hn
  exact congrArg _ h

theorem fnField_formatF : fnField (formatF op f1 f2 f3 f4 f5 fn) = BitVec.ofNat 4 fn := by
  obtain ⟨-, -, -, -, -, -, h⟩ := Laws.bitField_formatF ho h1 h2 h3 h4 h5 hn
  exact congrArg _ h

end

section
variable (hi : imm < 65536)
include ho h1 h2 hi

theorem opField_formatI : opField (formatI op f1 f2 imm) = op := by
  obtain ⟨h, -⟩ := Laws.bitField_formatI ho h1 h2 hi
  exact h

theorem f1Field_formatI : f1Field (formatI op f1 f2 imm) = Fin.ofNat 16 f1 := by
  obtain ⟨-, h, -⟩ := Laws.bitField_formatI ho h1 h2 hi
  exact congrArg _ h

theorem f2Field_formatI : f2Field (formatI op f1 f2 imm) = Fin.ofNat 16 f2 := by
  obtain ⟨-, -, h, -⟩ := Laws.bitField_formatI ho h1 h2 hi
  exact congrArg _ h

theorem immField_formatI : immField (formatI op f1 f2 imm) = BitVec.ofNat 16 imm := by
  obtain ⟨-, -, -, h⟩ := Laws.bitField_formatI ho h1 h2 hi
  exact congrArg _ h

theorem mustBeZero_formatI (i : Instr) (hz : f2 = 0) : mustBeZero (formatI op f1 f2 imm) 16 4 i = .ok i := by
  obtain ⟨-, -, h, -⟩ := Laws.bitField_formatI ho h1 h2 hi
  exact if_pos (h.trans hz)

end

end

theorem mustBeZero_formatF {op f1 f2 f3 f4 f5 fn lo len : Nat} (i : Instr)
    (h : (op * 2 ^ 24 + f1 * 2 ^ 20 + f2 * 2 ^ 16 + f3 * 2 ^ 12 + f4 * 2 ^ 8 + f5 * 2 ^ 4 + fn) % 2 ^ 32 / 2 ^ lo % 2 ^ len = 0) :
    mustBeZero (formatF op f1 f2 f3 f4 f5 fn) lo len i = .ok i := by
  rw [mustBeZero, bitField, formatF, BitVec.toNat_ofNat, if_pos h]

theorem bitField_formatF_zero_one (op f1 f2 f3 f4 f5 fn : Nat) : bitField (formatF op f1 f2 f3 f4 f5 fn) 0 1 = fn % 2 := by
  rw [bitField, formatF, BitVec.toNat_ofNat]
  omega

theorem modulusField_formatF {op f1 f2 f3 f4 f5 : Nat} (m : Modulus) :
    modulusField (formatF op f1 f2 f3 f4 f5 (modulusBit m)) = m := by
  rw [modulusField, bitField_formatF_zero_one]
  cases m <;> rfl

theorem rawField_formatF {op f1 f2 f3 f4 f5 : Nat} (raw : Bool) : rawField (formatF op f1 f2 f3 f4 f5 raw.toNat) = raw := by
  rw [rawField, bitField_formatF_zero_one]
  cases raw <;> rfl

theorem modulusBit_lt (m : Modulus) : modulusBit m < 2 := by
  cases m <;> decide

theorem legalFunction_ok {i : Instr} (h : i.wellFormed = true) : legalFunction (.ok i) = .ok i := if_pos h

/-- The word of a legal command decodes to the command. -/
theorem decode_encode {i : Instr} (h : i.wellFormed = true) : decode (encode i) = .ok i := by
  cases i with
  | nop => decide
  | li => simp (disch := omega) [decode, encode, opField_formatI, f1Field_formatI, immField_formatI, mustBeZero_formatI]
  | aaddi | ldr | str =>
    simp (disch := omega) [decode, encode, opField_formatI, f1Field_formatI, f2Field_formatI, immField_formatI]
  | montmul d a b m | fadd d a b m | fsub d a b m =>
    have hm := modulusBit_lt m
    simp (disch := omega) [decode, encode, opField_formatF, f1Field_formatF, f2Field_formatF, f3Field_formatF,
      modulusField_formatF, mustBeZero_formatF]
  | decrypt o d src l k raw =>
    have hraw := raw.toNat_lt
    simp (disch := omega) [decode, encode, opField_formatF, f1Field_formatF, f2Field_formatF, f3Field_formatF, f4Field_formatF,
      f5Field_formatF, rawField_formatF, mustBeZero_formatF]
  | ldc | penc =>
    simp (disch := omega) [decode, encode, opField_formatF, f1Field_formatF, f2Field_formatF, f3Field_formatF, fnField_formatF,
      mustBeZero_formatF, legalFunction_ok h]
  | _ =>
    simp (disch := omega) [decode, encode, opField_formatF, f1Field_formatF, f2Field_formatF, f3Field_formatF, f4Field_formatF,
      f5Field_formatF, mustBeZero_formatF]

theorem decode_of_toNat_eq {w : Word} {i : Instr} (h : i.wellFormed = true) (hw : w.toNat = (encode i).toNat) :
    decode w = .ok i := by
  rw [BitVec.eq_of_toNat_eq hw, decode_encode h]

/-! ## A word, field by field (R91, R92) -/

theorem regField_toNat (i : RegIdx) : (regField i).toNat = i.val := by
  rw [regField, BitVec.toNat_ofNat, Nat.mod_eq_of_lt i.isLt]

theorem toNat_append_add {n m : Nat} (x : BitVec n) (y : BitVec m) : (x ++ y).toNat = x.toNat * 2 ^ m + y.toNat := by
  rw [BitVec.toNat_append, ← Nat.shiftLeft_add_eq_or_of_lt y.isLt, Nat.shiftLeft_eq]

theorem toNat_opcode (w : Word) : (w.extractLsb' 24 8).toNat = opField w := by
  rw [opField, bitField, BitVec.extractLsb'_toNat, Nat.shiftRight_eq_div_pow]

theorem opField_lt (w : Word) : opField w < 256 := Laws.bitField_lt w 24 8

theorem extractLsb'_opcode (w : Word) : w.extractLsb' 24 8 = BitVec.ofNat 8 (opField w) := by
  rw [← toNat_opcode, BitVec.ofNat_toNat, BitVec.setWidth_eq]

theorem extractLsb'_fnField (w : Word) : w.extractLsb' 0 4 = fnField w := by
  rw [fnField, bitField, ← Nat.shiftRight_eq_div_pow, ← BitVec.extractLsb'_toNat, BitVec.ofNat_toNat, BitVec.setWidth_eq]

theorem bitField_reg {w : Word} {lo : Nat} : bitField w lo 4 = (Fin.ofNat 16 (bitField w lo 4)).val :=
  (Nat.mod_eq_of_lt (Laws.bitField_lt w lo 4)).symm

/-- A part of a field that is 0. -/
theorem bitField_part {w : Word} {lo len lo' len' : Nat} (hz : bitField w lo len = 0) (hlo : lo ≤ lo' := by decide)
    (hlen : lo' + len' ≤ lo + len := by decide) : bitField w lo' len' = 0 := by
  obtain ⟨a, rfl⟩ := Nat.exists_eq_add_of_le hlo
  obtain ⟨b, rfl⟩ := Nat.exists_eq_add_of_le (show a + len' ≤ len by omega)
  rw [Laws.bitField_split, Laws.bitField_split] at hz
  simp only [Nat.add_eq_zero_iff, Nat.mul_eq_zero, (Nat.two_pow_pos a).ne', false_or] at hz
  obtain ⟨⟨-, hpart⟩, -⟩ := hz
  exact hpart

theorem formatF_eq {w : Word} {op f1 f2 f3 f4 f5 fn : Nat} (ho : opField w = op) (h1 : bitField w 20 4 = f1)
    (h2 : bitField w 16 4 = f2) (h3 : bitField w 12 4 = f3) (h4 : bitField w 8 4 = f4) (h5 : bitField w 4 4 = f5)
    (hn : bitField w 0 4 = fn) : formatF op f1 f2 f3 f4 f5 fn = w := by
  simp only [opField, bitField] at ho h1 h2 h3 h4 h5 hn
  apply BitVec.eq_of_toNat_eq
  rw [formatF, BitVec.toNat_ofNat]
  omega

theorem formatI_eq {w : Word} {op f1 f2 : Nat} (ho : opField w = op) (h1 : bitField w 20 4 = f1) (h2 : bitField w 16 4 = f2) :
    formatI op f1 f2 (immField w).toNat = w := by
  simp only [opField, bitField] at ho h1 h2
  apply BitVec.eq_of_toNat_eq
  rw [formatI, immField, bitField, BitVec.toNat_ofNat, BitVec.toNat_ofNat]
  omega

/-- A selector of one bit is the whole of `fn` (R97). -/
theorem bitField_selectorBit {w : Word} (hz : bitField w 1 3 = 0) : bitField w 0 4 = bitField w 0 1 ∧ bitField w 0 1 < 2 := by
  refine ⟨?_, Laws.bitField_lt w 0 1⟩
  rw [Laws.bitField_split w 0 1 3, hz, Nat.mul_zero, Nat.add_zero]

theorem bitField_modulus {w : Word} (hz : bitField w 1 3 = 0) : bitField w 0 4 = modulusBit (modulusField w) := by
  obtain ⟨he, hlt⟩ := bitField_selectorBit hz
  rw [he, modulusField]
  split
  next h0 => exact h0
  next h0 => exact Nat.le_antisymm (Nat.le_of_lt_succ hlt) (Nat.pos_of_ne_zero h0)

theorem bitField_raw {w : Word} (hz : bitField w 1 3 = 0) : bitField w 0 4 = (rawField w).toNat := by
  obtain ⟨he, hlt⟩ := bitField_selectorBit hz
  rw [he, rawField]
  interval_cases bitField w 0 1 <;> rfl

theorem bitField_fn {w : Word} : bitField w 0 4 = (fnField w).toNat := by
  rw [fnField, BitVec.toNat_ofNat, Nat.mod_eq_of_lt (Laws.bitField_lt w 0 4)]

section
variable {w : Word} {op : Nat} (ho : opField w = op)
include ho

/-! The word of a command from the fields the command has, where its must-be-zero bits are 0. -/

theorem formatF_zero (hz : bitField w 0 24 = 0) : formatF op 0 0 0 0 0 0 = w :=
  formatF_eq ho (bitField_part hz) (bitField_part hz) (bitField_part hz) (bitField_part hz) (bitField_part hz) (bitField_part hz)

theorem formatF_f1 (hz : bitField w 0 20 = 0) : formatF op (f1Field w).val 0 0 0 0 0 = w :=
  formatF_eq ho bitField_reg (bitField_part hz) (bitField_part hz) (bitField_part hz) (bitField_part hz) (bitField_part hz)

theorem formatF_f2 (hz : bitField w 0 16 = 0) : formatF op (f1Field w).val (f2Field w).val 0 0 0 0 = w :=
  formatF_eq ho bitField_reg bitField_reg (bitField_part hz) (bitField_part hz) (bitField_part hz) (bitField_part hz)

theorem formatF_f3 (hz : bitField w 0 12 = 0) : formatF op (f1Field w).val (f2Field w).val (f3Field w).val 0 0 0 = w :=
  formatF_eq ho bitField_reg bitField_reg bitField_reg (bitField_part hz) (bitField_part hz) (bitField_part hz)

theorem formatF_f5 (hz : bitField w 0 4 = 0) :
    formatF op (f1Field w).val (f2Field w).val (f3Field w).val (f4Field w).val (f5Field w).val 0 = w :=
  formatF_eq ho bitField_reg bitField_reg bitField_reg bitField_reg bitField_reg hz

theorem formatF_modulus (hz : bitField w 1 11 = 0) :
    formatF op (f1Field w).val (f2Field w).val (f3Field w).val 0 0 (modulusBit (modulusField w)) = w :=
  formatF_eq ho bitField_reg bitField_reg bitField_reg (bitField_part hz) (bitField_part hz) (bitField_modulus (bitField_part hz))

end

/-! ## The rows of the map as must-be-zero fields (R94, R96) -/

/-- The mask of the bits from `lo` for `len`. -/
def fieldMask (lo len : Nat) : BitVec 24 := BitVec.ofNat 24 ((2 ^ len - 1) * 2 ^ lo)

theorem toNat_fieldMask {lo len : Nat} (h : lo + len ≤ 24) : (fieldMask lo len).toNat = (2 ^ len - 1) * 2 ^ lo := by
  have hle : 2 ^ len * 2 ^ lo ≤ 2 ^ 24 := by
    rw [← Nat.pow_add]
    exact Nat.pow_le_pow_right (by decide) (by omega)
  have hlt : (2 ^ len - 1) * 2 ^ lo < 2 ^ len * 2 ^ lo :=
    Nat.mul_lt_mul_of_pos_right (Nat.sub_lt (Nat.two_pow_pos len) Nat.one_pos) (Nat.two_pow_pos lo)
  exact Nat.mod_eq_of_lt (hlt.trans_le hle)

theorem mod_two_pow_div_mod {n lo len : Nat} (x : Nat) (h : lo + len ≤ n) : x % 2 ^ n / 2 ^ lo % 2 ^ len = x / 2 ^ lo % 2 ^ len := by
  obtain ⟨m, rfl⟩ := Nat.exists_eq_add_of_le (le_trans (Nat.le_add_right lo len) h)
  rw [Nat.pow_add, Nat.mod_mul_right_div_self, Nat.mod_mod_of_dvd _ (Nat.pow_dvd_pow 2 (by omega))]

/-- Under its mask the word has the field, at its place. -/
theorem toNat_and_fieldMask (w : Word) {lo len : Nat} (h : lo + len ≤ 24) :
    (w.extractLsb' 0 24 &&& fieldMask lo len).toNat = bitField w lo len * 2 ^ lo := by
  have hx : (w.extractLsb' 0 24).toNat = w.toNat % 2 ^ 24 / 2 ^ lo * 2 ^ lo + w.toNat % 2 ^ 24 % 2 ^ lo := by
    rw [Nat.div_add_mod', BitVec.extractLsb'_toNat, Nat.shiftRight_zero]
  have hpos := Nat.two_pow_pos lo
  rw [BitVec.toNat_and, hx, toNat_fieldMask h, ← Nat.add_zero ((2 ^ len - 1) * 2 ^ lo), Laws.and_block lo (Nat.mod_lt _ hpos) hpos,
    Nat.and_two_pow_sub_one_eq_mod, mod_two_pow_div_mod _ h, Nat.and_zero, Nat.add_zero, bitField]

theorem and_fieldMask_eq_zero (w : Word) {lo len : Nat} (h : lo + len ≤ 24) :
    w.extractLsb' 0 24 &&& fieldMask lo len = 0#24 ↔ bitField w lo len = 0 := by
  rw [← BitVec.toNat_inj, toNat_and_fieldMask w h]
  simp

theorem reservedFunction_iff (w : Word) :
    reservedFunction w ↔ (opField w = 0x07 ∧ 10 ≤ (fnField w).toNat) ∨ (opField w = 0x30 ∧ 3 ≤ (fnField w).toNat) := by
  simp only [reservedFunction, ← BitVec.toNat_inj, toNat_opcode, extractLsb'_fnField]
  rfl

theorem not_reservedFunction {w : Word} {op : Nat} (ho : opField w = op) (hop : op ≠ 0x07 ∧ op ≠ 0x30) : ¬reservedFunction w := by
  simp [reservedFunction_iff, ho, hop]

/-! ## The decoder against the map (R98) -/

/-- R98 for the decoding `r` of `w`, under the map's row of its opcode. -/
def DecodesBy (w : Word) (r : Except DecodeError Instr) : Option (BitVec 24) → Prop
  | none => r = .error .unknownOpcode
  | some mask =>
    (w.extractLsb' 0 24 &&& mask ≠ 0#24 → r = .error .nonzeroReserved) ∧
    (w.extractLsb' 0 24 &&& mask = 0#24 → reservedFunction w → r = .error .badFunction) ∧
    (w.extractLsb' 0 24 &&& mask = 0#24 → ¬reservedFunction w → ∃ i, r = .ok i ∧ i.wellFormed = true ∧ encode i = w)

theorem legalFunction_mustBeZero {w : Word} {lo len : Nat} {i : Instr} (h : i.wellFormed = true) :
    legalFunction (mustBeZero w lo len i) = mustBeZero w lo len i := by
  unfold mustBeZero
  split
  · exact legalFunction_ok h
  · rfl

namespace DecodesBy

variable {w : Word} {lo len : Nat} {i : Instr}

theorem of_legalFunction (hs : reservedFunction w ↔ i.wellFormed = false) (he : bitField w lo len = 0 → encode i = w)
    (hl : lo + len ≤ 24 := by decide) : DecodesBy w (legalFunction (mustBeZero w lo len i)) (some (fieldMask lo len)) := by
  simp only [DecodesBy, ne_eq, and_fieldMask_eq_zero w hl, hs, Bool.not_eq_false, mustBeZero]
  by_cases hz : bitField w lo len = 0
  · rw [if_pos hz]
    refine ⟨fun h => absurd hz h, fun _ hw => ?_, fun _ hw => ⟨i, legalFunction_ok hw, hw, he hz⟩⟩
    simp [legalFunction, hw]
  · rw [if_neg hz]
    exact ⟨fun _ => rfl, fun h => absurd h hz, fun h => absurd h hz⟩

theorem of_mustBeZero (hs : ¬reservedFunction w) (hw : i.wellFormed = true) (he : bitField w lo len = 0 → encode i = w)
    (hl : lo + len ≤ 24 := by decide) : DecodesBy w (mustBeZero w lo len i) (some (fieldMask lo len)) := by
  rw [← legalFunction_mustBeZero hw]
  exact .of_legalFunction (by simp [hs, hw]) he hl

theorem of_ok (hs : ¬reservedFunction w) (hw : i.wellFormed = true) (he : encode i = w) : DecodesBy w (.ok i) (some 0#24) := by
  simp [DecodesBy, hs, hw, he]

/-- One arm of the decoder against one row of the map. -/
theorem cons {op : Nat} {mask : BitVec 24} {rows : List (BitVec 8 × BitVec 24)} {r r' : Except DecodeError Instr}
    (h : opField w = op → DecodesBy w r (some mask)) (h' : DecodesBy w r' (rows.lookup (BitVec.ofNat 8 (opField w))))
    (hop : op < 256 := by decide) :
    DecodesBy w (if opField w = op then r else r') (((BitVec.ofNat 8 op, mask) :: rows).lookup (BitVec.ofNat 8 (opField w))) := by
  by_cases ho : opField w = op
  · subst ho
    simpa using h rfl
  · have hne : BitVec.ofNat 8 (opField w) ≠ BitVec.ofNat 8 op := fun he => by
      have hn := congrArg BitVec.toNat he
      rw [BitVec.toNat_ofNat, BitVec.toNat_ofNat, Nat.mod_eq_of_lt (opField_lt w), Nat.mod_eq_of_lt hop] at hn
      exact ho hn
    simpa [ho, List.lookup_cons, beq_eq_false_iff_ne.2 hne] using h'

/-- An arm with must-be-zero bits and no selector. -/
theorem cons_mustBeZero {op : Nat} {rows : List (BitVec 8 × BitVec 24)} {r' : Except DecodeError Instr}
    (he : opField w = op → bitField w lo len = 0 → encode i = w) (h' : DecodesBy w r' (rows.lookup (BitVec.ofNat 8 (opField w))))
    (hw : i.wellFormed = true := by rfl) (hop : (op < 256 ∧ op ≠ 0x07 ∧ op ≠ 0x30) ∧ lo + len ≤ 24 := by decide) :
    DecodesBy w (if opField w = op then mustBeZero w lo len i else r')
      (((BitVec.ofNat 8 op, fieldMask lo len) :: rows).lookup (BitVec.ofNat 8 (opField w))) :=
  .cons (fun ho => .of_mustBeZero (not_reservedFunction ho hop.1.2) hw (he ho) hop.2) h' hop.1.1

/-- An arm with no must-be-zero bit and no selector. -/
theorem cons_ok {op : Nat} {rows : List (BitVec 8 × BitVec 24)} {r' : Except DecodeError Instr}
    (he : opField w = op → encode i = w) (h' : DecodesBy w r' (rows.lookup (BitVec.ofNat 8 (opField w))))
    (hw : i.wellFormed = true := by rfl) (hop : op < 256 ∧ op ≠ 0x07 ∧ op ≠ 0x30 := by decide) :
    DecodesBy w (if opField w = op then .ok i else r')
      (((BitVec.ofNat 8 op, 0#24) :: rows).lookup (BitVec.ofNat 8 (opField w))) :=
  .cons (fun ho => .of_ok (not_reservedFunction ho hop.2) hw (he ho)) h' hop.1

end DecodesBy

/-- The decoder goes through the rows of the map in their order. -/
theorem decodesBy_decode (w : Word) : DecodesBy w (decode w) (commandMap.lookup (w.extractLsb' 24 8)) := by
  rw [extractLsb'_opcode]
  unfold decode
  -- NOP to STR
  refine .cons_mustBeZero formatF_zero ?_
  refine .cons_mustBeZero (fun h hz => formatI_eq h bitField_reg hz) ?_
  refine .cons_ok (fun h => formatI_eq h bitField_reg bitField_reg) ?_
  refine .cons_ok (fun h => formatI_eq h bitField_reg bitField_reg) ?_
  refine .cons_ok (fun h => formatI_eq h bitField_reg bitField_reg) ?_
  -- MOVR to PSETINF, LDC with its selector
  refine .cons_mustBeZero formatF_f2 ?_
  refine .cons (fun h => .of_legalFunction ?_ fun hz => formatF_eq h bitField_reg (bitField_part hz) (bitField_part hz)
    (bitField_part hz) (bitField_part hz) bitField_fn) ?_
  · simp [reservedFunction_iff, h, Instr.wellFormed]
  refine .cons_mustBeZero formatF_f1 ?_
  refine .cons_mustBeZero formatF_f3 ?_
  refine .cons_mustBeZero formatF_f3 ?_
  refine .cons_mustBeZero formatF_f2 ?_
  refine .cons_mustBeZero formatF_f1 ?_
  -- MONTMUL, FADD, FSUB
  refine .cons_mustBeZero formatF_modulus ?_
  refine .cons_mustBeZero formatF_modulus ?_
  refine .cons_mustBeZero formatF_modulus ?_
  -- PADD to PINF
  refine .cons_mustBeZero formatF_f3 ?_
  refine .cons_mustBeZero formatF_f2 ?_
  refine .cons_mustBeZero formatF_f3 ?_
  refine .cons_mustBeZero formatF_f1 ?_
  refine .cons_mustBeZero formatF_f1 ?_
  -- PENC with its selector, PDEC
  refine .cons (fun h => .of_legalFunction ?_ fun hz => formatF_eq h bitField_reg bitField_reg bitField_reg
    (bitField_part hz) (bitField_part hz) bitField_fn) ?_
  · simp [reservedFunction_iff, h, Instr.wellFormed]
  refine .cons_mustBeZero formatF_f3 ?_
  -- KDF to VERIFY
  refine .cons_mustBeZero (fun h hz => formatF_eq h bitField_reg bitField_reg bitField_reg bitField_reg
    (bitField_part hz) (bitField_part hz)) ?_
  refine .cons_mustBeZero formatF_f5 ?_
  refine .cons_mustBeZero (fun h hz => formatF_eq h bitField_reg bitField_reg bitField_reg bitField_reg bitField_reg
    (bitField_raw hz)) ?_
  refine .cons_mustBeZero formatF_f2 ?_
  refine .cons_mustBeZero formatF_f5 ?_
  refine .cons_mustBeZero formatF_f5 ?_
  rfl

/-- Settles O1: each word is the encoding of its command, and a word with no row in the map is the last case of the decoder. -/
theorem encodingMap : Obligations.EncodingMap := by
  unfold Obligations.EncodingMap
  refine ⟨fun f1 f2 f3 f4 f5 imm sel => ?_, fun w hnone => ?_⟩
  · refine ⟨decode_of_toNat_eq rfl ?_, decode_of_toNat_eq rfl ?_, decode_of_toNat_eq rfl ?_, decode_of_toNat_eq rfl ?_,
      decode_of_toNat_eq rfl ?_, decode_of_toNat_eq rfl ?_, fun hsel => decode_of_toNat_eq (decide_eq_true hsel) ?_,
      decode_of_toNat_eq rfl ?_, decode_of_toNat_eq rfl ?_, decode_of_toNat_eq rfl ?_, decode_of_toNat_eq rfl ?_,
      decode_of_toNat_eq rfl ?_, decode_of_toNat_eq rfl ?_, decode_of_toNat_eq rfl ?_, decode_of_toNat_eq rfl ?_,
      decode_of_toNat_eq rfl ?_, decode_of_toNat_eq rfl ?_, decode_of_toNat_eq rfl ?_, decode_of_toNat_eq rfl ?_,
      decode_of_toNat_eq rfl ?_, decode_of_toNat_eq rfl ?_, decode_of_toNat_eq rfl ?_, decode_of_toNat_eq rfl ?_,
      fun hsel => decode_of_toNat_eq (decide_eq_true hsel) ?_, decode_of_toNat_eq rfl ?_, decode_of_toNat_eq rfl ?_,
      decode_of_toNat_eq rfl ?_, decode_of_toNat_eq rfl ?_, decode_of_toNat_eq rfl ?_, decode_of_toNat_eq rfl ?_,
      decode_of_toNat_eq rfl ?_, decode_of_toNat_eq rfl ?_⟩
    all_goals
      simp only [encode, formatF, formatI, modulusBit, toNat_append_add, regField_toNat, BitVec.toNat_ofNat, Bool.toNat_true,
        Bool.toNat_false]
      omega
  · have h := decodesBy_decode w
    rw [hnone] at h
    exact h

/-! ## The word in CMD (R98) -/

theorem runCommand_of_error {s : State} {e : DecodeError} (h : decode s.cmd = .error e) :
    ∃ s', runCommand s = .next s' ∧ State.Faulted {} (decodeFault e) s s' :=
  ⟨s.raise (decodeFault e), by simp [runCommand, h], faulted_raise _ _ _⟩

theorem runCommand_of_ok {s : State} {i : Instr} (h : decode s.cmd = .ok i) : runCommand s = exec i s := by
  simp [runCommand, h]

/-- A word with a must-be-zero bit of its opcode's row set (R94). -/
theorem reservedBitsFault {op : BitVec 8} {mask : BitVec 24} (h : commandMap.lookup op = some mask) : ReservedBitsFault op mask := by
  intro s hop hz
  have hd := decodesBy_decode s.cmd
  rw [hop, h] at hd
  obtain ⟨hbit, -⟩ := hd
  exact runCommand_of_error (hbit hz)

/-- Settles O2: the decoder's three errors are the three faults, and a decoded command is executed. -/
theorem decodeOrder : Obligations.DecodeOrder := by
  unfold Obligations.DecodeOrder
  intro s
  have h := decodesBy_decode s.cmd
  cases hrow : commandMap.lookup (s.cmd.extractLsb' 24 8) with
  | none =>
    rw [hrow] at h
    exact runCommand_of_error h
  | some mask =>
    rw [hrow] at h
    obtain ⟨-, hselector, hcommand⟩ := h
    refine ⟨reservedBitsFault hrow s rfl, fun hz hs => runCommand_of_error (hselector hz hs), fun hz hs => ?_⟩
    obtain ⟨i, hd, hw, he⟩ := hcommand hz hs
    exact ⟨i, hd, hw, he, runCommand_of_ok hd⟩

/-- Settles O4, by evaluating the decoder on the fifteen words. -/
theorem workedEncodings : Obligations.WorkedEncodings := by
  unfold Obligations.WorkedEncodings
  decide

end Sys2Proof.Machine

/-! PROOFS. Data movement (R120 to R131): the words of the commands, and what each command leaves. -/

namespace Sys2Proof.Machine

/-! ## What the register written holds after the command (R20, R22, R24) -/

@[simp] theorem rNat_complete_writeR (s : State) (d : RegIdx) (v : Word256) : (s.writeR d v).complete.rNat d = v.toNat :=
  congrArg BitVec.toNat (regGet_regSet_same s.r d v)

@[simp] theorem aNat_complete_writeA (s : State) (d : RegIdx) (v : Word) : (s.writeA d v).complete.aNat d = v.toNat :=
  congrArg BitVec.toNat (regGet_regSet_same s.a d v)

theorem regGet_complete_writeP (s : State) (d : RegIdx) (v : PointReg) : regGet (s.writeP d v).complete.p d = v :=
  regGet_regSet_same s.p d v

theorem dbufByte_complete (s : State) (addr : Nat) : s.complete.dbufByte addr = s.dbufByte addr := rfl

/-! ## Words of the data movement commands (R94, R97, R98) -/

/-- Decoding loses nothing: a word that is a command is the encoding of that command. -/
theorem encode_of_decode {w : Word} {i : Instr} (h : decode w = .ok i) : encode i = w := by
  have hd := decodesBy_decode w
  rw [h] at hd
  cases hrow : commandMap.lookup (w.extractLsb' 24 8) with
  | none =>
    rw [hrow] at hd
    cases hd
  | some mask =>
    rw [hrow] at hd
    obtain ⟨hbit, hselector, hcommand⟩ := hd
    have hz : w.extractLsb' 0 24 &&& mask = 0#24 := not_not.1 fun hz => nomatch hbit hz
    obtain ⟨j, hj, -, he⟩ := hcommand hz fun hs => nomatch hselector hz hs
    cases hj
    exact he

theorem legalFunction_reserved {i : Instr} (h : i.wellFormed = false) : legalFunction (.ok i) = .error .badFunction :=
  if_neg (Bool.eq_false_iff.1 h)

/-- The word of a command with a reserved selector is refused for its selector. -/
theorem decode_encode_reserved {i : Instr} (h : i.wellFormed = false) : decode (encode i) = .error .badFunction := by
  cases i with
  | ldc | penc =>
    simp (disch := omega) [decode, encode, opField_formatF, f1Field_formatF, f2Field_formatF, f3Field_formatF, fnField_formatF,
      mustBeZero_formatF, legalFunction_reserved h]
  | _ => cases h

theorem decode_eq_nop_iff (w : Word) : decode w = .ok .nop ↔ w = 0 := by
  constructor
  · intro h
    rw [← encode_of_decode h]
    rfl
  · rintro rfl
    decide

/-- No word with AADDI's opcode is illegal (R122). -/
theorem decode_aaddi_opcode {w : Word} (h : w.extractLsb' 24 8 = 0x02#8) :
    decode w = .ok (.aaddi (f1Field w) (f2Field w) (immField w)) := by
  have ho : opField w = 0x02 := by
    rw [← toNat_opcode, h]
    rfl
  simp [decode, ho]

theorem decode_ldc_reserved (d : RegIdx) {cid : BitVec 4} (h : 10 ≤ cid.toNat) :
    decode (0x07#8 ++ regField d ++ 0#16 ++ cid) = .error .badFunction := by
  have hw : (0x07#8 ++ regField d ++ 0#16 ++ cid : Word) = encode (.ldc d cid) := by
    apply BitVec.eq_of_toNat_eq
    simp only [encode, formatF, toNat_append_add, regField_toNat, BitVec.toNat_ofNat]
    omega
  have hres : (Instr.ldc d cid).wellFormed = false := decide_eq_false (Nat.not_lt.2 h)
  rw [hw, decode_encode_reserved hres]

/-! ## NOP, LI and AADDI (R120 to R122) -/

/-- Settles O27: the words by the map of R96, and each effect by the register written. -/
theorem nopAndImmediates : Obligations.NopAndImmediates := by
  unfold Obligations.NopAndImmediates
  refine ⟨⟨decode_eq_nop_iff, reservedBitsFault rfl, fun s => ⟨_, rfl, completed_nothing s⟩⟩, fun d imm => ?_, fun d a imm => ?_⟩
  · obtain ⟨-, hli, -⟩ := encodingMap.1 d d d d d imm 0
    refine ⟨hli, reservedBitsFault rfl, fun s => ⟨_, rfl, completed_writeA s d _, ?_⟩⟩
    rw [aNat_complete_writeA, BitVec.toNat_setWidth_of_le (by decide)]
  · obtain ⟨-, -, haaddi, -⟩ := encodingMap.1 d a d d d imm 0
    refine ⟨haaddi, fun w hw => ⟨_, _, _, decode_aaddi_opcode hw⟩, fun s => ⟨_, rfl, completed_writeA s d _, ?_⟩⟩
    rw [aNat_complete_writeA, BitVec.toNat_add, BitVec.toNat_setWidth_of_le (by decide), State.aNat]

/-! ## LDR and STR (R123, R124) -/

/-- Byte `j` of a big-endian string, from its value (R10). -/
theorem os2i_div_mod {bs : Bytes} {j : Nat} (h : j < bs.length) :
    os2i bs / 256 ^ (bs.length - 1 - j) % 256 = byteAt bs j := by
  rw [← byteAt_i2os _ h, i2os_os2i]

/-- Byte `j` of a string read from DBUF (R62). -/
theorem byteAt_memRead (s : State) (addr : Nat) {n j : Nat} (h : j < n) :
    byteAt (s.memRead addr n) j = (s.dbufByte (addr + j)).toNat := by
  rw [byteAt, List.getD_eq_getElem?_getD, memRead_getElem? s addr h, Option.getD_some]

/-- Byte `j` of a number stored in DBUF (R63). -/
theorem dbufByte_memWrite_i2os (s : State) (addr v : Nat) {w j : Nat} (h : j < w) :
    ((s.memWrite addr (i2os v w)).dbufByte (addr + j)).toNat = v / 256 ^ (w - 1 - j) % 256 := by
  have hj : j < (i2os v w).length := by rwa [i2os_length]
  rw [dbufByte_memWrite_inside s addr hj, ← byteAt_i2os v h, byteAt, List.getD_eq_getElem _ _ hj]

/-- A 256-bit register holds the value of every 32-byte string (R20). -/
theorem toNat_ofNat_os2i {bs : Bytes} (h : bs.length = 32) : (BitVec.ofNat 256 (os2i bs)).toNat = os2i bs := by
  have hlt : os2i bs < 2 ^ 256 := by
    have hlen := os2i_lt bs
    rwa [h, show 256 = 2 ^ 8 from rfl, ← Nat.pow_mul] at hlen
  rw [BitVec.toNat_ofNat, Nat.mod_eq_of_lt hlt]

/-- Settles O28: the range check alone decides, and the register holds the value of the bytes read. -/
theorem loadRegister : Obligations.LoadRegister := by
  unfold Obligations.LoadRegister
  intro d a imm
  obtain ⟨-, -, -, hldr, -⟩ := encodingMap.1 d a d d d imm 0
  refine ⟨hldr, fun s => ⟨fun hin => ?_, fun hout => ?_⟩⟩
  · refine ⟨_, congrArg s.finish (checkRange_in _ _ hin), completed_writeR s d _, fun j hj => ?_⟩
    have hlen := memRead_length s (s.effAddr a imm) 32
    rw [rNat_complete_writeR, toNat_ofNat_os2i hlen]
    have hbyte := os2i_div_mod (hj.trans_eq hlen.symm)
    rwa [hlen, byteAt_memRead s _ hj] at hbyte
  · exact ⟨_, congrArg s.finish (checkRange_out _ _ hout), faulted_raise _ s _⟩

/-- Settles O29: the range check alone decides, and the bytes written are the register's. -/
theorem storeRegister : Obligations.StoreRegister := by
  unfold Obligations.StoreRegister
  intro src a imm
  obtain ⟨-, -, -, -, hstr, -⟩ := encodingMap.1 src a src src src imm 0
  refine ⟨hstr, fun s => ⟨rfl, fun hin => ?_, fun hout => ?_⟩⟩
  · refine ⟨_, congrArg s.finish (checkRange_in _ _ hin), completed_memWrite s _ _ (i2os_length _ _), fun j hj => ?_⟩
    rw [dbufByte_complete, dbufByte_memWrite_i2os s _ _ hj]
  · exact ⟨_, congrArg s.finish (checkRange_out _ _ hout), faulted_raise _ s _⟩

/-! ## MOVR and LDC (R125, R126) -/

/-- The constants of R126 in the order of their selectors; past them there is none. -/
theorem constValue_eq_getElem? (cid : BitVec 4) :
    constValue cid = [0, 1, Config.p, Config.a, Config.b, Config.n, Config.gx, Config.gy, Config.r2p, Config.r2n][cid.toNat]? := by
  unfold constValue
  generalize cid.toNat = k
  match k with
  | 0 | 1 | 2 | 3 | 4 | 5 | 6 | 7 | 8 | 9 => rfl
  | _ + 10 => rfl

/-- Every constant fits a register. -/
theorem constValue_lt {cid : BitVec 4} {v : Nat} (h : constValue cid = some v) : v < 2 ^ 256 := by
  have hr2p : Config.r2p < Config.p := by
    rw [Config.r2p]
    exact Nat.mod_lt _ (by decide)
  have hr2n : Config.r2n < Config.n := by
    rw [Config.r2n]
    exact Nat.mod_lt _ (by decide)
  have hp : Config.p < 2 ^ 256 := by decide
  have hn : Config.n < 2 ^ 256 := by decide
  unfold constValue at h
  split at h <;> simp only [Option.some.injEq, reduceCtorEq] at h <;> subst h
  case h_9 => exact hr2p.trans hp
  case h_10 => exact hr2n.trans hn
  all_goals decide

theorem execLdc_of_constValue {d : RegIdx} {cid : BitVec 4} {v : Nat} (s : State) (h : constValue cid = some v) :
    execLdc d cid s = .next (s.writeR d (BitVec.ofNat 256 v)).complete := by
  simp [execLdc, h]

/-- Settles O31: a legal selector has its constant, and the word of a reserved one does not decode. -/
theorem copyAndConstants : Obligations.CopyAndConstants := by
  unfold Obligations.CopyAndConstants
  refine ⟨fun d a => ?_, fun d cid => ?_⟩
  · obtain ⟨-, -, -, -, -, hmovr, -⟩ := encodingMap.1 d a d d d 0 0
    exact ⟨hmovr, reservedBitsFault rfl, fun s => ⟨_, rfl, completed_writeR s d _, regGet_regSet_same _ _ _⟩⟩
  · obtain ⟨-, -, -, -, -, -, hldc, -⟩ := encodingMap.1 d d d d d 0 cid
    refine ⟨reservedBitsFault rfl, hldc, fun hres => ?_, fun hlegal s => ?_⟩
    · have hd := decode_ldc_reserved d hres
      exact ⟨hd, fun s hcmd => runCommand_of_error (hcmd ▸ hd)⟩
    · have hsome : constValue cid ≠ none := fun hnone => Nat.not_le.2 hlegal (constValue_none.1 hnone)
      obtain ⟨v, hv⟩ := Option.ne_none_iff_exists'.1 hsome
      refine ⟨_, execLdc_of_constValue s hv, completed_writeR s d _, ?_⟩
      rw [rNat_complete_writeR, BitVec.toNat_ofNat,
        Nat.mod_eq_of_lt (constValue_lt hv), ← hv, constValue_eq_getElem?, Config.r2p, Config.r2n]

/-! ## Point registers (R127 to R131) -/

/-- The base point as a register holds it (R127): both coordinates fit. -/
theorem pointReg_generator :
    (pointReg generator).x.toNat = Config.gx ∧ (pointReg generator).y.toNat = Config.gy ∧ (pointReg generator).inf = false := by
  decide

/-- Settles O32: each of the four writes its point register and nothing checks. -/
theorem pointMoves : Obligations.PointMoves := by
  unfold Obligations.PointMoves
  refine ⟨fun d => ?_, fun d a b => ?_, fun d a => ?_, fun d => ?_⟩
  · obtain ⟨-, -, -, -, -, -, -, hpldg, -⟩ := encodingMap.1 d d d d d 0 0
    refine ⟨hpldg, reservedBitsFault rfl, fun s => ⟨_, rfl, completed_writeP s d _, ?_⟩⟩
    rw [regGet_complete_writeP]
    exact pointReg_generator
  · obtain ⟨-, -, -, -, -, -, -, -, hpset, -⟩ := encodingMap.1 d a b d d 0 0
    exact ⟨hpset, reservedBitsFault rfl, fun s => ⟨_, rfl, completed_writeP s d _, regGet_complete_writeP s d _⟩⟩
  · obtain ⟨-, -, -, -, -, -, -, -, -, -, hpmov, -⟩ := encodingMap.1 d a d d d 0 0
    exact ⟨hpmov, reservedBitsFault rfl, fun s => ⟨_, rfl, completed_writeP s d _, regGet_complete_writeP s d _⟩⟩
  · obtain ⟨-, -, -, -, -, -, -, -, -, -, -, hpsetinf, -⟩ := encodingMap.1 d d d d d 0 0
    exact ⟨hpsetinf, reservedBitsFault rfl, fun s => ⟨_, rfl, completed_writeP s d _, regGet_complete_writeP s d _⟩⟩

/-- Settles O33: the flag of the point register decides, and the ordinate is written last. -/
theorem pointCoordinates : Obligations.PointCoordinates := by
  unfold Obligations.PointCoordinates
  intro d e a
  obtain ⟨-, -, -, -, -, -, -, -, -, hpget, -⟩ := encodingMap.1 d e a d d 0 0
  refine ⟨hpget, reservedBitsFault rfl, fun s => ⟨fun hinf => ?_, fun hfin => ?_⟩⟩
  · exact ⟨_, congrArg s.finish (if_pos hinf), faulted_raise _ s _⟩
  · refine ⟨_, congrArg s.finish (if_neg (Bool.eq_false_iff.1 hfin)), completed_writeR_writeR s d e _ _,
      regGet_regSet_same _ _ _, fun hde => ?_⟩
    exact (regGet_regSet_other _ _ hde).trans (regGet_regSet_same _ _ _)

end Sys2Proof.Machine

/-! PROOFS. Field arithmetic (R140 to R144): the Montgomery product pinned by what it is times 2^256, and the reduced sum and
difference. -/

namespace Sys2Proof.Machine

/-! ## The Montgomery product (R140) -/

theorem coprime_two_pow {m : Nat} (hodd : m % 2 = 1) (k : Nat) : Nat.Coprime (2 ^ k) m :=
  Nat.Coprime.pow_left k (Nat.coprime_two_left.2 (Nat.odd_iff.2 hodd))

/-- `RINV` inverts the Montgomery radix (R140). -/
theorem inv_montR_mul_radix {m : Nat} (hodd : m % 2 = 1) (hm : 1 < m) : inv (Config.montR % m) m * 2 ^ 256 ≡ 1 [MOD m] := by
  have hc : Nat.Coprime (Config.montR % m) m := (Nat.mod_modEq _ m).gcd_eq.trans (coprime_two_pow hodd 256)
  have hinv : inv (Config.montR % m) m * (Config.montR % m) ≡ 1 [MOD m] := (inv_mul_mod hm hc).trans (Nat.mod_eq_of_lt hm).symm
  exact ((Nat.mod_modEq Config.montR m).symm.mul_left _).trans hinv

theorem montMul_lt {m : Nat} (x y : Nat) (hm : 0 < m) : montMul x y m < m := Nat.mod_lt _ hm

theorem montMul_comm (x y m : Nat) : montMul x y m = montMul y x m := by
  rw [montMul, montMul, Nat.mul_comm x y]

/-- Operands count modulo `M` only (R140: reduced or not). -/
theorem montMul_mod (x y m : Nat) : montMul (x % m) (y % m) m = montMul x y m :=
  ((Nat.mod_modEq x m).mul (Nat.mod_modEq y m)).mul_right _

/-- The Montgomery product by the inverse of the radix, reduced: `RINV` below `M`. -/
theorem montMul_eq_mul_mod_inv (x y m : Nat) : montMul x y m = x * y * (inv (Config.montR % m) m % m) % m :=
  (Nat.mod_modEq _ m).symm.mul_left _

/-- The defining property: the product times the radix is `x * y`. -/
theorem montMul_mul_radix {m : Nat} (x y : Nat) (hodd : m % 2 = 1) (hm : 1 < m) :
    montMul x y m * 2 ^ 256 ≡ x * y [MOD m] := by
  calc montMul x y m * 2 ^ 256
      ≡ x * y * inv (Config.montR % m) m * 2 ^ 256 [MOD m] := (Nat.mod_modEq _ m).mul_right _
    _ = x * y * (inv (Config.montR % m) m * 2 ^ 256) := Nat.mul_assoc _ _ _
    _ ≡ x * y * 1 [MOD m] := (inv_montR_mul_radix hodd hm).mul_left _
    _ = x * y := Nat.mul_one _

/-- The radix is prime to `M`, so the defining property pins the product. -/
theorem montMul_eq_mod {m x y z : Nat} (hodd : m % 2 = 1) (hm : 1 < m) (hz : z * 2 ^ 256 ≡ x * y [MOD m]) :
    montMul x y m = z % m := by
  have hmul : montMul x y m * 2 ^ 256 ≡ z * 2 ^ 256 [MOD m] := (montMul_mul_radix x y hodd hm).trans hz.symm
  have hcancel : montMul x y m ≡ z [MOD m] :=
    Nat.ModEq.cancel_right_of_coprime (coprime_two_pow hodd 256).symm hmul
  rw [← hcancel, Nat.mod_eq_of_lt (montMul_lt x y (by omega))]

/-- A product with a power of two sheds one radix. -/
theorem montMul_two_pow {m k e : Nat} (x : Nat) (hodd : m % 2 = 1) (hm : 1 < m) (he : k + 256 = e) :
    montMul x (2 ^ e % m) m = x * 2 ^ k % m := by
  apply montMul_eq_mod hodd hm
  rw [Nat.mul_assoc, ← Nat.pow_add, he]
  exact (Nat.mod_modEq (2 ^ e) m).symm.mul_left x

/-- Into the Montgomery domain: the product with `2^512 mod M` (R140). -/
theorem montMul_radix_sq {m : Nat} (x : Nat) (hodd : m % 2 = 1) (hm : 1 < m) :
    montMul x (2 ^ 512 % m) m = x * 2 ^ 256 % m :=
  montMul_two_pow x hodd hm rfl

/-- A plain product by two Montgomery products (R140). -/
theorem montMul_montMul_radix_sq {m : Nat} (x y : Nat) (hodd : m % 2 = 1) (hm : 1 < m) :
    montMul (montMul x (2 ^ 512 % m) m) y m = x * y % m := by
  apply montMul_eq_mod hodd hm
  rw [montMul_radix_sq x hodd hm, Nat.mul_right_comm]
  exact (Nat.mod_modEq _ m).symm.mul_right y

/-- Settles O34: `RINV` reduced is the inverse, and each identity follows from the product's defining property. -/
theorem montgomeryProduct : Obligations.MontgomeryProduct := by
  unfold Obligations.MontgomeryProduct
  refine ⟨by decide, fun m hodd hlow _ => ?_⟩
  have hm : 1 < m := by omega
  refine ⟨?_, fun x y _ _ => ?_⟩
  · have hinv : inv (Config.montR % m) m % m * 2 ^ 256 % m = 1 := by
      rw [((Nat.mod_modEq _ m).mul_right _).trans (inv_montR_mul_radix hodd hm), Nat.mod_eq_of_lt hm]
    have hpos : inv (Config.montR % m) m % m ≠ 0 := by
      intro hzero
      simp [hzero] at hinv
    exact ⟨_, Nat.pos_of_ne_zero hpos, Nat.mod_lt _ (by omega), hinv, fun x y => montMul_eq_mul_mod_inv x y m⟩
  · have hone := montMul_mul_radix x 1 hodd hm
    rw [Nat.mul_one] at hone
    exact ⟨montMul_lt x y (by omega), montMul_mul_radix x y hodd hm, montMul_radix_sq x hodd hm, hone,
      montMul_montMul_radix_sq x y hodd hm, montMul_comm x y m, (montMul_mod x y m).symm⟩

/-! ## Sums and differences (R142, R143) -/

/-- Both moduli are positive and fit a register (R6). -/
theorem modulusValue_bounds (m : Modulus) : 0 < modulusValue m ∧ modulusValue m < 2 ^ 256 := by
  cases m <;> decide

/-- A register holds every residue (R144). -/
theorem toNat_ofNat_of_lt_modulus {v : Nat} {m : Modulus} (h : v < modulusValue m) : (BitVec.ofNat 256 v).toNat = v := by
  obtain ⟨-, hfit⟩ := modulusValue_bounds m
  rw [BitVec.toNat_ofNat, Nat.mod_eq_of_lt (h.trans hfit)]

theorem addMod_lt {m : Nat} (x y : Nat) (h : 0 < m) : addMod x y m < m := Nat.mod_lt _ h

/-- `(x + y) mod m` is the remainder of the integer sum (R9). -/
theorem addMod_eq_int (x y m : Nat) : ((addMod x y m : Nat) : Int) = ((x : Int) + y) % m := by
  rw [addMod, Int.natCast_mod, Int.natCast_add]

/-- Settles O36: the words by the map of R96, and the register holds the residue of the integer sum or difference. -/
theorem addAndSubtract : Obligations.AddAndSubtract := by
  unfold Obligations.AddAndSubtract
  intro d a b m
  obtain ⟨hpos, -⟩ := modulusValue_bounds m
  obtain ⟨-, -, -, -, -, -, -, -, -, -, -, -, -, -, haddp, haddn, hsubp, hsubn, -⟩ := encodingMap.1 d a b d d 0 0
  refine ⟨reservedBitsFault rfl, reservedBitsFault rfl, ?_, fun s => ⟨?_, ?_⟩⟩
  · cases m with
    | p => exact ⟨haddp, hsubp, rfl⟩
    | n => exact ⟨haddn, hsubn, rfl⟩
  · refine ⟨_, rfl, completed_writeR s d _, ?_⟩
    rw [rNat_complete_writeR, toNat_ofNat_of_lt_modulus (addMod_lt _ _ hpos), addMod_eq_int]
  · refine ⟨_, rfl, completed_writeR s d _, ?_⟩
    rw [rNat_complete_writeR, toNat_ofNat_of_lt_modulus (subMod_lt hpos), subMod_eq_int _ _ hpos]

end Sys2Proof.Machine

/-! PROOFS. Point arithmetic (R150 to R159): multiples of a point through the group of the curve, the sum and the double by their
slope equations, then the commands that add, double and test points. -/

namespace Sys2Proof.Machine

/-! ## Multiples of a point of the curve (R153)

A point value stands for one point of the curve, and a point has one point value: each law is the group's. -/

section
variable {v : Point} (hv : onCurve v = true)
include hv

theorem onCurve_scalarMul {k : Nat} (hk : k < 2 ^ 256) : onCurve (scalarMul k v) = true := by
  have := fact_p
  obtain ⟨q, hq⟩ := represents_of_onCurve hv
  exact onCurve_of_represents (scalarMul_represents hq hk)

theorem scalarMul_one : scalarMul 1 v = v := by
  have := fact_p
  obtain ⟨q, hq⟩ := represents_of_onCurve hv
  have h := scalarMul_represents hq (k := 1) (by decide)
  rw [one_nsmul] at h
  exact represents_unique h hq

theorem scalarMul_add {j k : Nat} (hjk : j + k < 2 ^ 256) : scalarMul (j + k) v = pointAdd (scalarMul j v) (scalarMul k v) := by
  have := fact_p
  obtain ⟨q, hq⟩ := represents_of_onCurve hv
  have h := scalarMul_represents hq hjk
  rw [add_nsmul] at h
  exact represents_unique h (pointAdd_represents (scalarMul_represents hq (by omega)) (scalarMul_represents hq (by omega)))

theorem scalarMul_mul {j k : Nat} (hj : j < 2 ^ 256) (hk : k < 2 ^ 256) (hjk : j * k < 2 ^ 256) :
    scalarMul (j * k) v = scalarMul j (scalarMul k v) := by
  have := fact_p
  obtain ⟨q, hq⟩ := represents_of_onCurve hv
  have h := scalarMul_represents hq hjk
  rw [mul_nsmul'] at h
  exact represents_unique h (scalarMul_represents (scalarMul_represents hq hk) hj)

end

theorem scalarMul_inf {k : Nat} (hk : k < 2 ^ 256) : scalarMul k .inf = .inf := by
  have := fact_p
  have h := scalarMul_represents (represents_inf.2 rfl) hk
  rw [nsmul_zero] at h
  exact represents_unique h (represents_inf.2 rfl)

/-- Settles O39: double-and-add is the multiple of the group, so every bracketing is a law of multiples. -/
theorem scalarMulIsSum : Obligations.ScalarMulIsSum := by
  unfold Obligations.ScalarMulIsSum
  intro v hv
  refine ⟨scalarMul_one hv, fun k _ hk => ?_, fun j k => scalarMul_add hv, fun j k => scalarMul_mul hv,
    fun k => onCurve_scalarMul hv, fun k => scalarMul_inf⟩
  rw [scalarMul_add hv hk, scalarMul_one hv]

/-! ## The formulas (R150 to R152) -/

/-- The curve equation over the integers (R150). -/
theorem curveEquation_int (x y : Nat) :
    ((y : Int) * y - (x * x * x + Config.a * x + Config.b)) % (Config.p : Int) = 0 ↔ y * y % Config.p = curveRhs x := by
  rw [← Int.emod_eq_emod_iff_emod_sub_eq_zero, curveRhs]
  norm_cast

/-- The slope: a fraction `num / den` of residues solves its equation over the integers, `den` being no multiple of p. -/
theorem slope_solves {num den : Nat} {a b : Int} (hn : (num : Int) ≡ a [ZMOD Config.p]) (hd : (den : Int) ≡ b [ZMOD Config.p])
    (hb : ¬ (Config.p : Int) ∣ b) : (((num * inv den Config.p % Config.p : Nat) : Int) * b - a) % (Config.p : Int) = 0 := by
  have hc : Nat.Coprime den Config.p := by
    rw [Nat.coprime_comm, Nat.Prime.coprime_iff_not_dvd p_prime, ← Int.natCast_dvd_natCast]
    exact fun h => hb (hd.dvd_iff.1 h)
  have hinv : inv den Config.p * den ≡ 1 [MOD Config.p] :=
    (inv_mul_mod p_prime.one_lt hc).trans (Nat.mod_eq_of_lt p_prime.one_lt).symm
  have hnat : num * inv den Config.p % Config.p * den ≡ num [MOD Config.p] := by
    calc num * inv den Config.p % Config.p * den
        ≡ num * inv den Config.p * den [MOD Config.p] := (Nat.mod_modEq _ _).mul_right _
      _ = num * (inv den Config.p * den) := Nat.mul_assoc _ _ _
      _ ≡ num * 1 [MOD Config.p] := hinv.mul_left _
      _ = num := Nat.mul_one _
  have hint := Int.natCast_modEq_iff.2 hnat
  rw [Nat.cast_mul] at hint
  rw [← Int.emod_eq_emod_iff_emod_sub_eq_zero]
  exact ((hd.symm.mul_left _).trans hint).trans hn

theorem subMod_modEq (x y : Nat) : ((subMod x y Config.p : Nat) : Int) ≡ (x : Int) - y [ZMOD Config.p] := by
  rw [subMod_eq_int x y p_pos]
  exact Int.mod_modEq _ _

/-- The point the chord construction answers, over the integers: the last lines of R151 and R152. -/
theorem chord_coordinates (lam x1 y1 x2 : Nat) :
    ∃ x3 y3 : Nat, chord lam x1 y1 x2 = .affine x3 y3 ∧
      (x3 : Int) = ((lam : Int) * lam - x1 - x2) % (Config.p : Int) ∧
      (y3 : Int) = ((lam : Int) * ((x1 : Int) - x3) - y1) % (Config.p : Int) := by
  refine ⟨_, _, rfl, ?_, ?_⟩
  · rw [subMod_eq_int _ _ p_pos]
    exact (subMod_modEq (lam * lam) x1).sub_right _
  · rw [subMod_eq_int _ _ p_pos, Nat.cast_mul]
    exact ((subMod_modEq x1 _).mul_left _).sub_right _

/-- The difference of two distinct residues has an inverse (R151). -/
theorem not_dvd_sub_of_ne {x1 x2 : Nat} (h1 : x1 < Config.p) (h2 : x2 < Config.p) (hne : x1 ≠ x2) :
    ¬ (Config.p : Int) ∣ (x2 : Int) - x1 :=
  fun h => hne (Nat.ModEq.eq_of_lt_of_lt (Nat.modEq_iff_dvd.2 h) h1 h2)

/-- Twice a residue other than 0 has an inverse, p being odd (R152). -/
theorem not_dvd_two_mul {y : Nat} (h : y < Config.p) (h0 : y ≠ 0) : ¬ (Config.p : Int) ∣ 2 * (y : Int) := by
  have htwo : ¬ Config.p ∣ 2 := Nat.not_dvd_of_pos_of_lt (by decide) (by decide)
  have hy : ¬ Config.p ∣ y := Nat.not_dvd_of_pos_of_lt (Nat.pos_of_ne_zero h0) h
  have hprod : ¬ Config.p ∣ 2 * y := p_prime.prime.not_dvd_mul htwo hy
  exact_mod_cast hprod

theorem pointAdd_inf (v : Point) : pointAdd v .inf = v := by
  cases v with
  | inf => rfl
  | affine x y => rfl

theorem pointAdd_same_abscissa (x y1 y2 : Nat) :
    pointAdd (.affine x y1) (.affine x y2) = if (y1 + y2) % Config.p = 0 then .inf else pointDouble (.affine x y1) :=
  if_pos rfl

theorem pointAdd_chord {x1 x2 : Nat} (y1 y2 : Nat) (h : x1 ≠ x2) :
    pointAdd (.affine x1 y1) (.affine x2 y2) =
      chord (subMod y2 y1 Config.p * inv (subMod x2 x1 Config.p) Config.p % Config.p) x1 y1 x2 :=
  if_neg h

theorem pointDouble_chord (x1 : Nat) {y1 : Nat} (h : y1 ≠ 0) :
    pointDouble (.affine x1 y1) =
      chord ((3 * x1 * x1 + Config.a) * inv (2 * y1 % Config.p) Config.p % Config.p) x1 y1 x1 :=
  if_neg h

/-- Settles O37: the slopes solve their equations, and the chord construction gives the coordinates. -/
theorem pointAddFormulas : Obligations.PointAddFormulas := by
  unfold Obligations.PointAddFormulas
  refine ⟨rfl, fun x y => ?_, fun _ => rfl, pointAdd_inf, rfl, fun _ => rfl, fun x y1 y2 _ _ => ?_,
    fun x1 y1 x2 y2 h1 h2 hne => ?_, fun x1 y1 h1 hy0 => ?_⟩
  · rw [onCurve_iff, curveEquation_int]
  · rw [pointAdd_same_abscissa]
    exact ⟨fun h => if_pos h, fun h => if_neg h⟩
  · obtain ⟨hx1, -⟩ := (onCurve_iff x1 y1).1 h1
    obtain ⟨hx2, -⟩ := (onCurve_iff x2 y2).1 h2
    obtain ⟨x3, y3, hchord, hx3, hy3⟩ := chord_coordinates _ x1 y1 x2
    exact ⟨_, x3, y3, Nat.mod_lt _ p_pos,
      slope_solves (subMod_modEq y2 y1) (subMod_modEq x2 x1) (not_dvd_sub_of_ne hx1 hx2 hne),
      (pointAdd_chord y1 y2 hne).trans hchord, hx3, hy3⟩
  · obtain ⟨-, hy1, -⟩ := (onCurve_iff x1 y1).1 h1
    obtain ⟨x3, y3, hchord, hx3, hy3⟩ := chord_coordinates _ x1 y1 x1
    have hnum : ((3 * x1 * x1 + Config.a : Nat) : Int) ≡ 3 * x1 * x1 + Config.a [ZMOD Config.p] := by push_cast; rfl
    have hden : ((2 * y1 % Config.p : Nat) : Int) ≡ 2 * y1 [ZMOD Config.p] := by push_cast; exact Int.mod_modEq _ _
    refine ⟨_, x3, y3, Nat.mod_lt _ p_pos, slope_solves hnum hden (not_dvd_two_mul hy1 hy0),
      (pointDouble_chord x1 hy0).trans hchord, ?_, hy3⟩
    rw [hx3, sub_sub, ← two_mul]

/-! ## Points in point registers (R22) -/

theorem onCurve_pointAdd {v w : Point} (hv : onCurve v = true) (hw : onCurve w = true) : onCurve (pointAdd v w) = true := by
  have := fact_p
  obtain ⟨q, hq⟩ := represents_of_onCurve hv
  obtain ⟨r, hr⟩ := represents_of_onCurve hw
  exact onCurve_of_represents (pointAdd_represents hq hr)

theorem onCurve_pointDouble {v : Point} (hv : onCurve v = true) : onCurve (pointDouble v) = true := by
  have := fact_p
  obtain ⟨q, hq⟩ := represents_of_onCurve hv
  exact onCurve_of_represents (pointDouble_represents hq)

/-- The stored form of every point value is the one R22 allows. -/
theorem pointRegOk_pointReg (v : Point) : pointRegOk (pointReg v) = true := by
  cases v with
  | inf => rfl
  | affine x y => rfl

/-- Both coordinates of a point of the curve fit a point register. -/
theorem regPoint_pointReg {v : Point} (h : onCurve v = true) : regPoint (pointReg v) = v := by
  cases v with
  | inf => rfl
  | affine x y =>
    obtain ⟨hx, hy, -⟩ := (onCurve_iff x y).1 h
    exact congrArg₂ Point.affine (toNat_ofNat_of_lt_modulus (m := .p) hx) (toNat_ofNat_of_lt_modulus (m := .p) hy)

/-- The end of a command whose result is a point of the curve. -/
theorem completed_writeP_point (s : State) (d : RegIdx) {v : Point} (h : onCurve v = true) :
    State.Completed { p := [d] } s (s.writeP d (pointReg v)).complete ∧ (s.writeP d (pointReg v)).complete.point d = v ∧
      pointRegOk (regGet (s.writeP d (pointReg v)).complete.p d) = true := by
  rw [State.point, regGet_complete_writeP]
  exact ⟨completed_writeP s d _, regPoint_pointReg h, pointRegOk_pointReg v⟩

/-- A register's `inf` flag outweighs its coordinates (R22). -/
theorem onCurve_regPoint (v : PointReg) :
    onCurve (regPoint v) = true ↔ v.inf = true ∨ onCurve (.affine v.x.toNat v.y.toNat) = true := by
  cases hinf : v.inf with
  | true => simp [regPoint, hinf, onCurve]
  | false => simp [regPoint, hinf]

/-! ## PADD and PDBL (R155, R156) -/

/-- Two sources, either off the curve: the code is the same. -/
theorem checkPoint_checkPoint_off {α : Type} {v w : Point} (rest : Except FaultCode α)
    (h : onCurve v = false ∨ onCurve w = false) : checkPoint v (checkPoint w rest) = .error .offCurve := by
  rw [checkPoint_error, checkPoint_error]
  cases hv : onCurve v with
  | false => exact .inl ⟨rfl, rfl⟩
  | true => exact .inr ⟨rfl, .inl ⟨h.resolve_left (by simp [hv]), rfl⟩⟩

theorem execPadd_on {s : State} {a b : RegIdx} (d : RegIdx) (ha : onCurve (s.point a) = true) (hb : onCurve (s.point b) = true) :
    execPadd d a b s = .next (s.writeP d (pointReg (pointAdd (s.point a) (s.point b)))).complete := by
  simp only [execPadd, checkPoint_on _ ha, checkPoint_on _ hb, finish_ok]

theorem execPdbl_on {s : State} {a : RegIdx} (d : RegIdx) (ha : onCurve (s.point a) = true) :
    execPdbl d a s = .next (s.writeP d (pointReg (pointDouble (s.point a)))).complete := by
  simp only [execPdbl, checkPoint_on _ ha, finish_ok]

/-- Settles O41: the checks of the sources alone decide, and sum and double stay on the curve, so the register holds them. -/
theorem pointSumAndDouble : Obligations.PointSumAndDouble := by
  unfold Obligations.PointSumAndDouble
  refine ⟨fun d a b => ?_, fun d a => ?_⟩
  · obtain ⟨-, -, -, -, -, -, -, -, -, -, -, -, -, -, -, -, -, -, hpadd, -⟩ := encodingMap.1 d a b d d 0 0
    refine ⟨hpadd, reservedBitsFault rfl, fun s => ⟨fun hoff => ?_, fun ha hb => ?_⟩⟩
    · exact ⟨_, congrArg s.finish (checkPoint_checkPoint_off _ hoff), faulted_raise _ s _⟩
    · exact ⟨_, execPadd_on d ha hb, completed_writeP_point s d (onCurve_pointAdd ha hb)⟩
  · obtain ⟨-, -, -, -, -, -, -, -, -, -, -, -, -, -, -, -, -, -, -, hpdbl, -⟩ := encodingMap.1 d a d d d 0 0
    refine ⟨hpdbl, reservedBitsFault rfl, fun s => ⟨fun hoff => ?_, fun ha => ?_⟩⟩
    · exact ⟨_, congrArg s.finish (checkPoint_off _ hoff), faulted_raise _ s _⟩
    · exact ⟨_, execPdbl_on d ha, completed_writeP_point s d (onCurve_pointDouble ha)⟩

/-! ## PCHK and PINF (R158, R159) -/

/-- Settles O43: neither command checks its source, and each ends with its verdict in T. -/
theorem pointPredicates : Obligations.PointPredicates := by
  unfold Obligations.PointPredicates
  refine ⟨fun a => ?_, fun a => ?_⟩
  · obtain ⟨-, -, -, -, -, -, -, -, -, -, -, -, -, -, -, -, -, -, -, -, -, hpchk, -⟩ := encodingMap.1 a a a a a 0 0
    exact ⟨hpchk, reservedBitsFault rfl, fun s => ⟨_, rfl, completed_writeT s _, onCurve_regPoint (regGet s.p a)⟩⟩
  · obtain ⟨-, -, -, -, -, -, -, -, -, -, -, -, -, -, -, -, -, -, -, -, -, -, hpinf, -⟩ := encodingMap.1 a a a a a 0 0
    exact ⟨hpinf, reservedBitsFault rfl, fun s => ⟨_, rfl, completed_writeT s _, rfl⟩⟩

end Sys2Proof.Machine


/-! PROOFS. The point codec (R170 to R174): the bytes `Encode` writes, `Decode` by its first byte, and the two commands. -/

namespace Sys2Proof.Machine

/-! ## The bytes of an encoded point (R170) -/

/-- The three legal forms (R97). -/
theorem formOf_eq_some {form : BitVec 4} {f : PointForm} :
    formOf form = some f ↔ (form = 0#4 ∧ f = .uncompressed) ∨ (form = 1#4 ∧ f = .compressed) ∨ (form = 2#4 ∧ f = .hybrid) := by
  cases f <;> revert form <;> decide

theorem exists_formOf {form : BitVec 4} (h : form.toNat < 3) : ∃ f, formOf form = some f :=
  Option.ne_none_iff_exists'.1 fun hnone => Nat.not_le.2 h (formOf_none.1 hnone)

theorem byteAt_cons_zero (b : Byte) (bs : Bytes) : byteAt (b :: bs) 0 = b.toNat := rfl

theorem byteAt_cons_add (b : Byte) (bs : Bytes) (i : Nat) : byteAt (b :: bs) (1 + i) = byteAt bs i :=
  byteAt_append_right [b] bs i

theorem byteAt_encodePoint_first {form : BitVec 4} {f : PointForm} (hf : formOf form = some f) (x y : Nat) :
    byteAt (encodePoint x y f) 0 = if form = 0#4 then 0x04 else if form = 1#4 then 0x02 + y % 2 else 0x06 + y % 2 := by
  have hparity : y % 2 < 2 := Nat.mod_lt y (by decide)
  rcases formOf_eq_some.1 hf with ⟨rfl, rfl⟩ | ⟨rfl, rfl⟩ | ⟨rfl, rfl⟩
  · rfl
  · exact Nat.mod_eq_of_lt (show 0x02 + y % 2 < 2 ^ 8 by omega)
  · exact Nat.mod_eq_of_lt (show 0x06 + y % 2 < 2 ^ 8 by omega)

/-- Every form has the abscissa behind its first byte. -/
theorem encodePoint_abscissa (x y : Nat) (f : PointForm) : ∃ b ys, encodePoint x y f = b :: (i2os x 32 ++ ys) := by
  cases f with
  | uncompressed => exact ⟨0x04#8, i2os y 32, by simp [encodePoint]⟩
  | compressed => exact ⟨BitVec.ofNat 8 (0x02 + y % 2), [], by simp [encodePoint]⟩
  | hybrid => exact ⟨BitVec.ofNat 8 (0x06 + y % 2), i2os y 32, by simp [encodePoint]⟩

/-- The two forms of 65 bytes have the ordinate behind the abscissa. -/
theorem encodePoint_ordinate (x y : Nat) {f : PointForm} (hf : f ≠ .compressed) :
    ∃ b, encodePoint x y f = b :: i2os x 32 ++ i2os y 32 := by
  cases f with
  | uncompressed => exact ⟨0x04#8, by simp [encodePoint]⟩
  | compressed => exact absurd rfl hf
  | hybrid => exact ⟨BitVec.ofNat 8 (0x06 + y % 2), by simp [encodePoint]⟩

theorem byteAt_encodePoint_x (x y : Nat) (f : PointForm) {j : Nat} (hj : j < 32) :
    byteAt (encodePoint x y f) (1 + j) = x / 256 ^ (31 - j) % 256 := by
  obtain ⟨b, ys, he⟩ := encodePoint_abscissa x y f
  rw [he, byteAt_cons_add, byteAt_append_left _ (by rwa [i2os_length]), byteAt_i2os x hj]

theorem byteAt_encodePoint_y (x y : Nat) {f : PointForm} (hf : f ≠ .compressed) {j : Nat} (hj : j < 32) :
    byteAt (encodePoint x y f) (33 + j) = y / 256 ^ (31 - j) % 256 := by
  obtain ⟨b, he⟩ := encodePoint_ordinate x y hf
  have hlen : (b :: i2os x 32).length = 33 := by rw [List.length_cons, i2os_length]
  rw [he, ← hlen, byteAt_append_right, byteAt_i2os y hj]

/-! ## PENC (R172) -/

theorem decode_penc_reserved (o d a : RegIdx) {form : BitVec 4} (h : 3 ≤ form.toNat) :
    decode (0x30#8 ++ regField o ++ regField d ++ regField a ++ 0#8 ++ form) = .error .badFunction := by
  have hw : (0x30#8 ++ regField o ++ regField d ++ regField a ++ 0#8 ++ form : Word) = encode (.penc o d a form) := by
    apply BitVec.eq_of_toNat_eq
    simp only [encode, formatF, toNat_append_add, regField_toNat, BitVec.toNat_ofNat]
    omega
  have hres : (Instr.penc o d a form).wellFormed = false := decide_eq_false (Nat.not_lt.2 h)
  rw [hw, decode_encode_reserved hres]

/-- PENC's writes: the encoding, then its length. -/
def State.writeEncoding (s : State) (o d a : RegIdx) (f : PointForm) : State :=
  (s.memWrite (s.aNat d) (encodePoint (pointX (s.point a)) (pointY (s.point a)) f)).writeA o (BitVec.ofNat 32 (encodedLength f))

theorem execPenc_of_formOf {form : BitVec 4} {f : PointForm} (hf : formOf form = some f) (o d a : RegIdx) (s : State) :
    execPenc o d a form s =
      s.finish (checkFinite (s.point a)
        (checkRange s.params.bufsz (s.aNat d) (encodedLength f) .dstRange (.ok (s.writeEncoding o d a f)))) := by
  simp only [execPenc, hf, State.writeEncoding]

/-- A byte of a string in DBUF, as a number (R63). -/
theorem toNat_dbufByte_memWrite (s : State) (addr : Nat) {bs : Bytes} {i : Nat} (h : i < bs.length) :
    ((s.memWrite addr bs).dbufByte (addr + i)).toNat = byteAt bs i := by
  rw [dbufByte_memWrite_inside s addr h, byteAt, List.getD_eq_getElem _ _ h]

theorem not_inf_of_off {v : Point} (h : onCurve v = false) : v ≠ .inf := by
  rintro rfl
  cases h

section
variable {form : BitVec 4} {f : PointForm} (hf : formOf form = some f) {s : State} (o d a : RegIdx)
include hf

/-- PENC faults with the first of its checks that fails. -/
theorem penc_faultsWith {c : FaultCode}
    (h : (s.point a = .inf ∧ c = .infinity) ∨ (s.point a ≠ .inf ∧ onCurve (s.point a) = false ∧ c = .offCurve) ∨
      (s.point a ≠ .inf ∧ onCurve (s.point a) = true ∧ s.params.bufsz < s.aNat d + formLength form ∧ c = .dstRange)) :
    FaultsWith (.penc o d a form) s c := by
  refine ⟨_, (execPenc_of_formOf hf o d a s).trans (congrArg s.finish (checkFinite_error.2 ?_)), faulted_raise _ s c⟩
  rw [← formOf_length hf] at h
  rcases h with h | h | ⟨hne, hon, hout, rfl⟩
  · exact .inl h
  · exact .inr (.inl h)
  · exact .inr (.inr ⟨hne, hon, checkRange_out _ _ hout⟩)

theorem exec_penc_completes {x y : Nat} (hp : s.point a = .affine x y) (hon : onCurve (.affine x y) = true)
    (hin : s.aNat d + formLength form ≤ s.params.bufsz) :
    exec (.penc o d a form) s = .next (s.writeEncoding o d a f).complete := by
  refine (execPenc_of_formOf hf o d a s).trans ?_
  rw [← formOf_length hf] at hin
  rw [checkFinite_on _ (by simp [hp]) (by rwa [hp]), checkRange_in _ _ hin, finish_ok]

theorem completed_writeEncoding :
    State.Completed { a := [o], dbuf := (s.aNat d, formLength form) } s (s.writeEncoding o d a f).complete :=
  completed_memWrite_writeA s _ _ ((encodePoint_length _ _ f).trans (formOf_length hf)).le o _

theorem aNat_writeEncoding : (s.writeEncoding o d a f).complete.aNat o = formLength form := by
  rw [State.writeEncoding, aNat_complete_writeA, formOf_length hf, formLength]
  split <;> rfl

theorem dbufByte_writeEncoding {x y i : Nat} (hp : s.point a = .affine x y) (hi : i < formLength form) :
    ((s.writeEncoding o d a f).complete.dbufByte (s.aNat d + i)).toNat = byteAt (encodePoint x y f) i := by
  rw [← formOf_length hf] at hi
  simp only [State.writeEncoding, hp]
  exact toNat_dbufByte_memWrite s _ (hi.trans_eq (encodePoint_length x y f).symm)

end

theorem le_formLength (form : BitVec 4) : 33 ≤ formLength form := by
  rw [formLength]
  split <;> decide

/-- Settles O44: a legal form's checks in their order, then the bytes of its encoding; the word of a reserved form does not
decode. -/
theorem pointEncode : Obligations.PointEncode := by
  unfold Obligations.PointEncode
  intro o d a form
  obtain ⟨-, -, -, -, -, -, -, -, -, -, -, -, -, -, -, -, -, -, -, -, -, -, -, hpenc, -⟩ := encodingMap.1 o d a a a 0 form
  refine ⟨reservedBitsFault rfl, hpenc, fun hres => ?_, fun s => ⟨fun hform hinf => ?_, fun hform hoff => ?_,
    fun hform hne hon hout => ?_, fun x y hform hp hon hin => ?_⟩⟩
  · have hd := decode_penc_reserved o d a hres
    exact ⟨hd, fun s hcmd => runCommand_of_error (hcmd ▸ hd)⟩
  all_goals obtain ⟨f, hf⟩ := exists_formOf hform
  · exact penc_faultsWith hf o d a (.inl ⟨hinf, rfl⟩)
  · exact penc_faultsWith hf o d a (.inr (.inl ⟨not_inf_of_off hoff, hoff, rfl⟩))
  · exact penc_faultsWith hf o d a (.inr (.inr ⟨hne, hon, hout, rfl⟩))
  · have hlen := le_formLength form
    refine ⟨_, exec_penc_completes hf o d a hp hon hin, completed_writeEncoding hf o d a, aNat_writeEncoding hf o d a,
      ?_, fun j hj => ?_, fun hne j hj => ?_⟩
    · rw [← byteAt_encodePoint_first hf x y]
      exact dbufByte_writeEncoding hf o d a (i := 0) hp (by omega)
    · rw [Nat.add_assoc, dbufByte_writeEncoding hf o d a hp (by omega), byteAt_encodePoint_x x y f hj]
    · have hfull : formLength form = 65 := if_neg hne
      have hf' : f ≠ .compressed := by
        rintro rfl
        simp [formOf_eq_some, hne] at hf
      rw [Nat.add_assoc, dbufByte_writeEncoding hf o d a hp (by omega), byteAt_encodePoint_y x y hf' hj]

/-! ## What Decode returns (R171) -/

theorem decodedPoint_on {x y : Nat} (h : onCurve (.affine x y) = true) : decodedPoint x y = .ok (.affine x y) := if_pos h

theorem decodedPoint_off {x y : Nat} (h : onCurve (.affine x y) = false) : decodedPoint x y = .error .offCurve :=
  decodedPoint_error.2 ⟨h, rfl⟩

theorem finite_onCurve_of_decodedPoint {x y : Nat} {v : Point} (h : decodedPoint x y = .ok v) : v ≠ .inf ∧ onCurve v = true := by
  unfold decodedPoint at h
  split at h <;> cases h
  next hon => exact ⟨Point.noConfusion, hon⟩

theorem finite_onCurve_of_decompress {pc x : Nat} {v : Point} (h : decompress pc x = .ok v) : v ≠ .inf ∧ onCurve v = true := by
  unfold decompress at h
  dsimp only at h
  split_ifs at h <;> exact finite_onCurve_of_decodedPoint h

/-- Whatever decodes is a finite point of the curve: every branch ends in the last check of R171 or in a fault. -/
theorem finite_onCurve_of_decodePoint {bs : Bytes} {v : Point} (h : decodePoint bs = .ok v) : v ≠ .inf ∧ onCurve v = true := by
  unfold decodePoint decodePrefixed at h
  dsimp only at h
  split_ifs at h
  · exact finite_onCurve_of_decodedPoint h
  · exact finite_onCurve_of_decompress h

/-! ## PDEC (R173) -/

theorem execPdec_of_error {s : State} {src l : RegIdx} {c : FaultCode} (d : RegIdx) (hin : s.aNat src + s.aNat l ≤ s.params.bufsz)
    (h : decodePoint (s.memRead (s.aNat src) (s.aNat l)) = .error c) : execPdec d src l s = .next (s.raise c) := by
  simp only [execPdec, checkRange_in _ _ hin, h, finish_error]

theorem execPdec_of_ok {s : State} {src l : RegIdx} {v : Point} (d : RegIdx) (hin : s.aNat src + s.aNat l ≤ s.params.bufsz)
    (h : decodePoint (s.memRead (s.aNat src) (s.aNat l)) = .ok v) :
    execPdec d src l s = .next (s.writeP d (pointReg v)).complete := by
  simp only [execPdec, checkRange_in _ _ hin, h, finish_ok]

/-- Settles O45: the range check, then `Decode` decides; what it returns is on the curve, so the register holds it. -/
theorem pointDecode : Obligations.PointDecode := by
  unfold Obligations.PointDecode
  intro d src l
  obtain ⟨-, -, -, -, -, -, -, -, -, -, -, -, -, -, -, -, -, -, -, -, -, -, -, -, hpdec, -⟩ := encodingMap.1 d src l l l 0 0
  refine ⟨hpdec, reservedBitsFault rfl, fun s => ⟨fun hout => ?_, fun hin => ⟨fun c hc => ?_, fun v hv => ?_⟩⟩⟩
  · exact ⟨_, congrArg s.finish (checkRange_out _ _ hout), faulted_raise _ s _⟩
  · exact ⟨_, execPdec_of_error d hin hc, faulted_raise _ s c⟩
  · obtain ⟨hfin, hon⟩ := finite_onCurve_of_decodePoint hv
    obtain ⟨hcompleted, hpoint, -⟩ := completed_writeP_point s d hon
    exact ⟨_, execPdec_of_ok d hin hv, hcompleted, hpoint, hfin⟩

/-! ## Decode by its first byte (R171) -/

/-- The compatibility rule: 64 bytes are decoded behind a byte `04`, which makes them 65. -/
theorem decodePoint_prefixless {bs : Bytes} (h : bs.length = 64) : decodePoint bs = decodePoint (0x04#8 :: bs) := by
  simp [decodePoint, withPrefix, h]

/-- Any other string is decoded as it stands. -/
theorem decodePoint_cons (pc : Byte) {rest : Bytes} (h : rest.length ≠ 63) :
    decodePoint (pc :: rest) = decodePrefixed (pc :: rest) := by
  simp [decodePoint, withPrefix, h]

/-- The first byte of a form that carries both coordinates. -/
theorem mem_fullPrefixes {pc : Byte} : pc ∈ [0x04#8, 0x06#8, 0x07#8] ↔ pc.toNat = 0x04 ∨ pc.toNat = 0x06 ∨ pc.toNat = 0x07 := by
  simp [← BitVec.toNat_inj]

/-- The first byte of the compressed form. -/
theorem mem_compressedPrefixes {pc : Byte} : pc ∈ [0x02#8, 0x03#8] ↔ pc.toNat = 0x02 ∨ pc.toNat = 0x03 := by
  simp [← BitVec.toNat_inj]

theorem not_fullPrefix_of_compressedPrefix {pc : Byte} (h : pc ∈ [0x02#8, 0x03#8]) :
    ¬(pc.toNat = 0x04 ∨ pc.toNat = 0x06 ∨ pc.toNat = 0x07) := by
  have := mem_compressedPrefixes.1 h
  omega

theorem decodePoint_badPrefix {pc : Byte} {rest : Bytes} (h63 : rest.length ≠ 63)
    (hpc : pc ∉ [0x02#8, 0x03#8, 0x04#8, 0x06#8, 0x07#8]) : decodePoint (pc :: rest) = .error .badPrefix := by
  have hcompressed := mem_compressedPrefixes.not.1 fun h => hpc (List.mem_append_left [0x04#8, 0x06#8, 0x07#8] h)
  have hfull := mem_fullPrefixes.not.1 fun h => hpc (List.mem_append_right [0x02#8, 0x03#8] h)
  simp [decodePoint_cons pc h63, decodePrefixed, byteAt_cons_zero, hcompressed, hfull]

theorem decodePoint_full_badLength {pc : Byte} {rest : Bytes} (h63 : rest.length ≠ 63) (hpc : pc ∈ [0x04#8, 0x06#8, 0x07#8])
    (h64 : rest.length ≠ 64) : decodePoint (pc :: rest) = .error .badPointLength := by
  simp [decodePoint_cons pc h63, decodePrefixed, byteAt_cons_zero, mem_fullPrefixes.1 hpc, h64]

theorem decodePoint_compressed_badLength {pc : Byte} {rest : Bytes} (h63 : rest.length ≠ 63) (hpc : pc ∈ [0x02#8, 0x03#8])
    (h32 : rest.length ≠ 32) : decodePoint (pc :: rest) = .error .badPointLength := by
  simp [decodePoint_cons pc h63, decodePrefixed, byteAt_cons_zero, not_fullPrefix_of_compressedPrefix hpc,
    mem_compressedPrefixes.1 hpc, h32]

section
variable {pc : Byte} {xb yb : Bytes} (hx : xb.length = 32)
include hx

/-- A form with both coordinates, at its length: the parity check of a hybrid first byte, then the last check. -/
theorem decodePoint_coordinates (hy : yb.length = 32) (hpc : pc ∈ [0x04#8, 0x06#8, 0x07#8]) :
    decodePoint (pc :: (xb ++ yb)) =
      if pc.toNat ≠ 0x04 ∧ os2i yb % 2 ≠ pc.toNat % 2 then .error .hybridParity else decodedPoint (os2i xb) (os2i yb) := by
  have hlen : (xb ++ yb).length = 64 := by rw [List.length_append, hx, hy]
  simp [decodePoint_cons pc (show (xb ++ yb).length ≠ 63 by omega), decodePrefixed, byteAt_cons_zero, mem_fullPrefixes.1 hpc,
    slice_cons_one pc xb yb hx, slice_cons_33 pc xb yb hx hy, hx, hy]

theorem decodePoint_uncompressed (hy : yb.length = 32) : decodePoint (0x04#8 :: (xb ++ yb)) = decodedPoint (os2i xb) (os2i yb) := by
  rw [decodePoint_coordinates hx hy (by decide), if_neg (fun h => h.1 rfl)]

theorem decodePoint_hybrid (hy : yb.length = 32) (hpc : pc ∈ [0x06#8, 0x07#8]) :
    decodePoint (pc :: (xb ++ yb)) =
      if os2i yb % 2 ≠ pc.toNat % 2 then .error .hybridParity else decodedPoint (os2i xb) (os2i yb) := by
  have hne : pc.toNat ≠ 0x04 := fun h => by simp [← BitVec.toNat_inj, h] at hpc
  rw [decodePoint_coordinates hx hy (List.mem_cons_of_mem _ hpc)]
  simp only [hne, ne_eq, not_false_eq_true, true_and]

theorem decodePoint_abscissa (hpc : pc ∈ [0x02#8, 0x03#8]) : decodePoint (pc :: xb) = decompress pc.toNat (os2i xb) := by
  have hslice := slice_cons_one pc xb [] hx
  rw [List.append_nil] at hslice
  simp [decodePoint_cons pc (show xb.length ≠ 63 by omega), decodePrefixed, byteAt_cons_zero, hslice,
    not_fullPrefix_of_compressedPrefix hpc, mem_compressedPrefixes.1 hpc, hx]

end

theorem decompress_large {x : Nat} (pc : Nat) (h : Config.p ≤ x) : decompress pc x = .error .offCurve := if_pos h

/-- Settles O46: each first byte has its branch, and the compressed branch finds the root of the right parity where there is
one. -/
theorem decodeChecks : Obligations.DecodeChecks := by
  unfold Obligations.DecodeChecks
  refine ⟨rfl, fun bs => decodePoint_prefixless, fun pc rest h63 => ⟨decodePoint_badPrefix h63,
      decodePoint_full_badLength h63, decodePoint_compressed_badLength h63⟩,
    fun xb yb hx hy => ?_, fun pc xb yb hpc hx hy => ?_, fun pc xb hpc hx => ?_⟩
  · rw [decodePoint_uncompressed hx hy]
    exact ⟨decodedPoint_on, decodedPoint_off⟩
  · rw [decodePoint_hybrid hx hy hpc, decodePoint_uncompressed hx hy]
    exact ⟨fun h => if_pos h, fun h => if_neg (not_not.2 h)⟩
  · rw [decodePoint_abscissa hx hpc]
    exact ⟨decompress_large _, fun hlt => ⟨fun y hy hroot hparity => decompress_root hlt hy hroot hparity, decompress_noRoot hlt⟩⟩

end Sys2Proof.Machine

/-! PROOFS. Key derivation (R180, R181): the bytes of `Kdf` block by block, and the KDF command. -/

namespace Sys2Proof.Machine

/-! ## The bytes of Kdf (R180) -/

section
variable {H : Bytes → Bytes} (hH : ∀ b, (H b).length = 32) (z : Bytes)
include hH

/-- Byte `j` of the blocks stands in the block `j / 32` places after the first. -/
theorem kdfBlocks_getElem? {n j : Nat} (ct : Nat) (hj : j < 32 * n) :
    (kdfBlocks H z n ct)[j]? = (H (z ++ i2os (j / 32 + ct) 4))[j % 32]? := by
  induction n generalizing ct j with
  | zero => omega
  | succ n ih =>
    rw [kdfBlocks]
    by_cases hfirst : j < 32
    · rw [List.getElem?_append_left (by rwa [hH]), Nat.div_eq_of_lt hfirst, Nat.mod_eq_of_lt hfirst, Nat.zero_add]
    · obtain ⟨i, rfl⟩ := Nat.exists_eq_add_of_le (Nat.not_lt.1 hfirst)
      have hdiv : (32 + i) / 32 + ct = i / 32 + (ct + 1) := by omega
      rw [List.getElem?_append_right (by rw [hH]; omega), hH, Nat.add_sub_cancel_left, ih (ct + 1) (by omega), hdiv,
        Nat.add_mod_left]

/-- The blocks reach the output's end, so the truncation leaves its exact length. -/
theorem kdfOutput_length (outLen : Nat) : (kdfOutput H z outLen).length = outLen := by
  rw [kdfOutput, List.length_take, kdfBlocks_length H hH, Config.hlen]
  omega

theorem kdfOutput_getElem? {outLen j : Nat} (hj : j < outLen) :
    (kdfOutput H z outLen)[j]? = (H (z ++ i2os (j / 32 + 1) 4))[j % 32]? := by
  rw [kdfOutput, List.getElem?_take_of_lt hj]
  exact kdfBlocks_getElem? hH z 1 (by rw [Config.hlen]; omega)

/-- The all-zero test of R180, by the bytes of the hash values. -/
theorem kdfOutput_all_zero (outLen : Nat) :
    (kdfOutput H z outLen).all (· == 0) = true ↔ ∀ j < outLen, (H (z ++ i2os (j / 32 + 1) 4))[j % 32]? = some 0#8 := by
  have hlen := kdfOutput_length hH z outLen
  rw [List.all_eq_true, List.forall_mem_iff_getElem]
  constructor
  · intro h j hj
    rw [← kdfOutput_getElem? hH z hj, List.getElem?_eq_getElem (hj.trans_eq hlen.symm)]
    exact congrArg some (beq_iff_eq.1 (h j _))
  · intro h j hj
    have hzero := h j (hj.trans_eq hlen)
    rw [← kdfOutput_getElem? hH z (hj.trans_eq hlen), List.getElem?_eq_getElem hj] at hzero
    exact beq_iff_eq.2 (Option.some.inj hzero)

end

theorem kdf_of_ne_zero (H : Bytes → Bytes) (z : Bytes) {outLen : Nat} (h : outLen ≠ 0) :
    kdf H z outLen = if (kdfOutput H z outLen).all (· == 0) then .error .kdfZero else .ok (kdfOutput H z outLen) := if_neg h

/-- Settles O48: the output has the bytes of the blocks, so the all-zero test is the one on the hash values. -/
theorem kdfBytes : Obligations.KdfBytes := by
  unfold Obligations.KdfBytes
  intro H hH z outLen
  have hzero := kdfOutput_all_zero hH z outLen
  refine ⟨fun h => if_pos h, fun h hall => ?_, fun h hnot => ?_⟩
  · rw [kdf_of_ne_zero H z h, if_pos (hzero.2 hall)]
  · rw [kdf_of_ne_zero H z h, if_neg (mt hzero.1 hnot)]
    exact ⟨_, rfl, kdfOutput_length hH z outLen, fun j => kdfOutput_getElem? hH z⟩

/-! ## KDF (R181) -/

section
variable {s : State} {d src l o : RegIdx} (h0 : s.aNat o ≠ 0) (hsrc : s.aNat src + s.aNat l ≤ s.params.bufsz)
include h0 hsrc

theorem execKdf_dstRange (hdst : s.params.bufsz < s.aNat d + s.aNat o) : execKdf d src l o s = .next (s.raise .dstRange) := by
  simp only [execKdf, if_neg h0, checkRange_in _ _ hsrc, checkRange_out _ _ hdst, finish_error]

variable (hdst : s.aNat d + s.aNat o ≤ s.params.bufsz)
include hdst

theorem execKdf_of_error {c : FaultCode} (h : kdf Config.hash (s.memRead (s.aNat src) (s.aNat l)) (s.aNat o) = .error c) :
    execKdf d src l o s = .next (s.raise c) := by
  simp only [execKdf, if_neg h0, checkRange_in _ _ hsrc, checkRange_in _ _ hdst, h, finish_error]

theorem execKdf_of_ok {t : Bytes} (h : kdf Config.hash (s.memRead (s.aNat src) (s.aNat l)) (s.aNat o) = .ok t) :
    execKdf d src l o s = .next (s.memWrite (s.aNat d) t).complete := by
  simp only [execKdf, if_neg h0, checkRange_in _ _ hsrc, checkRange_in _ _ hdst, h, finish_ok]

end

/-- Settles O49: the three checks in their order, then `Kdf` decides; what it returns has the length of the region written. -/
theorem kdfCommand : Obligations.KdfCommand := by
  unfold Obligations.KdfCommand
  intro d src l o
  obtain ⟨-, -, -, -, -, -, -, -, -, -, -, -, -, -, -, -, -, -, -, -, -, -, -, -, -, hkdf, -⟩ := encodingMap.1 d src l o o 0 0
  refine ⟨hkdf, reservedBitsFault rfl, fun s => ⟨fun h0 => ?_, fun h0 hsrc => ?_, fun h0 hsrc hdst => ?_,
    fun h0 hsrc hdst => ⟨fun hzero => ?_, fun t ht => ?_⟩⟩⟩
  · exact ⟨_, congrArg s.finish (if_pos h0), faulted_raise _ s _⟩
  · exact ⟨_, congrArg s.finish ((if_neg h0).trans (checkRange_out _ _ hsrc)), faulted_raise _ s _⟩
  · exact ⟨_, execKdf_dstRange h0 hsrc hdst, faulted_raise _ s _⟩
  · exact ⟨_, execKdf_of_error h0 hsrc hdst hzero, faulted_raise _ s _⟩
  · have hlen := kdf_ok_length hash_length ht
    refine ⟨_, execKdf_of_ok h0 hsrc hdst ht, completed_memWrite s _ t hlen, ?_⟩
    rw [← hlen]
    exact memRead_memWrite s _ t

end Sys2Proof.Machine

/-! PROOFS. Signatures (R200 to R205): the identity hash in a register, and what VERIFY answers at each of its checks. -/

namespace Sys2Proof.Machine

/-! ## The check of a public key (R154) -/

theorem checkFinite_inf {α : Type} {v : Point} (rest : Except FaultCode α) (h : v = .inf) :
    checkFinite v rest = .error .infinity := if_pos h

theorem checkFinite_off {α : Type} {v : Point} (rest : Except FaultCode α) (h : onCurve v = false) :
    checkFinite v rest = .error .offCurve := checkFinite_error.2 (.inr (.inl ⟨not_inf_of_off h, h, rfl⟩))

/-! ## ZA (R200, R202) -/

theorem zaOf_length (ident : Bytes) (q : Point) : (zaOf Config.hash ident q).length = 32 := hash_length _

/-- A field register loses nothing of a 32-byte string (R20). -/
theorem i2os_rNat_complete_writeR (s : State) (d : RegIdx) {bs : Bytes} (h : bs.length = 32) :
    i2os ((s.writeR d (BitVec.ofNat 256 (os2i bs))).complete.rNat d) 32 = bs := by
  rw [rNat_complete_writeR, toNat_ofNat_os2i h, ← h, i2os_os2i]

theorem execZa_of_finite {s : State} {a : RegIdx} (d : RegIdx) (hfin : s.point a ≠ .inf) (hon : onCurve (s.point a) = true) :
    execZa d a s = .next (s.writeR d (BitVec.ofNat 256 (os2i (zaOf Config.hash s.userId (s.point a))))).complete :=
  congrArg s.finish (checkFinite_on _ hfin hon)

/-- Settles O55: the check of the point decides, and the register holds the 32 bytes of the hash. -/
theorem zaCommand : Obligations.ZaCommand := by
  unfold Obligations.ZaCommand
  intro d a
  obtain ⟨-, -, -, -, -, -, -, -, -, -, -, -, -, -, -, -, -, -, -, -, -, -, -, -, -, -, -, -, -, hza, -⟩ :=
    encodingMap.1 d a a a a 0 0
  refine ⟨hza, reservedBitsFault rfl, fun s => ⟨fun hinf => ?_, fun hoff => ?_, fun x y hp hon => ?_⟩⟩
  · exact ⟨_, congrArg s.finish (checkFinite_inf _ hinf), faulted_raise _ s _⟩
  · exact ⟨_, congrArg s.finish (checkFinite_off _ hoff), faulted_raise _ s _⟩
  · refine ⟨_, execZa_of_finite d (hp ▸ Point.noConfusion) (hp ▸ hon), completed_writeR s d _, ?_⟩
    rw [hp]
    exact i2os_rNat_complete_writeR s d (zaOf_length _ _)

/-! ## The verdict of VERIFY (R203) -/

/-- The equation of R203: the sum is a finite point whose abscissa gives r back. -/
theorem verifyEquation_iff (e r sg : Nat) (q : Point) :
    verifyEquation e r sg q = true ↔ (r + sg) % Config.n ≠ 0 ∧
      ∃ x1 y1, pointAdd (scalarMul sg generator) (scalarMul ((r + sg) % Config.n) q) = .affine x1 y1 ∧
        (e + x1) % Config.n = r := by
  unfold verifyEquation
  by_cases ht : (r + sg) % Config.n = 0
  · simp [ht]
  · cases hsum : pointAdd (scalarMul sg generator) (scalarMul ((r + sg) % Config.n) q) with
    | inf => simp [ht, hsum]
    | affine x1 y1 => simp [ht, hsum]

theorem verifyPair_outOfRange (H : Bytes → Bytes) (ident msg : Bytes) (q : Point) {r sg : Nat}
    (h : r = 0 ∨ Config.n ≤ r ∨ sg = 0 ∨ Config.n ≤ sg) : verifyPair H ident msg q r sg = .ok false := if_pos h

theorem verifyPair_inRange (H : Bytes → Bytes) (ident msg : Bytes) (q : Point) {r sg : Nat}
    (hr : 1 ≤ r) (hrn : r < Config.n) (hs : 1 ≤ sg) (hsn : sg < Config.n) :
    verifyPair H ident msg q r sg = checkFinite q (.ok (verifyEquation (digestOf H ident q msg) r sg q)) := if_neg (by omega)

section
variable {src l g h q : RegIdx} {s : State}

section
variable (hsrc : s.aNat src + s.aNat l ≤ s.params.bufsz) (hsig : s.aNat g + s.aNat h ≤ s.params.bufsz)
include hsrc hsig

theorem verifyResult_parseError {c : FaultCode}
    (hparse : parseSig (s.memRead (s.aNat g) (s.aNat h)) s.cfg.sigenc = .error c) :
    verifyResult Config.hash src l g h q s = .error c := by
  simp only [verifyResult, checkRange_in _ _ hsrc, checkRange_in _ _ hsig, hparse]

theorem verifyResult_parsed {r sg : Nat}
    (hparse : parseSig (s.memRead (s.aNat g) (s.aNat h)) s.cfg.sigenc = .ok (r, sg)) :
    verifyResult Config.hash src l g h q s =
      verifyPair Config.hash s.userId (s.memRead (s.aNat src) (s.aNat l)) (s.point q) r sg := by
  simp only [verifyResult, checkRange_in _ _ hsrc, checkRange_in _ _ hsig, hparse]

end

theorem verify_faultsWith {c : FaultCode} (hres : verifyResult Config.hash src l g h q s = .error c) :
    FaultsWith (.verify src l g h q) s c := by
  have hexec : execVerify src l g h q s = .next (s.raise c) := by simp only [execVerify, hres, finish_error]
  exact ⟨_, hexec, faulted_raise _ s c⟩

theorem verify_completes {v : Bool} (hres : verifyResult Config.hash src l g h q s = .ok v) :
    ∃ s', exec (.verify src l g h q) s = .next s' ∧ State.Completed { t := true } s s' ∧ s'.t = v := by
  have hexec : execVerify src l g h q s = .next (s.writeT v).complete := by simp only [execVerify, hres, finish_ok]
  exact ⟨_, hexec, completed_writeT s v, rfl⟩

end

/-- Settles O57: each check that fails is the result's fault, and the pair of a parsed signature has a verdict, which is T. -/
theorem verifyCommand : Obligations.VerifyCommand := by
  unfold Obligations.VerifyCommand
  intro src l g h q
  obtain ⟨-, -, -, -, -, -, -, -, -, -, -, -, -, -, -, -, -, -, -, -, -, -, -, -, -, -, -, -, -, -, -, hverify⟩ :=
    encodingMap.1 src l g h q 0 0
  refine ⟨hverify, reservedBitsFault rfl, fun s => ⟨fun hout => ?_, fun hsrc hout => ?_,
    fun hsrc hsig => ⟨fun c hc => ?_, fun r sg hparse => ?_⟩⟩⟩
  · exact verify_faultsWith (checkRange_out _ _ hout)
  · exact verify_faultsWith ((checkRange_in _ _ hsrc).trans (checkRange_out _ _ hout))
  · exact verify_faultsWith (verifyResult_parseError hsrc hsig hc)
  · have hpair := verifyResult_parsed (q := q) hsrc hsig hparse
    refine ⟨fun hrange => ?_, fun hr hrn hs hsn => ?_⟩
    · exact verify_completes (hpair.trans (verifyPair_outOfRange _ _ _ _ hrange))
    · rw [verifyPair_inRange _ _ _ _ hr hrn hs hsn] at hpair
      refine ⟨fun hinf => ?_, fun hoff => ?_, fun hfin hon => ?_⟩
      · exact verify_faultsWith (hpair.trans (checkFinite_inf _ hinf))
      · exact verify_faultsWith (hpair.trans (checkFinite_off _ hoff))
      · obtain ⟨s', hexec, hcompleted, ht⟩ := verify_completes (hpair.trans (checkFinite_on _ hfin hon))
        exact ⟨s', hexec, hcompleted, ht ▸ verifyEquation_iff _ r sg (s.point q)⟩

end Sys2Proof.Machine

/-! PROOFS. The hash (R220 to R226): a message that is one block after padding, and the known values. -/

namespace Sys2Proof.Machine

/-- The bound of R223 for one block: 64 bytes less the byte `80` and the eight bytes of the bit length. -/
theorem sm3Pad_length_of_le {msg : Bytes} (h : msg.length ≤ 55) : (sm3Pad msg).length = 64 := by
  simp only [sm3Pad, sm3ZeroBytes, List.length_append, List.length_singleton, List.length_replicate, i2os_length]
  omega

theorem sm3Blocks_one {block : Bytes} (v : Sm3Words) (h : block.length = 64) : sm3Blocks 1 block v = sm3Block v block := by
  rw [sm3Blocks, sm3Blocks, List.take_of_length_le h.le]

/-- The hash of a short message is one compression from the initial value (R225). -/
theorem hash_of_length_le {msg : Bytes} (h : msg.length ≤ 55) :
    Config.hash msg = sm3Digest (sm3Block sm3IV (sm3Pad msg)) := by
  have hlen := sm3Pad_length_of_le h
  rw [Config.hash, sm3, hlen, Nat.div_self (by decide), sm3Blocks_one _ hlen]

/-- Settles O50: each message is one block after padding, and the kernel evaluates its compression. -/
theorem hashKnownValues : Obligations.HashKnownValues := by
  unfold Obligations.HashKnownValues
  refine ⟨?abc, ?empty, ?counterOne⟩
  case abc => exact (hash_of_length_le (by decide)).trans (by decide +kernel)
  case empty => exact (hash_of_length_le (by decide)).trans (by decide +kernel)
  case counterOne => exact (hash_of_length_le (by decide)).trans (by decide +kernel)

end Sys2Proof.Machine

/-! PROOFS. Decoding and encoding, both ways (R90 to R98). -/

namespace Sys2Proof.Machine

/-- What decodes is legal: a reserved selector is refused (R97, R98). -/
theorem wellFormed_of_decode {w : Word} {i : Instr} (h : decode w = .ok i) : i.wellFormed = true := by
  by_contra hres
  rw [← encode_of_decode h, decode_encode_reserved (Bool.eq_false_iff.2 hres)] at h
  cases h

/-- Settles O3: decoding undoes encoding, and what decodes is legal and the encoding of what it decodes to. -/
theorem decodeEncodeAgree : Obligations.DecodeEncodeAgree := by
  unfold Obligations.DecodeEncodeAgree
  intro w i
  constructor
  · exact fun h => ⟨wellFormed_of_decode h, (encode_of_decode h).symm⟩
  · rintro ⟨hw, rfl⟩
    exact decode_encode hw

end Sys2Proof.Machine

/-! PROOFS. The group of the curve (R153), the order of the generator (R7, R161), and the commands SMUL and MONTMUL. -/

namespace Sys2Proof.Machine

/-! ## PointAdd is a group law (R153)

As for the multiples of a point: a point value stands for one point of the curve, so each law is the group's. -/

theorem pointAdd_assoc {u v w : Point} (hu : onCurve u = true) (hv : onCurve v = true) (hw : onCurve w = true) :
    pointAdd (pointAdd u v) w = pointAdd u (pointAdd v w) := by
  have := fact_p
  obtain ⟨a, ha⟩ := represents_of_onCurve hu
  obtain ⟨b, hb⟩ := represents_of_onCurve hv
  obtain ⟨c, hc⟩ := represents_of_onCurve hw
  have h := pointAdd_represents (pointAdd_represents ha hb) hc
  rw [add_assoc] at h
  exact represents_unique h (pointAdd_represents ha (pointAdd_represents hb hc))

theorem pointAdd_comm {v w : Point} (hv : onCurve v = true) (hw : onCurve w = true) : pointAdd v w = pointAdd w v := by
  have := fact_p
  obtain ⟨a, ha⟩ := represents_of_onCurve hv
  obtain ⟨b, hb⟩ := represents_of_onCurve hw
  have h := pointAdd_represents ha hb
  rw [add_comm] at h
  exact represents_unique h (pointAdd_represents hb ha)

theorem exists_pointAdd_eq_inf {v : Point} (hv : onCurve v = true) : ∃ w, onCurve w = true ∧ pointAdd v w = .inf := by
  have := fact_p
  obtain ⟨a, ha⟩ := represents_of_onCurve hv
  obtain ⟨w, hw⟩ := exists_represents (-a)
  have h := pointAdd_represents ha hw
  rw [add_neg_cancel] at h
  exact ⟨w, onCurve_of_represents hw, represents_unique h (represents_inf.2 rfl)⟩

/-- Settles O38, law by law. -/
theorem pointAddGroup : Obligations.PointAddGroup := by
  unfold Obligations.PointAddGroup
  exact ⟨fun v w => onCurve_pointAdd, fun u v w => pointAdd_assoc, fun v w => pointAdd_comm,
    fun v hv => ⟨rfl, exists_pointAdd_eq_inf hv⟩⟩

/-- An inverse is unique, as in every group. -/
theorem eq_of_pointAdd_eq_inf {u v w : Point} (hu : onCurve u = true) (hv : onCurve v = true) (hw : onCurve w = true)
    (hvu : pointAdd v u = .inf) (hwu : pointAdd w u = .inf) : v = w := by
  calc v = pointAdd v .inf := (pointAdd_inf v).symm
    _ = pointAdd v (pointAdd u w) := by rw [pointAdd_comm hu hw, hwu]
    _ = pointAdd (pointAdd v u) w := (pointAdd_assoc hv hu hw).symm
    _ = w := by rw [hvu]; rfl

/-! ## The order of the generator (R7, R161) -/

theorem n_lt_two_pow : Config.n < 2 ^ 256 := (modulusValue_bounds .n).2

theorem scalarMul_generator_eq_inf {k : Nat} (hk : k < 2 ^ 256) : scalarMul k generator = .inf ↔ Config.n ∣ k := by
  have := fact_p
  obtain ⟨g, hg, horder⟩ := generator_represents
  have hrep := scalarMul_represents hg hk
  rw [← horder, addOrderOf_dvd_iff_nsmul_eq_zero]
  constructor
  · intro h
    rwa [h, represents_inf] at hrep
  · intro h
    rw [h] at hrep
    exact represents_unique hrep (represents_inf.2 rfl)

theorem scalarMul_generator_injective {j k : Nat} (hj : j < Config.n) (hk : k < Config.n)
    (h : scalarMul j generator = scalarMul k generator) : j = k := by
  have := fact_p
  have hn := n_lt_two_pow
  obtain ⟨g, hg, horder⟩ := generator_represents
  have hrep := scalarMul_represents hg (hj.trans hn)
  rw [h] at hrep
  rw [← horder] at hj hk
  exact nsmul_injOn_Iio_addOrderOf hj hk (represents_right_unique hrep (scalarMul_represents hg (hk.trans (horder ▸ hn))))

/-- Adding G to it gives INF, as it does for the reflected generator. -/
theorem scalarMul_pred_n_generator : scalarMul (Config.n - 1) generator = .affine Config.gx (Config.p - Config.gy) := by
  have hn := n_lt_two_pow
  have hpos := n_pos
  refine eq_of_pointAdd_eq_inf generator_onCurve (onCurve_scalarMul generator_onCurve (by omega)) (by decide +kernel) ?_ (by decide)
  have h := scalarMul_add generator_onCurve (j := Config.n - 1) (k := 1) (by omega)
  rw [Nat.sub_add_cancel hpos, scalarMul_one generator_onCurve, scalarMul_n_generator] at h
  exact h.symm

/-- Settles O40: the group of the curve has an element of order n for the generator. -/
theorem generatorOrder : Obligations.GeneratorOrder := by
  unfold Obligations.GeneratorOrder
  refine ⟨generator_onCurve, fun k hpos hk hinf => ?_, scalarMul_n_generator, fun j k => scalarMul_generator_injective,
    scalarMul_pred_n_generator⟩
  exact Nat.not_dvd_of_pos_of_lt hpos hk ((scalarMul_generator_eq_inf (hk.trans n_lt_two_pow)).1 hinf)

/-! ## SMUL (R157) -/

/-- The double-and-add bracketing is the sum of R153. -/
theorem scalarMul_eq_pointSum {v : Point} (hv : onCurve v = true) {k : Nat} (hk : k < 2 ^ 256) : scalarMul k v = pointSum v k := by
  have := fact_p
  obtain ⟨q, hq⟩ := represents_of_onCurve hv
  exact represents_unique (scalarMul_represents hq hk) (pointSum_represents hq k)

theorem checkScalar_out {α : Type} {k : Nat} (rest : Except FaultCode α) (h : k = 0 ∨ Config.n ≤ k) :
    checkScalar k rest = .error .scalarRange := if_pos h

theorem execSmul_in {s : State} {k a : RegIdx} (d : RegIdx) (hon : onCurve (s.point a) = true) (hpos : 1 ≤ s.rNat k)
    (hk : s.rNat k < Config.n) :
    execSmul d k a s = .next (s.writeP d (pointReg (scalarMul (s.rNat k) (s.point a)))).complete := by
  simp only [execSmul, checkPoint_on _ hon, checkScalar_in _ hpos hk, finish_ok]

/-- Settles O42: the two checks decide in the order of the rule, and the multiple is the sum. -/
theorem scalarMultiply : Obligations.ScalarMultiply := by
  unfold Obligations.ScalarMultiply
  intro d k a
  obtain ⟨-, -, -, -, -, -, -, -, -, -, -, -, -, -, -, -, -, -, -, -, hsmul, -⟩ := encodingMap.1 d k a a a 0 0
  refine ⟨hsmul, reservedBitsFault rfl, fun s => ⟨fun hoff => ?_, fun hon hk => ?_, fun hon hpos hk => ?_⟩⟩
  · exact ⟨_, congrArg s.finish (checkPoint_off _ hoff), faulted_raise _ s _⟩
  · exact ⟨_, congrArg s.finish ((checkPoint_on _ hon).trans (checkScalar_out _ hk)), faulted_raise _ s _⟩
  · have hwidth := hk.trans n_lt_two_pow
    refine ⟨_, execSmul_in d hon hpos hk, ?_⟩
    rw [← scalarMul_eq_pointSum hon hwidth]
    exact completed_writeP_point s d (onCurve_scalarMul hon hwidth)

/-! ## MONTMUL (R141) -/

theorem modulusValue_odd (m : Modulus) : modulusValue m % 2 = 1 := by
  cases m <;> rfl

theorem one_lt_modulusValue (m : Modulus) : 1 < modulusValue m := by
  cases m <;> decide

/-- Settles O35: the register holds the Montgomery product of R140. -/
theorem montgomeryCommand : Obligations.MontgomeryCommand := by
  unfold Obligations.MontgomeryCommand
  intro d a b m
  obtain ⟨-, -, -, -, -, -, -, -, -, -, -, -, hp, hn, -⟩ := encodingMap.1 d a b d d 0 0
  obtain ⟨hpos, -⟩ := modulusValue_bounds m
  have hodd := modulusValue_odd m
  refine ⟨reservedBitsFault rfl, ?_, fun s => ?_⟩
  · cases m with
    | p => exact ⟨hp, rfl⟩
    | n => exact ⟨hn, rfl⟩
  · have hlt := montMul_lt (s.rNat a) (s.rNat b) hpos
    refine ⟨_, rfl, completed_writeR s d _, ?_⟩
    rw [rNat_complete_writeR, toNat_ofNat_of_lt_modulus hlt]
    exact ⟨hlt, montMul_mul_radix _ _ hodd (one_lt_modulusValue m)⟩

end Sys2Proof.Machine

/-! PROOFS. How every command ends (R236, R280): one walk over the commands says what each end writes, which faults it can be,
how many words it has drawn (R41), and that the written state is sound where the state before it is. -/

namespace Sys2Proof.Machine

/-! ## The writes of a command keep a state sound (R22, R26, R38) -/

theorem mem_put {unlisted : Nat → Option Byte} {addr : Nat} {byte : Byte} {c : Host.Cell} {m : Memory}
    (h : c ∈ Memory.put unlisted addr byte m) : c ∈ m ∨ c = (addr, byte) := by
  induction m with
  | nil =>
    rw [Memory.put] at h
    split at h
    · exact .inl h
    · exact .inr (List.mem_singleton.1 h)
  | cons cell m ih =>
    obtain ⟨a, b⟩ := cell
    rw [Memory.put] at h
    split_ifs at h
    · exact .inl h
    · exact (List.mem_cons.1 h).symm
    · exact .inl (List.mem_cons_of_mem _ h)
    · exact (List.mem_cons.1 h).symm.imp_left (List.mem_cons_of_mem _)
    · rcases List.mem_cons.1 h with rfl | h
      · exact .inl List.mem_cons_self
      · exact (ih h).imp_left (List.mem_cons_of_mem _)

theorem memoryInside_iff {unlisted : Nat → Option Byte} {size : Nat} {m : Memory} :
    memoryInside unlisted size m = true ↔ Memory.wf unlisted m = true ∧ ∀ c ∈ m, c.1 < size := by
  simp only [memoryInside, Bool.and_eq_true, List.all_eq_true, decide_eq_true_eq]

theorem memoryInside_put {unlisted : Nat → Option Byte} {size addr : Nat} {m : Memory} (byte : Byte)
    (h : memoryInside unlisted size m = true) (ha : addr < size) :
    memoryInside unlisted size (Memory.put unlisted addr byte m) = true := by
  obtain ⟨hwf, hin⟩ := memoryInside_iff.1 h
  refine memoryInside_iff.2 ⟨wf_put hwf addr byte, fun c hc => ?_⟩
  rcases mem_put hc with hc | rfl
  · exact hin c hc
  · exact ha

theorem memoryInside_putBytes {unlisted : Nat → Option Byte} {size addr : Nat} {m : Memory} {bs : Bytes}
    (h : memoryInside unlisted size m = true) (ha : addr + bs.length ≤ size) :
    memoryInside unlisted size (Memory.putBytes unlisted addr bs m) = true := by
  induction bs generalizing addr m with
  | nil => exact h
  | cons b bs ih =>
    rw [List.length_cons] at ha
    exact ih (memoryInside_put b h (by omega)) (by omega)

section
variable {s : State}

theorem State.Sound.writeR (h : s.Sound) (i : RegIdx) (v : Word256) : (s.writeR i v).Sound := { h with }

theorem State.Sound.writeA (h : s.Sound) (i : RegIdx) (v : Word) : (s.writeA i v).Sound := { h with }

theorem State.Sound.writeT (h : s.Sound) (v : Bool) : (s.writeT v).Sound := { h with }

theorem State.Sound.withRng (h : s.Sound) (g : Rng) : (s.withRng g).Sound := { h with }

theorem State.Sound.writeP (h : s.Sound) (i : RegIdx) {v : PointReg} (hv : pointRegOk v = true) : (s.writeP i v).Sound :=
  { h with
    points := fun j => by
      rw [State.writeP_p, regGet_regSet]
      split
      · exact hv
      · exact h.points j }

theorem State.Sound.memWrite (h : s.Sound) {addr : Nat} {bs : Bytes} (hin : addr + bs.length ≤ s.params.bufsz) :
    (s.memWrite addr bs).Sound :=
  { h with dbuf := memoryInside_putBytes h.dbuf hin }

theorem State.Sound.complete (h : s.Sound) : s.complete.Sound := { h with busyErr := Bool.noConfusion }

theorem State.Sound.raise (h : s.Sound) (c : FaultCode) : (s.raise c).Sound :=
  { h with
    busyErr := Bool.noConfusion
    errRecorded := fun _ => Option.some_ne_none c }

end

/-! ## What the operand checks and the engines answer (R190, R191, R201, R203) -/

/-- A list of faults within another, by evaluation. -/
theorem mem_of_all_contained {l l' : List FaultCode} {c : FaultCode} (h : c ∈ l) (hsub : l.all l'.contains = true) : c ∈ l' :=
  List.contains_iff_mem.1 (List.all_eq_true.1 hsub c h)

theorem encryptOperands_ok {d src l q : RegIdx} {s : State} {msg : Bytes} :
    encryptOperands d src l q s = .ok msg ↔
      s.aNat l ≠ 0 ∧ s.aNat src + s.aNat l ≤ s.params.bufsz ∧ s.aNat d + cipherLength s.cfg (s.aNat l) ≤ s.params.bufsz ∧
        s.point q ≠ .inf ∧ onCurve (s.point q) = true ∧ s.memRead (s.aNat src) (s.aNat l) = msg := by
  by_cases h0 : s.aNat l = 0
  · simp [encryptOperands, h0]
  · simp [encryptOperands, h0, checkRange_ok, checkFinite_ok]

theorem encryptOperands_error {d src l q : RegIdx} {s : State} {c : FaultCode} (h : encryptOperands d src l q s = .error c) :
    c ∈ [FaultCode.empty, .srcRange, .dstRange, .infinity, .offCurve] := by
  by_cases h0 : s.aNat l = 0
  · obtain rfl : FaultCode.empty = c := by simpa [encryptOperands, h0] using h
    simp
  · simp only [encryptOperands, h0, if_false, checkRange_error, checkFinite_error, reduceCtorEq, and_false, or_false] at h
    rcases h with ⟨-, rfl⟩ | ⟨-, ⟨-, rfl⟩ | ⟨-, ⟨-, rfl⟩ | ⟨-, -, rfl⟩⟩⟩ <;> simp

theorem signOperands_ok {dst src l k : RegIdx} {s : State} {msg : Bytes} :
    signOperands dst src l k s = .ok msg ↔
      s.aNat src + s.aNat l ≤ s.params.bufsz ∧ s.aNat dst + sigMax s.cfg.sigenc ≤ s.params.bufsz ∧ 1 ≤ s.rNat k ∧
        s.rNat k < Config.n ∧ s.rNat k ≠ Config.n - 1 ∧ s.memRead (s.aNat src) (s.aNat l) = msg := by
  by_cases hd : s.rNat k = Config.n - 1
  · simp [signOperands, hd, checkRange_ok, checkScalar_ok]
  · simp [signOperands, hd, checkRange_ok, checkScalar_ok]

theorem signOperands_error {dst src l k : RegIdx} {s : State} {c : FaultCode} (h : signOperands dst src l k s = .error c) :
    c ∈ [FaultCode.srcRange, .dstRange, .scalarRange, .noInverse] := by
  simp only [signOperands, checkRange_error, checkScalar_error] at h
  rcases h with ⟨-, rfl⟩ | ⟨-, ⟨-, rfl⟩ | ⟨-, ⟨-, rfl⟩ | ⟨-, -, h⟩⟩⟩
  · simp
  · simp
  · simp
  · split at h <;> cases h
    simp

theorem openCipher_length {H : Bytes → Bytes} (hH : ∀ b, (H b).length = 32) {x2 y2 : Nat} {c2 c3 msg : Bytes}
    (h : openCipher H x2 y2 c2 c3 = .ok msg) : msg.length = c2.length := by
  unfold openCipher at h
  split at h
  · cases h
  next t ht =>
    dsimp only at h
    split at h <;> cases h
    rw [xorBytes_length, kdf_ok_length hH ht, Nat.min_self]

theorem cipherC2_length {mode : Mode} {c : Bytes} {c1len mlen : Nat} (h : c1len + 32 + mlen ≤ c.length) :
    (cipherC2 mode c c1len mlen).length = mlen := by
  cases mode with
  | c1c3c2 => exact slice_length h
  | c1c2c3 => exact slice_length (by omega)

/-- The plaintext is as long as C2 (R191). -/
theorem decryptBody_length {H : Bytes → Bytes} (hH : ∀ b, (H b).length = 32) {mode : Mode} {c msg : Bytes} {c1len mlen k : Nat}
    (hc : c1len + 32 + mlen ≤ c.length) (h : decryptBody H mode c c1len mlen k = .ok msg) : msg.length = mlen := by
  unfold decryptBody at h
  split at h
  · cases h
  next c1 _ =>
    obtain ⟨-, -, h⟩ := checkScalar_ok.1 h
    split at h
    · cases h
    · rw [openCipher_length hH h, cipherC2_length hc]

/-- Only the codec finds a bad length of a point. -/
theorem decryptBody_badPointLength {H : Bytes → Bytes} {mode : Mode} {c : Bytes} {c1len mlen k : Nat}
    (h : decryptBody H mode c c1len mlen k = .error .badPointLength) : decodePoint (slice c 0 c1len) = .error .badPointLength := by
  unfold decryptBody at h
  split at h
  next f hf =>
    cases h
    exact hf
  next c1 _ =>
    rcases checkScalar_error.1 h with ⟨-, h⟩ | ⟨-, -, h⟩
    · cases h
    · split at h
      · cases h
      · unfold openCipher at h
        split at h
        next f hf =>
          cases h
          rcases kdf_error hf with ⟨-, h⟩ | ⟨-, h⟩ <;> cases h
        · dsimp only at h
          split at h <;> cases h

theorem decryptResult_ok {d src l k : RegIdx} {raw : Bool} {s : State} {msg : Bytes}
    (h : decryptResult Config.hash d src l k raw s = .ok msg) :
    msg.length = plaintextLength src l raw s ∧ s.aNat d + msg.length ≤ s.params.bufsz := by
  obtain ⟨-, h⟩ := checkRange_ok.1 h
  dsimp only at h
  split at h
  · cases h
  next c1len hc1 =>
    split at h
    · cases h
    next hlen =>
      obtain ⟨hdst, hbody⟩ := checkRange_ok.1 h
      have hmsg := decryptBody_length hash_length (by rw [memRead_length]; omega) hbody
      rw [plaintextLength, hc1, hmsg]
      exact ⟨rfl, hdst⟩

theorem decryptResult_error {d src l k : RegIdx} {raw : Bool} {s : State} {c : FaultCode}
    (h : decryptResult Config.hash d src l k raw s = .error c) :
    c ∈ [FaultCode.srcRange, .shortCiphertext, .badPrefix, .dstRange, .hybridParity, .offCurve, .noSqrt, .scalarRange, .infinity,
      .kdfZero, .mac] := by
  rcases checkRange_error.1 h with ⟨-, rfl⟩ | ⟨-, h⟩
  · simp
  dsimp only at h
  split at h
  next f hf =>
    cases h
    rcases c1Length_error hf with rfl | rfl <;> simp
  next c1len hc1 =>
    split at h
    · cases h
      simp
    next hlen =>
      rcases checkRange_error.1 h with ⟨-, rfl⟩ | ⟨-, hbody⟩
      · simp
      · have hmem := decryptBody_error (by omega) (by rw [memRead_length]; omega) hbody
        have hne : c ≠ .badPointLength := by
          rintro rfl
          exact decode_c1_not_badlen hc1 (by rw [memRead_length]; omega) (decryptBody_badPointLength hbody)
        exact mem_of_all_contained ((List.mem_cons.1 hmem).resolve_left hne) rfl

theorem verifyPair_error {H : Bytes → Bytes} {ident msg : Bytes} {q : Point} {r sg : Nat} {c : FaultCode}
    (h : verifyPair H ident msg q r sg = .error c) : c = .infinity ∨ c = .offCurve := by
  unfold verifyPair at h
  split at h
  · cases h
  · rcases checkFinite_error.1 h with ⟨-, hc⟩ | ⟨-, -, hc⟩ | ⟨-, -, h⟩
    · exact .inl hc
    · exact .inr hc
    · cases h

theorem verifyResult_error {src l g h q : RegIdx} {s : State} {c : FaultCode}
    (he : verifyResult Config.hash src l g h q s = .error c) :
    c ∈ [FaultCode.srcRange, .sigRange, .badDer, .plainLength, .intNegative, .intNonminimal, .intTooLong, .infinity, .offCurve] := by
  rcases checkRange_error.1 he with ⟨-, rfl⟩ | ⟨-, he⟩
  · simp
  rcases checkRange_error.1 he with ⟨-, rfl⟩ | ⟨-, he⟩
  · simp
  split at he
  next f hf =>
    cases he
    exact mem_of_all_contained (parseSig_error hf) rfl
  · rcases verifyPair_error he with rfl | rfl <;> simp

/-! ## The ends of a command -/

/-- All the ends a command has (R236, R237, R280): its writes and a completion, one of its faults, or its words exhausted. -/
inductive Ends (i : Instr) (s : State) : State → Prop
  | completed {u : State} (hc : State.Completed (commandWrites i s) s u.complete) (hs : s.Sound → u.Sound)
      (hr : (commandWrites i s).rng = true → ∃ j, 1 ≤ j ∧ j ≤ s.params.retryMax ∧ u.rng = s.rng.skip j) : Ends i s u.complete
  | faulted {c : FaultCode} (hc : c ∈ commandFaults i) (hne : c ≠ .retryExhausted) : Ends i s (s.raise c)
  | exhausted (hc : .retryExhausted ∈ commandFaults i) :
    Ends i s ((s.withRng (s.rng.skip s.params.retryMax)).raise .retryExhausted)

/-- The results with which a command that draws no word ends so. -/
inductive EndsIn (i : Instr) (s : State) : Except FaultCode State → Prop
  | ok {u : State} (hc : State.Completed (commandWrites i s) s u.complete) (hs : s.Sound → u.Sound) : EndsIn i s (.ok u)
  | error {c : FaultCode} (hc : c ∈ commandFaults i) : EndsIn i s (.error c)

namespace EndsIn

variable {i : Instr} {s : State} {r : Except FaultCode State}

theorem checkRange {bufsz addr n : Nat} {c : FaultCode} (hc : c ∈ commandFaults i) (h : addr + n ≤ bufsz → EndsIn i s r) :
    EndsIn i s (Machine.checkRange bufsz addr n c r) := by
  unfold Machine.checkRange
  split
  · exact .error hc
  · exact h (by omega)

theorem checkPoint {v : Point} (hc : .offCurve ∈ commandFaults i) (h : EndsIn i s r) : EndsIn i s (Machine.checkPoint v r) := by
  unfold Machine.checkPoint
  split
  · exact .error hc
  · exact h

theorem checkFinite {v : Point} (hinf : .infinity ∈ commandFaults i) (hoff : .offCurve ∈ commandFaults i) (h : EndsIn i s r) :
    EndsIn i s (Machine.checkFinite v r) := by
  unfold Machine.checkFinite
  split
  · exact .error hinf
  · split
    · exact .error hoff
    · exact h

theorem checkScalar {k : Nat} (hc : .scalarRange ∈ commandFaults i) (h : EndsIn i s r) : EndsIn i s (Machine.checkScalar k r) := by
  unfold Machine.checkScalar
  split
  · exact .error hc
  · exact h

end EndsIn

/-- A command that draws no word never exhausts the port. -/
theorem retryExhausted_not_mem {i : Instr} {s : State} (h : (commandWrites i s).rng = false) : .retryExhausted ∉ commandFaults i := by
  cases i with
  | encrypt | sign => cases h
  | ldc | penc =>
    rw [commandFaults]
    split <;> simp
  | _ => simp [commandFaults]

theorem finish_ends {i : Instr} {s : State} {r : Except FaultCode State} (h : EndsIn i s r)
    (hr : (commandWrites i s).rng = false := by rfl) : ∃ s', s.finish r = .next s' ∧ Ends i s s' := by
  cases h with
  | ok hc hs => exact ⟨_, rfl, .completed hc hs fun ht => nomatch hr.symm.trans ht⟩
  | error hc => exact ⟨_, rfl, .faulted hc fun he => retryExhausted_not_mem hr (he ▸ hc)⟩

section
variable (s : State)

theorem execLdc_ends (d : RegIdx) (cid : BitVec 4) : ∃ s', execLdc d cid s = .next s' ∧ Ends (.ldc d cid) s s' := by
  refine finish_ends ?_
  split
  · exact .ok (completed_writeR s d _) (·.writeR d _)
  next h =>
    have hres : ¬cid.toNat < 10 := Nat.not_lt.2 (constValue_none.1 h)
    exact .error (by simp [commandFaults, hres])

theorem execPget_ends (d e a : RegIdx) : ∃ s', execPget d e a s = .next s' ∧ Ends (.pget d e a) s s' := by
  refine finish_ends ?_
  split
  · exact .error (by simp [commandFaults])
  · exact .ok (completed_writeR_writeR s d e _ _) fun hs => (hs.writeR d _).writeR e _

theorem execPenc_ends (o d a : RegIdx) (form : BitVec 4) :
    ∃ s', execPenc o d a form s = .next s' ∧ Ends (.penc o d a form) s s' := by
  refine finish_ends ?_
  split
  next hf =>
    have hres : ¬form.toNat < 3 := Nat.not_lt.2 (formOf_none.1 hf)
    exact .error (by simp [commandFaults, hres])
  next f hf =>
    have hform : form.toNat < 3 := by
      by_contra h
      rw [formOf_none.2 (Nat.not_lt.1 h)] at hf
      cases hf
    refine .checkFinite (by simp [commandFaults, hform]) (by simp [commandFaults, hform])
      (.checkRange (by simp [commandFaults, hform]) fun hin => .ok (completed_writeEncoding hf o d a) fun hs => ?_)
    exact (hs.memWrite (by rwa [encodePoint_length])).writeA o _

theorem execPdec_ends (d src l : RegIdx) : ∃ s', execPdec d src l s = .next s' ∧ Ends (.pdec d src l) s s' := by
  refine finish_ends (.checkRange (by simp [commandFaults]) fun _ => ?_)
  split
  next v _ => exact .ok (completed_writeP s d _) (·.writeP d (pointRegOk_pointReg v))
  next c hc => exact .error (mem_of_all_contained (decodePoint_error hc) rfl)

theorem execKdf_ends (d src l o : RegIdx) : ∃ s', execKdf d src l o s = .next s' ∧ Ends (.kdf d src l o) s s' := by
  refine finish_ends ?_
  split
  · exact .error (by simp [commandFaults])
  refine .checkRange (by simp [commandFaults]) fun _ => .checkRange (by simp [commandFaults]) fun hdst => ?_
  split
  next t ht =>
    have hlen := kdf_ok_length hash_length ht
    exact .ok (completed_memWrite s _ t hlen) (·.memWrite (by rwa [hlen]))
  next c hc => rcases kdf_error hc with ⟨-, rfl⟩ | ⟨-, rfl⟩ <;> exact .error (by simp [commandFaults])

theorem execDecrypt_ends (o d src l k : RegIdx) (raw : Bool) :
    ∃ s', execDecrypt o d src l k raw s = .next s' ∧ Ends (.decrypt o d src l k raw) s s' := by
  refine finish_ends ?_
  split
  next c hc => exact .error (decryptResult_error hc)
  next msg hmsg =>
    obtain ⟨hlen, hdst⟩ := decryptResult_ok hmsg
    exact .ok (completed_memWrite_writeA s _ msg hlen.le o _) fun hs => (hs.memWrite hdst).writeA o _

theorem execVerify_ends (src l g h q : RegIdx) :
    ∃ s', execVerify src l g h q s = .next s' ∧ Ends (.verify src l g h q) s s' := by
  refine finish_ends ?_
  split
  next c hc => exact .error (verifyResult_error hc)
  next v _ => exact .ok (completed_writeT s v) (·.writeT v)

theorem execEncrypt_ends (o d src l q : RegIdx) :
    ∃ s', execEncrypt o d src l q s = .next s' ∧ Ends (.encrypt o d src l q) s s' := by
  unfold execEncrypt
  cases hop : encryptOperands d src l q s with
  | error c =>
    have hmem := encryptOperands_error hop
    refine ⟨_, rfl, .faulted (List.mem_append_left [FaultCode.retryExhausted] hmem :) ?_⟩
    rintro rfl
    exact absurd hmem (by decide)
  | ok msg =>
    obtain ⟨-, -, hdst, -, -, rfl⟩ := encryptOperands_ok.1 hop
    rcases retryLoop_cases (encryptAttempt Config.hash s.cfg (s.point q) (s.memRead (s.aNat src) (s.aNat l))) s.params.retryMax
      s.rng with ⟨j, out, hj, -, hout, hloop⟩ | ⟨-, hloop⟩
    · have hlen := encryptAttempt_length hash_length hout
      rw [memRead_length] at hlen
      simp only [hloop]
      exact ⟨_, rfl, .completed (completed_memWrite_writeA_rng s _ _ out hlen.le o _)
        (fun hs => ((hs.withRng _).memWrite (by rwa [hlen])).writeA o _) fun _ => ⟨j + 1, by omega, hj, rfl⟩⟩
    · simp only [hloop]
      exact ⟨_, rfl, .exhausted (by simp [commandFaults])⟩

theorem execSign_ends (o dst src l k : RegIdx) :
    ∃ s', execSign o dst src l k s = .next s' ∧ Ends (.sign o dst src l k) s s' := by
  unfold execSign
  cases hop : signOperands dst src l k s with
  | error c =>
    have hmem := signOperands_error hop
    refine ⟨_, rfl, .faulted (List.mem_append_left [FaultCode.retryExhausted] hmem :) ?_⟩
    rintro rfl
    exact absurd hmem (by decide)
  | ok msg =>
    obtain ⟨-, hdst, -⟩ := signOperands_ok.1 hop
    dsimp only
    rcases retryLoop_cases (signAttempt (s.rNat k) (signDigest Config.hash s.userId (s.rNat k) msg)
      (inv ((1 + s.rNat k) % Config.n) Config.n)) s.params.retryMax s.rng with ⟨j, rs, hj, -, hrs, hloop⟩ | ⟨-, hloop⟩
    · obtain ⟨hr, hsg⟩ := signAttempt_range hrs
      have hlen := encodeSig_length_le hr hsg s.cfg.sigenc
      simp only [hloop]
      exact ⟨_, rfl, .completed (completed_memWrite_writeA_rng s _ _ _ hlen o _)
        (fun hs => ((hs.withRng (s.rng.skip (j + 1))).memWrite ((Nat.add_le_add_left hlen _).trans hdst)).writeA o _)
        fun _ => ⟨j + 1, by omega, hj, rfl⟩⟩
    · simp only [hloop]
      exact ⟨_, rfl, .exhausted (by simp [commandFaults])⟩

end

/-- Every command, in every state, answers a next state, which is one of its ends (R280). -/
theorem exec_next (i : Instr) (s : State) : ∃ s', exec i s = .next s' ∧ Ends i s s' := by
  cases i with
  | nop => exact ⟨_, rfl, .completed (completed_nothing s) id Bool.noConfusion⟩
  | li d imm => exact ⟨_, rfl, .completed (completed_writeA s d _) (·.writeA d _) Bool.noConfusion⟩
  | aaddi d a imm => exact ⟨_, rfl, .completed (completed_writeA s d _) (·.writeA d _) Bool.noConfusion⟩
  | ldr d a imm =>
    exact finish_ends (.checkRange (by simp [commandFaults]) fun _ => .ok (completed_writeR s d _) (·.writeR d _))
  | str src a imm =>
    exact finish_ends (.checkRange (by simp [commandFaults]) fun hin =>
      .ok (completed_memWrite s _ _ (i2os_length _ _)) (·.memWrite (by rwa [i2os_length])))
  | movr d a => exact ⟨_, rfl, .completed (completed_writeR s d _) (·.writeR d _) Bool.noConfusion⟩
  | ldc d cid => exact execLdc_ends s d cid
  | pldg d => exact ⟨_, rfl, .completed (completed_writeP s d _) (·.writeP d (pointRegOk_pointReg _)) Bool.noConfusion⟩
  | pset d a b => exact ⟨_, rfl, .completed (completed_writeP s d _) (·.writeP d rfl) Bool.noConfusion⟩
  | pget d e a => exact execPget_ends s d e a
  | pmov d a => exact ⟨_, rfl, .completed (completed_writeP s d _) (fun hs => hs.writeP d (hs.points a)) Bool.noConfusion⟩
  | psetinf d => exact ⟨_, rfl, .completed (completed_writeP s d _) (·.writeP d (pointRegOk_pointReg .inf)) Bool.noConfusion⟩
  | montmul d a b m => exact ⟨_, rfl, .completed (completed_writeR s d _) (·.writeR d _) Bool.noConfusion⟩
  | fadd d a b m => exact ⟨_, rfl, .completed (completed_writeR s d _) (·.writeR d _) Bool.noConfusion⟩
  | fsub d a b m => exact ⟨_, rfl, .completed (completed_writeR s d _) (·.writeR d _) Bool.noConfusion⟩
  | padd d a b =>
    exact finish_ends (.checkPoint (by simp [commandFaults]) (.checkPoint (by simp [commandFaults])
      (.ok (completed_writeP s d _) (·.writeP d (pointRegOk_pointReg _)))))
  | pdbl d a =>
    exact finish_ends (.checkPoint (by simp [commandFaults])
      (.ok (completed_writeP s d _) (·.writeP d (pointRegOk_pointReg _))))
  | smul d k a =>
    exact finish_ends (.checkPoint (by simp [commandFaults]) (.checkScalar (by simp [commandFaults])
      (.ok (completed_writeP s d _) (·.writeP d (pointRegOk_pointReg _)))))
  | pchk a => exact ⟨_, rfl, .completed (completed_writeT s _) (·.writeT _) Bool.noConfusion⟩
  | pinf a => exact ⟨_, rfl, .completed (completed_writeT s _) (·.writeT _) Bool.noConfusion⟩
  | penc o d a form => exact execPenc_ends s o d a form
  | pdec d src l => exact execPdec_ends s d src l
  | kdf d src l o => exact execKdf_ends s d src l o
  | encrypt o d src l q => exact execEncrypt_ends s o d src l q
  | decrypt o d src l k raw => exact execDecrypt_ends s o d src l k raw
  | za d a =>
    exact finish_ends (.checkFinite (by simp [commandFaults]) (by simp [commandFaults])
      (.ok (completed_writeR s d _) (·.writeR d _)))
  | sign o dst src l k => exact execSign_ends s o dst src l k
  | verify src l g h q => exact execVerify_ends s src l g h q

end Sys2Proof.Machine

/-! PROOFS. The statements that follow from the ends of the commands (R41, R236, R280), and the step of a busy and of an idle
CORE: what it runs, holds, counts and resets (R37, R40, R238, R239, R270, R271, R281). -/

namespace Sys2Proof.Machine

/-! ## What the ends have in common -/

namespace Ends

variable {i : Instr} {s s' : State}

theorem completed_or_faulted (h : Ends i s s') :
    State.Completed (commandWrites i s) s s' ∨
      ∃ c ∈ commandFaults i, State.Faulted { rng := c == .retryExhausted } c s s' ∧
        (c = .retryExhausted → s'.rng = s.rng.skip s.params.retryMax) := by
  cases h with
  | completed hc _ _ => exact .inl hc
  | faulted hc hne => exact .inr ⟨_, hc, faulted_raise _ s _, fun he => absurd he hne⟩
  | exhausted hc => exact .inr ⟨_, hc, faulted_raise_rng s _ _, fun _ => rfl⟩

theorem kept (h : Ends i s s') : ∃ w, State.Kept w s s' := by
  rcases h.completed_or_faulted with hc | ⟨c, -, hf, -⟩
  · exact ⟨_, hc.toKept⟩
  · exact ⟨_, hf.toKept⟩

theorem busy (h : Ends i s s') : s'.busy = false := by
  cases h <;> rfl

theorem cmdcnt (h : Ends i s s') : (s'.cmdcnt = s.cmdcnt + 1 ∧ s'.err = s.err) ∨ (s'.cmdcnt = s.cmdcnt ∧ s'.err = true) := by
  rcases h.completed_or_faulted with hc | ⟨c, -, hf, -⟩
  · exact .inl ⟨hc.cmdcnt, hc.err⟩
  · exact .inr ⟨hf.cmdcnt, hf.err⟩

theorem sound (h : Ends i s s') (hs : s.Sound) : s'.Sound := by
  cases h with
  | completed _ hu _ => exact (hu hs).complete
  | faulted _ _ => exact hs.raise _
  | exhausted _ => exact (hs.withRng _).raise _

end Ends

/-- Settles O10, by the walk over the commands; a reserved selector is the first thing LDC and PENC look at. -/
theorem everyCommandEnds : Obligations.EveryCommandEnds := by
  unfold Obligations.EveryCommandEnds
  refine ⟨fun i s => ?_, fun i s hres => ?_⟩
  · obtain ⟨s', hexec, hends⟩ := exec_next i s
    exact ⟨s', hexec, hends.completed_or_faulted⟩
  · cases i with
    | ldc d cid =>
      have hcid := constValue_none.2 (Nat.not_lt.1 (of_decide_eq_false hres))
      refine ⟨s.raise .badFunction, ?_, faulted_raise _ s _⟩
      simp only [exec, execLdc, hcid, finish_error]
    | penc o d a form =>
      have hform := formOf_none.2 (Nat.not_lt.1 (of_decide_eq_false hres))
      refine ⟨s.raise .badFunction, ?_, faulted_raise _ s _⟩
      simp only [exec, execPenc, hform, finish_error]
    | _ => cases hres

/-! ## The words drawn (R41) -/

theorem commandWrites_rng {i : Instr} {s : State} :
    (commandWrites i s).rng = true ↔ (∃ o d src l q, i = .encrypt o d src l q) ∨ ∃ o d src l k, i = .sign o d src l k := by
  cases i <;> simp [commandWrites]

theorem commandWrites_rng_of_exhausted {i : Instr} {s : State} (h : .retryExhausted ∈ commandFaults i) :
    (commandWrites i s).rng = true := by
  by_contra hr
  exact retryExhausted_not_mem (Bool.eq_false_iff.2 hr) h

theorem ne_add_one (x : Word) : x ≠ x + 1 := by
  simp

/-- Settles O13: a completion of ENCRYPT or SIGN has drawn its words, exhaustion all of them, any other end none. -/
theorem randomWordsDrawn : Obligations.RandomWordsDrawn := by
  unfold Obligations.RandomWordsDrawn
  intro i s s' h
  obtain ⟨_, hexec, hends⟩ := exec_next i s
  cases h.symm.trans hexec
  rw [← commandWrites_rng (s := s)]
  cases hends with
  | @completed u hc _ hr =>
    by_cases hw : (commandWrites i s).rng = true
    · obtain ⟨j, hpos, hj, hu⟩ := hr hw
      exact ⟨j, hj, hu, fun _ => hw, fun _ _ => hpos⟩
    · exact ⟨0, Nat.zero_le _, hc.rng (Bool.eq_false_iff.2 hw), fun h0 => absurd rfl h0, fun h _ => absurd h hw⟩
  | faulted _ _ => exact ⟨0, Nat.zero_le _, rfl, fun h0 => absurd rfl h0, fun _ hcnt => absurd hcnt (ne_add_one _)⟩
  | exhausted hc =>
    exact ⟨_, le_rfl, rfl, fun _ => commandWrites_rng_of_exhausted hc, fun _ hcnt => absurd hcnt (ne_add_one _)⟩

/-! ## The command in CMD -/

/-- Running the word in CMD answers a next state: an end of its command, or the fault of a word that is none (R98). -/
theorem runCommand_next (s : State) :
    ∃ s', runCommand s = .next s' ∧
      ((∃ i, decode s.cmd = .ok i ∧ Ends i s s') ∨ ∃ e, decode s.cmd = .error e ∧ s' = s.raise (decodeFault e)) := by
  cases hd : decode s.cmd with
  | ok i =>
    obtain ⟨s', hexec, hends⟩ := exec_next i s
    exact ⟨s', (runCommand_of_ok hd).trans hexec, .inl ⟨i, rfl, hends⟩⟩
  | error e => exact ⟨_, by simp only [runCommand, hd], .inr ⟨e, rfl, rfl⟩⟩

/-- What both have in common. -/
structure State.Ran (s s' : State) : Prop where
  kept : ∃ w, State.Kept w s s'
  busy : s'.busy = false
  cmdcnt : (s'.cmdcnt = s.cmdcnt + 1 ∧ s'.err = s.err) ∨ (s'.cmdcnt = s.cmdcnt ∧ s'.err = true)
  sound : s.Sound → s'.Sound

theorem runCommand_ran (s : State) : ∃ s', runCommand s = .next s' ∧ s.Ran s' := by
  obtain ⟨s', hrun, ⟨i, -, hends⟩ | ⟨e, -, rfl⟩⟩ := runCommand_next s
  · exact ⟨s', hrun, hends.kept, hends.busy, hends.cmdcnt, hends.sound⟩
  · exact ⟨_, hrun, ⟨{}, (faulted_raise {} s _).toKept⟩, rfl, .inr ⟨rfl, rfl⟩, fun hs => hs.raise _⟩

theorem ran_of_runCommand {s s' : State} (h : runCommand s = .next s') : s.Ran s' := by
  obtain ⟨_, hrun, hran⟩ := runCommand_ran s
  cases h.symm.trans hrun
  exact hran

theorem step_running {s : State} (hb : s.busy = true) (hd : s.duringCommand = none) : step s = runCommand s := by
  simp only [step, hb, if_true, hd]

theorem step_reached {s s' : State} (hb : s.busy = true) (hd : s.duringCommand = some s') : step s = .next s' := by
  simp only [step, hb, if_true, hd]

/-- Settles O6: what `withFetchWord` sets up is such a state, for the word of the command. -/
theorem stepRunsDecodedCommand : Obligations.StepRunsDecodedCommand := by
  unfold Obligations.StepRunsDecodedCommand
  refine ⟨fun s i hb hd hi => (step_running hb hd).trans (runCommand_of_ok hi), fun s i hw => ?_⟩
  have hcmd : (s.withFetchWord 32 (encode i).toNat).cmd = encode i := by
    apply BitVec.eq_of_toNat_eq
    exact (BitVec.toNat_ofNat _ _).trans (by rw [Nat.mod_mod, Nat.mod_eq_of_lt (encode i).isLt])
  have hdec : decode (s.withFetchWord 32 (encode i).toNat).cmd = .ok i := by rw [hcmd, decode_encode hw]
  exact ⟨(step_running rfl (duringCommand_withFetchWord _ _ _)).trans (runCommand_of_ok hdec), rfl, rfl, hcmd, rfl⟩

/-! ## Accesses held while a command runs (R40, R281) -/

/-- A held access at the head of the queue stays there when another reaches the running command. -/
theorem reachesRunning_behind_held {x : Input} {q rest : List Input} {a : Access} (hx : HeldWhileBusy x.access)
    (h : ReachesRunning (x :: q) a rest) : ∃ rest', rest = x :: rest' := by
  obtain ⟨held, k, behind, hq, -, -, ha, rfl⟩ := h
  cases held with
  | nil =>
    cases hq
    exact absurd hx ha
  | cons y held =>
    cases hq
    exact ⟨_, rfl⟩

/-- The step of a busy CORE keeps a held access waiting at the head of the queue; if nothing reaches the command, it ends. -/
theorem step_keeps_held {s : State} {x : Input} {rest : List Input} (hb : s.busy = true) (hi : s.inputs = x :: rest)
    (hx : HeldWhileBusy x.access) :
    ∃ s' rest', step s = .next s' ∧ s'.inputs = x :: rest' ∧
      (s.duringCommand = none → step s = runCommand s ∧ rest' = rest ∧ s'.busy = false) := by
  cases hd : s.duringCommand with
  | none =>
    obtain ⟨s', hrun, hran⟩ := runCommand_ran s
    obtain ⟨w, hkept⟩ := hran.kept
    exact ⟨s', rest, (step_running hb hd).trans hrun, hkept.inputs.trans hi, fun _ => ⟨step_running hb hd, rfl, hran.busy⟩⟩
  | some s' =>
    obtain ⟨rest', hrest'⟩ : ∃ rest', s'.inputs = x :: rest' := by
      rcases duringCommand_some hd with ⟨off, q, v, hr, rfl⟩ | ⟨n, q, hr, rfl⟩
      · exact reachesRunning_behind_held hx (hi ▸ hr)
      · exact reachesRunning_behind_held hx (hi ▸ hr)
    exact ⟨s', rest', step_reached hb hd, hrest', fun h => nomatch h⟩

/-- Settles O7: `acceptCommand` drops or accepts the word, and the ends of the command are those of the walk. -/
theorem commandWrite : Obligations.CommandWrite := by
  unfold Obligations.CommandWrite
  refine ⟨fun s w arr rest hb hi he => ?_, fun s w arr rest hb hi he => ?_, fun s w arr rest hb hi => ?_⟩
  · have hw : step s = .next (State.acceptCommand { s with inputs := rest } w) := step_idle hb hi
    rwa [State.acceptCommand, if_pos he] at hw
  · have hw : step s = .next (State.acceptCommand { s with inputs := rest } w) := step_idle hb hi
    rw [State.acceptCommand, if_neg (Bool.eq_false_iff.1 he)] at hw
    refine ⟨hw, fun hd => ?_⟩
    obtain ⟨s2, hrun, hends⟩ := runCommand_next { s with inputs := rest, busy := true, cmd := w }
    refine ⟨s2, (step_running rfl hd).trans hrun, ?_⟩
    rcases hends with ⟨i, hdec, hends⟩ | ⟨e, hdec, rfl⟩
    · refine ⟨hends.busy, .inl ⟨i, hdec, hends.completed_or_faulted.imp_right ?_⟩⟩
      rintro ⟨c, hc, hf, -⟩
      exact ⟨c, hc, hf⟩
    · exact ⟨rfl, .inr ⟨e, hdec, faulted_raise _ _ _⟩⟩
  · exact step_keeps_held hb hi (.inl ⟨_, _, rfl⟩)

theorem run_succ {s s' : State} (h : step s = .next s') (n : Nat) :
    Host.Core.run Sys2Proof.core (n + 1) s = Host.Core.run Sys2Proof.core n s' := by
  simp only [Host.Core.run]
  rw [show Sys2Proof.core.step s = .next s' from h]

/-- Settles O8, by induction on the queue: each write is consumed and dropped. -/
theorem faultStopsQueue : Obligations.FaultStopsQueue := by
  unfold Obligations.FaultStopsQueue
  intro q rest
  induction q with
  | nil =>
    rintro s - - - hi
    rw [List.nil_append] at hi
    rw [← hi]
    rfl
  | cons x q ih =>
    intro s hq hb he hi
    obtain ⟨w, hw⟩ := hq x List.mem_cons_self
    have hstep : step s = .next { s with inputs := q ++ rest } := by
      rw [step_idle hb hi, hw]
      exact congrArg _ (if_pos he)
    rw [List.length_cons, run_succ hstep]
    exact ih { s with inputs := q ++ rest } (fun y hy => hq y (List.mem_cons_of_mem _ hy)) hb he rfl

theorem statusWord_toNat (s : State) : s.statusWord.toNat = s.busy.toNat + 2 * s.err.toNat + 4 * s.t.toNat := by
  rw [State.statusWord]
  cases s.busy <;> cases s.err <;> cases s.t <;> rfl

theorem irqWord_toNat (b : IrqBits) : (irqWord b).toNat = b.done.toNat + 2 * b.err.toNat := by
  rw [irqWord]
  cases b.done <;> cases b.err <;> rfl

/-- Settles O9: what reaches a running command is what `takeDuring` finds, and an idle CORE takes the head of the queue. -/
theorem heldAccesses : Obligations.HeldAccesses := by
  unfold Obligations.HeldAccesses
  refine ⟨fun s off rest hb hr => ?_, fun s hb hr => ?_, fun s x rest hb hi => step_idle hb hi⟩
  · have hd : s.duringCommand = some { s with inputs := rest, readData := hostRead s (hostReg s.params off.toNat) } := by
      simp only [State.duringCommand, (reachesRunning_iff _ _ _).1 hr]
    refine ⟨_, step_reached hb hd, ?_⟩
    obtain ⟨_, _, _, _, _, _, hoff, _⟩ := hr
    have hregs : off = 0x08#17 ∨ off = 0x20#17 := by
      by_contra h
      exact hoff (.inr ⟨off, rfl, not_or.1 h⟩)
    rcases hregs with rfl | rfl
    · exact .inl ⟨rfl, by rw [← Bool.toNat_true, ← hb]; exact statusWord_toNat s⟩
    · exact .inr ⟨rfl, irqWord_toNat s.istat⟩
  · have hd := (duringCommand_eq_none s).2 hr
    obtain ⟨s', hrun, hran⟩ := runCommand_ran s
    obtain ⟨w, hkept⟩ := hran.kept
    exact ⟨step_running hb hd, s', (step_running hb hd).trans hrun, hkept.inputs, hran.busy⟩

/-! ## Resets, and the steps that are none (R37, R270, R271) -/

/-- A step that takes a reset: the reset state, around what the outside world keeps. -/
theorem step_of_takesReset {s : State} (h : s.TakesReset) :
    ∃ u : State, step s = .next u.resetCore ∧ u.dbufEpoch = s.dbufEpoch ∧ (s.busy = false → u.rng = s.rng) := by
  rcases h with ⟨hb, x, rest, hi, hx⟩ | ⟨hb, n, rest, hr⟩
  · refine ⟨{ s with inputs := rest }, ?_, rfl, fun _ => rfl⟩
    rw [step_idle hb hi]
    rcases hx with ⟨n, hx⟩ | ⟨v, hx, hv⟩
    · rw [hx]
      rfl
    · rw [hx]
      exact congrArg _ (if_pos hv)
  · have hd : s.duringCommand = some (State.abandon { s with inputs := rest } n) := by
      simp only [State.duringCommand, (reachesRunning_iff _ _ _).1 hr]
    exact ⟨_, step_reached hb hd, rfl, fun h => nomatch hb.symm.trans h⟩

/-- What no access but a reset changes. -/
structure State.HostKeeps (s s' : State) : Prop where
  cmdcnt : s'.cmdcnt = s.cmdcnt
  dbufEpoch : s'.dbufEpoch = s.dbufEpoch

theorem hostWrite_keeps {s : State} {v : Word} {r : HostReg} (h : r = .ctrl → v.getLsbD 0 = false) :
    s.HostKeeps (hostWrite s v r) := by
  cases r with
  | ctrl => rw [hostWrite, if_neg (Bool.eq_false_iff.1 (h rfl))]; exact ⟨rfl, rfl⟩
  | status => rw [hostWrite]; split <;> exact ⟨rfl, rfl⟩
  | idlen => rw [hostWrite, State.writeIdlen]; split <;> exact ⟨rfl, rfl⟩
  | cmd => rw [hostWrite, State.acceptCommand]; split <;> exact ⟨rfl, rfl⟩
  | _ => exact ⟨rfl, rfl⟩

theorem perform_keeps {s s' : State} {a : Access} (h : s.perform a = .next s') (hr : ¬Resets a) : s.HostKeeps s' := by
  cases a with
  | hwReset n => exact absurd (.inl ⟨n, rfl⟩) hr
  | read off =>
    obtain ⟨v, rfl⟩ := perform_read_next h
    exact ⟨rfl, rfl⟩
  | write off v =>
    obtain rfl := perform_write_next h
    refine hostWrite_keeps fun hreg => Bool.eq_false_iff.2 fun hv => hr (.inr ⟨v, ?_, hv⟩)
    rw [show off = 0x04#17 from BitVec.eq_of_toNat_eq (hostReg_eq_ctrl hreg)]

/-- A step that takes no reset either runs the command or changes neither counter. -/
theorem step_of_not_takesReset {s s' : State} (h : step s = .next s') (hr : ¬s.TakesReset) :
    s.HostKeeps s' ∨ (s.busy = true ∧ s.duringCommand = none ∧ s.Ran s') := by
  rcases step_cases h with ⟨-, -, rfl⟩ | ⟨hb, x, rest, hi, hp⟩ | ⟨hb, hd⟩ | ⟨hb, hd, hrun⟩
  · exact .inl ⟨rfl, rfl⟩
  · have hkeeps := perform_keeps hp fun hx => hr (.inl ⟨hb, x, rest, hi, hx⟩)
    exact .inl ⟨hkeeps.cmdcnt, hkeeps.dbufEpoch⟩
  · rcases duringCommand_some hd with ⟨off, rest, v, -, rfl⟩ | ⟨n, rest, hn, rfl⟩
    · exact .inl ⟨rfl, rfl⟩
    · exact absurd (.inr ⟨hb, n, rest, hn⟩) hr
  · exact .inr ⟨hb, hd, ran_of_runCommand hrun⟩

theorem not_takesReset_of_running {s : State} (hb : s.busy = true) (hd : s.duringCommand = none) : ¬s.TakesReset := by
  rintro (⟨hidle, -⟩ | ⟨-, n, rest, hr⟩)
  · cases hb.symm.trans hidle
  · exact (duringCommand_eq_none s).1 hd ⟨_, rest, hr⟩

/-- Settles O12: only the end of a command counts, and only a reset clears the count. -/
theorem commandCounter : Obligations.CommandCounter := by
  unfold Obligations.CommandCounter
  intro s s' h
  refine ⟨fun hb hd he => ?_, fun hr => ?_, fun hr hquiet => ?_⟩
  · rw [step_running hb hd] at h
    rcases (ran_of_runCommand h).cmdcnt with ⟨hcnt, herr⟩ | ⟨hcnt, herr⟩
    · refine ⟨fun _ => ?_, fun h1 => nomatch (herr.trans he).symm.trans h1⟩
      rw [hcnt, BitVec.toNat_add]
      rfl
    · exact ⟨fun h0 => (nomatch herr.symm.trans h0), fun _ => hcnt⟩
  · obtain ⟨u, hstep, -⟩ := step_of_takesReset hr
    cases h.symm.trans hstep
    rfl
  · rcases step_of_not_takesReset h hr with hkeeps | ⟨hb, hd, -⟩
    · exact hkeeps.cmdcnt
    · rcases hquiet with hidle | hreached
      · cases hb.symm.trans hidle
      · exact absurd hd hreached

theorem maxDraws_of_draws {s : State} (h : (∃ o d src l q, decode s.cmd = .ok (.encrypt o d src l q)) ∨
    ∃ o d src l k, decode s.cmd = .ok (.sign o d src l k)) : s.maxDraws = s.params.retryMax := by
  rcases h with ⟨o, d, src, l, q, h⟩ | ⟨o, d, src, l, k, h⟩
  · simp only [State.maxDraws, h]
  · simp only [State.maxDraws, h]

theorem maxDraws_of_no_draws {s : State} (he : ∀ o d src l q, decode s.cmd ≠ .ok (.encrypt o d src l q))
    (hs : ∀ o d src l k, decode s.cmd ≠ .ok (.sign o d src l k)) : s.maxDraws = 0 := by
  unfold State.maxDraws
  split
  next h => exact absurd h (he _ _ _ _ _)
  next h => exact absurd h (hs _ _ _ _ _)
  · rfl

/-- Settles O15: both resets end in `resetCore`, a held soft reset waits, and no other step touches the counter of DBUF. -/
theorem resetAtAnyTime : Obligations.ResetAtAnyTime := by
  unfold Obligations.ResetAtAnyTime
  refine ⟨fun s n rest hb hr => ?_, fun s => ⟨maxDraws_of_draws, maxDraws_of_no_draws⟩,
    fun s v arr rest hb hi => step_keeps_held hb hi (.inl ⟨_, _, rfl⟩), fun s s' h => ⟨fun hr => ?_, fun hr => ?_⟩⟩
  · have hd : s.duringCommand = some (State.abandon { s with inputs := rest } n) := by
      simp only [State.duringCommand, (reachesRunning_iff _ _ _).1 hr]
    exact ⟨_, step_reached hb hd, atReset_resetCore _, rfl, rfl⟩
  · obtain ⟨u, hstep, hepoch, hrng⟩ := step_of_takesReset hr
    cases h.symm.trans hstep
    rw [← hepoch]
    exact ⟨rfl, fun _ => rfl, hrng⟩
  · rcases step_of_not_takesReset h hr with hkeeps | ⟨-, -, hran⟩
    · exact hkeeps.dbufEpoch
    · obtain ⟨w, hkept⟩ := hran.kept
      exact hkept.dbufEpoch

/-! ## No step faults (R66, U11) -/

theorem wordAligned_iff (off : HostOffset) : wordAligned off = true ↔ off.toNat % 4 = 0 := beq_iff_eq

theorem perform_next_or_unaligned (s : State) (a : Access) :
    (∃ s', s.perform a = .next s') ∨ (s.perform a = .refused .unalignedHostAccess ∧
      ∃ off : HostOffset, off.toNat % 4 ≠ 0 ∧ (a = .read off ∨ ∃ v, a = .write off v)) := by
  cases a with
  | hwReset n => exact .inl ⟨_, rfl⟩
  | read off =>
    by_cases h : wordAligned off = true
    · exact .inl ⟨_, if_pos h⟩
    · exact .inr ⟨if_neg h, off, mt (wordAligned_iff off).2 h, .inl rfl⟩
  | write off v =>
    by_cases h : wordAligned off = true
    · exact .inl ⟨_, if_pos h⟩
    · exact .inr ⟨if_neg h, off, mt (wordAligned_iff off).2 h, .inr ⟨v, rfl⟩⟩

/-- Settles O18: a command ends, and an access is performed unless its offset is no word's. -/
theorem stepRefusesOnlyUnaligned : Obligations.StepRefusesOnlyUnaligned := by
  unfold Obligations.StepRefusesOnlyUnaligned
  intro s
  cases hb : s.busy with
  | true =>
    cases hd : s.duringCommand with
    | some s' => exact .inl ⟨s', step_reached hb hd⟩
    | none =>
      obtain ⟨s', hrun, -⟩ := runCommand_next s
      exact .inl ⟨s', (step_running hb hd).trans hrun⟩
  | false =>
    cases hi : s.inputs with
    | nil => exact .inl ⟨s, by simp [step, hb, hi]⟩
    | cons x rest =>
      rw [step_idle hb hi]
      refine (perform_next_or_unaligned _ x.access).imp_right ?_
      rintro ⟨hrefused, off, hoff, hx⟩
      exact ⟨rfl, hrefused, x, rest, off, rfl, hoff, hx⟩

end Sys2Proof.Machine

/-! PROOFS. Sound states (R6, R22, R26, R38) and the register window (R30 to R39): every step keeps a state sound, what the host
reads at each offset and what its writes do, and that R and P are out of its reach (R21, R23). -/

namespace Sys2Proof.Machine

/-! ## Soundness is an invariant -/

/-- Settles O16, field by field. -/
theorem resetIsSound : Obligations.ResetIsSound where
  params := by decide
  dbuf := rfl
  idbuf := rfl
  idlen := by decide
  points i := by
    rw [atReset_reset.p i]
    rfl
  busyErr h := nomatch h
  errRecorded h := nomatch h

theorem Params.ok_multiples {c : Params} (h : c.ok = true) : c.bufsz % 4 = 0 ∧ c.idmax % 4 = 0 ∧ 16 ≤ c.idmax := by
  simp only [Params.ok, Bool.and_eq_true, beq_iff_eq, decide_eq_true_eq] at h
  omega

/-- A word register of a byte memory lies inside it (R30, R61). -/
theorem hostReg_word_inside {c : Params} {off k : Nat} (hc : c.ok = true) (h4 : off % 4 = 0) :
    (hostReg c off = .dbuf k → k + 4 ≤ c.bufsz) ∧ (hostReg c off = .idbuf k → k + 4 ≤ c.idmax) := by
  have hmul := Params.ok_multiples hc
  constructor
  · intro h
    simp [hostReg, ite_eq_iff] at h
    omega
  · intro h
    simp [hostReg, ite_eq_iff] at h
    omega

theorem wordAligned_of_write {s s' : State} {off : HostOffset} {v : Word} (h : s.perform (.write off v) = .next s') :
    wordAligned off = true := by
  by_contra ha
  cases h.symm.trans (if_neg ha)

section
variable {s : State} (h : s.Sound)
include h

theorem State.Sound.withInputs (rest : List Input) : State.Sound { s with inputs := rest } := { h with }

theorem State.Sound.resetCore : s.resetCore.Sound :=
  { resetIsSound with
    params := h.params
    dbuf := rfl
    idbuf := rfl
    idlen := (Params.ok_multiples h.params).2.2 }

theorem State.Sound.writeIdlen (v : Word) : (s.writeIdlen v).Sound := by
  unfold State.writeIdlen
  split
  next hle => exact { h with idlen := (Nat.mod_le _ _).trans hle }
  · exact h

theorem State.Sound.acceptCommand (w : Word) : (s.acceptCommand w).Sound := by
  unfold State.acceptCommand
  split
  · exact h
  next he => exact { h with busyErr := fun _ => Bool.eq_false_iff.2 he }

theorem State.Sound.hostWrite (v : Word) {r : HostReg} (hd : ∀ k, r = .dbuf k → k + 4 ≤ s.params.bufsz)
    (hi : ∀ k, r = .idbuf k → k + 4 ≤ s.params.idmax) : (Machine.hostWrite s v r).Sound := by
  cases r with
  | ctrl => rw [Machine.hostWrite]; split; exacts [h.resetCore, h]
  | status =>
    rw [Machine.hostWrite]
    split
    · exact { h with
        busyErr := fun _ => rfl
        errRecorded := fun he => nomatch he }
    · exact h
  | idlen => exact h.writeIdlen v
  | cmd => exact h.acceptCommand v
  | addr i => exact h.writeA i v
  | idbuf k => exact { h with idbuf := memoryInside_putBytes h.idbuf (hi k rfl) }
  | dbuf k => exact h.memWrite (hd k rfl)
  | cfg | ien | istat => exact { h with }
  | ident | errcode | errcmd | cmdcnt | unmapped => exact h

theorem State.Sound.perform {s' : State} {a : Access} (hp : s.perform a = .next s') : s'.Sound := by
  cases a with
  | hwReset n =>
    cases hp
    exact h.resetCore
  | read off =>
    obtain ⟨v, rfl⟩ := perform_read_next hp
    exact { h with }
  | write off v =>
    obtain rfl := perform_write_next hp
    have h4 := (wordAligned_iff off).1 (wordAligned_of_write hp)
    exact h.hostWrite v (fun k => (hostReg_word_inside h.params h4).1) fun k => (hostReg_word_inside h.params h4).2

end

/-- Settles O17: an access keeps the memories inside their sizes, a reset gives sound contents, and so does every end. -/
theorem stepKeepsSound : Obligations.StepKeepsSound := by
  unfold Obligations.StepKeepsSound
  intro s s' hs h
  rcases step_cases h with ⟨-, -, rfl⟩ | ⟨-, x, rest, -, hp⟩ | ⟨-, hd⟩ | ⟨-, -, hrun⟩
  · exact hs
  · exact (hs.withInputs rest).perform hp
  · rcases duringCommand_some hd with ⟨off, rest, v, -, rfl⟩ | ⟨n, rest, -, rfl⟩
    · exact { hs with }
    · exact ((hs.withInputs rest).withRng _).resetCore
  · exact (ran_of_runCommand hrun).sound hs

/-! ## What the host reads (R30 to R39, R61) -/

theorem errcodeWord_mem (c : FaultCode) : (c, errcodeWord (some c)) ∈ errorTable := by
  cases c <;> decide

theorem cfgWord_toNat (c : Cfg) : (cfgWord c).toNat = (c.mode == .c1c2c3).toNat + 2 * (c.sigenc == .plain).toNat +
    4 * (c.c1form == .compressed).toNat + 8 * (c.c1form == .hybrid).toNat := by
  obtain ⟨mode, sigenc, c1form⟩ := c
  cases mode <;> cases sigenc <;> cases c1form <;> rfl

theorem wordOfBytes_toNat (b0 b1 b2 b3 : Byte) :
    (wordOfBytes b0 b1 b2 b3).toNat = b0.toNat * 2 ^ 24 + b1.toNat * 2 ^ 16 + b2.toNat * 2 ^ 8 + b3.toNat := by
  simp only [wordOfBytes, toNat_append_add]
  omega

theorem hostReg_addr (c : Params) (i : RegIdx) : hostReg c (0x40 + 4 * i.val) = .addr i := by
  have hi := i.isLt
  have hidx : Fin.ofNat 16 ((0x40 + 4 * i.val - 0x40) / 4) = i := by
    apply Fin.ext
    show (0x40 + 4 * i.val - 0x40) / 4 % 16 = i.val
    omega
  unfold hostReg
  simp only [hidx]
  repeat rw [if_neg (by omega)]
  rw [if_pos (by omega)]

theorem hostReg_unmapped {c : Params} {off : Nat} (hc : c.ok = true)
    (h : (0x2C ≤ off ∧ off < 0x40) ∨ (0x80 ≤ off ∧ off < 0x2000) ∨ (0x2000 + c.idmax ≤ off ∧ off < 0x10000) ∨
      0x10000 + c.bufsz ≤ off) : hostReg c off = .unmapped := by
  have hmax := Params.sizes_le hc
  unfold hostReg
  repeat rw [if_neg (by omega)]

/-- What the host reads at an offset, by the map of R30. -/
theorem readsAs_hostRead {s : State} (hc : s.params.ok = true) (off : Nat) : ReadsAs s off (hostRead s (hostReg s.params off)) where
  ident := by rintro rfl; rfl
  ctrl := by rintro rfl; rfl
  status := by rintro rfl; exact statusWord_toNat s
  cfg := by rintro rfl; exact cfgWord_toNat s.cfg
  errcodeNone := by
    rintro rfl h
    exact congrArg errcodeWord h
  errcodeSome := by
    rintro rfl c h
    rw [show hostRead s (hostReg s.params 0x10) = errcodeWord (some c) from congrArg errcodeWord h]
    exact errcodeWord_mem c
  errcmd := by rintro rfl; rfl
  cmdcnt := by rintro rfl; rfl
  ien := by rintro rfl; exact irqWord_toNat s.ien
  istat := by rintro rfl; exact irqWord_toNat s.istat
  idlen := by
    rintro rfl
    exact BitVec.toNat_setWidth_of_le (by decide)
  cmd := by rintro rfl; rfl
  addr i := by
    rintro rfl
    rw [hostReg_addr]
    rfl
  idbuf w := by
    rintro rfl hw
    rw [hostReg_idbuf hw]
    exact wordOfBytes_toNat _ _ _ _
  dbuf w := by
    rintro rfl hw
    rw [hostReg_dbuf hc hw]
    exact wordOfBytes_toNat _ _ _ _
  unmapped h := by
    rw [hostReg_unmapped hc h]
    rfl

theorem hostWrite_readOnly {s : State} {v : Word} {off : Nat} (hc : s.params.ok = true)
    (h : off ∈ [0x00, 0x10, 0x14, 0x18] ∨ (0x2C ≤ off ∧ off < 0x40) ∨ (0x80 ≤ off ∧ off < 0x2000) ∨
      (0x2000 + s.params.idmax ≤ off ∧ off < 0x10000) ∨ 0x10000 + s.params.bufsz ≤ off) :
    hostWrite s v (hostReg s.params off) = s := by
  rcases h with h | h
  · simp only [List.mem_cons, List.not_mem_nil, or_false] at h
    rcases h with rfl | rfl | rfl | rfl <;> rfl
  · rw [hostReg_unmapped hc h]
    rfl

theorem hostRead_withInputs (s : State) (rest : List Input) (reg : HostReg) :
    hostRead { s with inputs := rest } reg = hostRead s reg := by
  cases reg <;> rfl

/-- Settles O19: each offset names its register, whose read has no effect. -/
theorem hostWindow : Obligations.HostWindow := by
  unfold Obligations.HostWindow
  refine ⟨fun s off arr rest hc hb hi h4 => ?_, fun s off v arr rest hc hb hi h4 hoff => ?_, fun s i v arr rest hb hi => ?_⟩
  · rw [step_idle hb hi, State.perform, if_pos ((wordAligned_iff off).2 h4)]
    exact ⟨_, rfl, hostRead_withInputs s rest _ ▸ readsAs_hostRead hc off.toNat⟩
  · rw [step_idle hb hi, State.perform, if_pos ((wordAligned_iff off).2 h4)]
    exact congrArg _ (hostWrite_readOnly hc hoff)
  · have hlt := i.isLt
    have hstep := step_write_word hb (by omega) (by omega) hi
    rw [hostReg_addr] at hstep
    exact ⟨_, hstep, regGet_regSet_same _ _ _, fun j hj => regGet_regSet_other _ _ hj, rfl⟩

/-! ## CFG, IDLEN, STATUS (R34, R38, R239) -/

theorem bitField_eq_extractLsb' (v : Word) (lo len : Nat) : bitField v lo len = (v.extractLsb' lo len).toNat := by
  rw [bitField, BitVec.extractLsb'_toNat, Nat.shiftRight_eq_div_pow]

/-- C1FORM after a host write to CFG, by bits 3:2 (R34). -/
theorem writeCfg_c1form (c : Cfg) (v : Word) :
    (v.extractLsb' 2 2 = 0#2 → (writeCfg c v).c1form = .uncompressed) ∧
      (v.extractLsb' 2 2 = 1#2 → (writeCfg c v).c1form = .compressed) ∧
      (v.extractLsb' 2 2 = 2#2 → (writeCfg c v).c1form = .hybrid) ∧ (v.extractLsb' 2 2 = 3#2 → (writeCfg c v).c1form = c.c1form) := by
  simp only [writeCfg, bitField_eq_extractLsb']
  refine ⟨fun h => ?_, fun h => ?_, fun h => ?_, fun h => ?_⟩ <;> rw [h] <;> rfl

/-- Settles O20: the fields of CFG are those of `writeCfg`, and IDLEN is bounded by IDMAX. -/
theorem configurationWrites : Obligations.ConfigurationWrites := by
  unfold Obligations.ConfigurationWrites
  refine ⟨fun s v arr rest hb hi => ?_, fun s v arr rest hb hi => ?_, fun s => ⟨?_, fun i hi => ?_⟩⟩
  · refine ⟨writeCfg s.cfg v, step_idle hb hi, ?_, ?_, writeCfg_c1form s.cfg v⟩
    · cases hv : v.getLsbD 0 <;> simp only [writeCfg, hv] <;> decide
    · cases hv : v.getLsbD 1 <;> simp only [writeCfg, hv] <;> decide
  · have hw : step s = .next (State.writeIdlen { s with inputs := rest } v) := step_idle hb hi
    rw [State.writeIdlen, bitField_eq_extractLsb', BitVec.ofNat_toNat, BitVec.setWidth_eq] at hw
    exact ⟨fun hle => hw.trans (congrArg _ (if_pos hle)), fun hlt => hw.trans (congrArg _ (if_neg (Nat.not_le.2 hlt)))⟩
  · simp [State.userId]
  · simp [State.userId, hi]

/-- Settles O22: the acknowledgement clears ERR, so the next CMD write is accepted. -/
theorem acknowledgeFault : Obligations.AcknowledgeFault := by
  unfold Obligations.AcknowledgeFault
  intro s v arr rest hb hi
  have hw : step s = .next (hostWrite { s with inputs := rest } v .status) := step_idle hb hi
  refine ⟨fun hv => ⟨?_, fun w arr' rest' hrest => ?_⟩, fun hv => ?_⟩
  · rwa [hostWrite, if_pos hv] at hw
  · exact step_idle (s := { s with inputs := rest, err := false }) hb hrest
  · rwa [hostWrite, if_neg (Bool.eq_false_iff.1 hv)] at hw

/-! ## The host cannot reach the keys (R21, R23) -/

/-- A state with other field and point registers. -/
def State.withKeys (s : State) (r : Vector Word256 16) (p : Vector PointReg 16) : State := { s with r := r, p := p }

/-- A state a host write leaves without looking at R and P. -/
theorem keys_of_hostWrite_eq {s u : State} {r : Vector Word256 16} {p : Vector PointReg 16} {v : Word} {reg : HostReg}
    (hw : hostWrite s v reg = u) (hk : hostWrite (s.withKeys r p) v reg = u.withKeys r p)
    (hu : u.r = s.r ∧ u.p = s.p := by exact ⟨rfl, rfl⟩) :
    hostWrite (s.withKeys r p) v reg = (hostWrite s v reg).withKeys r p ∧ (hostWrite s v reg).r = s.r ∧
      (hostWrite s v reg).p = s.p := by
  rw [hw]
  exact ⟨hk, hu⟩

section
variable (s : State) (r : Vector Word256 16) (p : Vector PointReg 16)

theorem hostRead_withKeys (reg : HostReg) : hostRead (s.withKeys r p) reg = hostRead s reg := by
  cases reg <;> rfl

/-- A host write that is no reset neither reads nor writes R and P. -/
theorem hostWrite_withKeys {v : Word} {reg : HostReg} (h : reg = .ctrl → v.getLsbD 0 = false) :
    hostWrite (s.withKeys r p) v reg = (hostWrite s v reg).withKeys r p ∧ (hostWrite s v reg).r = s.r ∧
      (hostWrite s v reg).p = s.p := by
  cases reg with
  | ctrl =>
    have hv := Bool.eq_false_iff.1 (h rfl)
    exact keys_of_hostWrite_eq (if_neg hv) (if_neg hv)
  | status =>
    by_cases hv : v.getLsbD 1 = true
    · exact keys_of_hostWrite_eq (if_pos hv) (if_pos hv)
    · exact keys_of_hostWrite_eq (if_neg hv) (if_neg hv)
  | idlen =>
    by_cases hle : bitField v 0 16 ≤ s.params.idmax
    · exact keys_of_hostWrite_eq (if_pos hle) (if_pos hle)
    · exact keys_of_hostWrite_eq (if_neg hle) (if_neg hle)
  | cmd =>
    by_cases he : s.err = true
    · exact keys_of_hostWrite_eq (if_pos he) (if_pos he)
    · exact keys_of_hostWrite_eq (if_neg he) (if_neg he)
  | _ => exact ⟨rfl, rfl, rfl⟩

end

/-- Settles O24: an access answers alike whatever R and P hold, and keeps both, unless it is a reset. -/
theorem hostCannotReachKeys : Obligations.HostCannotReachKeys := by
  unfold Obligations.HostCannotReachKeys
  intro s r p x
  cases x with
  | hwReset n =>
    refine ⟨fun s' h => ?_, fun e h => nomatch h⟩
    cases h
    exact ⟨_, rfl, rfl, .inr ⟨atReset_resetCore s, atReset_resetCore (s.withKeys r p)⟩⟩
  | read off =>
    cases ha : wordAligned off with
    | false => simp [State.perform, ha]
    | true =>
      simp only [State.perform, ha, if_true]
      refine ⟨fun s' h => ?_, fun e h => nomatch h⟩
      cases h
      refine ⟨_, rfl, ?_, .inl ⟨rfl, rfl, rfl, rfl⟩⟩
      have hread := hostRead_withKeys s r p (hostReg s.params off.toNat)
      exact congrArg (fun v => { s with readData := v }) hread
  | write off v =>
    cases ha : wordAligned off with
    | false => simp [State.perform, ha]
    | true =>
      simp only [State.perform, ha, if_true]
      refine ⟨fun s' h => ?_, fun e h => nomatch h⟩
      cases h
      by_cases hreset : hostReg s.params off.toNat = .ctrl ∧ v.getLsbD 0 = true
      · obtain ⟨hreg, hv⟩ := hreset
        simp only [hreg, hostWrite, if_pos hv]
        exact ⟨_, rfl, rfl, .inr ⟨atReset_resetCore s, atReset_resetCore (s.withKeys r p)⟩⟩
      · obtain ⟨hwrite, hr, hp⟩ := hostWrite_withKeys s r p (reg := hostReg s.params off.toNat) (v := v)
          fun hreg => Bool.eq_false_iff.2 fun hv => hreset ⟨hreg, hv⟩
        refine ⟨_, rfl, ?_, .inl ⟨hr, hp, congrArg State.r hwrite, congrArg State.p hwrite⟩⟩
        change (hostWrite (s.withKeys r p) v (hostReg s.params off.toNat)).withKeys _ _ = _
        rw [hwrite]
        rfl

end Sys2Proof.Machine

/-! PROOFS. Canonical memories (R70, log 1), a register through DBUF and back (R65, R66), the pseudo-instructions (R100), and the
padding of the hash (R220, R223). -/

namespace Sys2Proof.Machine

/-! ## Canonical memories -/

section
variable {unlisted : Nat → Option Byte} {m m1 m2 : Memory} {a : Nat} {b : Byte}

theorem unlisted_ne_of_wf (h : Memory.wf unlisted ((a, b) :: m) = true) : unlisted a ≠ some b := by
  intro he
  simp [Memory.wf, he] at h

theorem written_cons_same : Memory.written ((a, b) :: m) a = some b := if_pos rfl

theorem written_cons_other {x : Nat} (hx : x ≠ a) : Memory.written ((a, b) :: m) x = Memory.written m x := if_neg hx

theorem written_none_of_lt_head {x : Nat} (h : Memory.wf unlisted ((a, b) :: m) = true) (hx : x < a) :
    Memory.written ((a, b) :: m) x = none :=
  (written_cons_other hx.ne).trans (written_none_of_lt h x hx.le)

/-- A listed address reads otherwise than an unlisted one. -/
theorem reads_ne_of_unlisted (h : Memory.wf unlisted ((a, b) :: m1) = true) (hm : Memory.written m2 a = none) :
    (Memory.written ((a, b) :: m1) a).or (unlisted a) ≠ (Memory.written m2 a).or (unlisted a) := by
  rw [written_cons_same, hm]
  exact fun he => unlisted_ne_of_wf h he.symm

/-- What is read decides a canonical list: its first address is the first that does not read as if unlisted. -/
theorem eq_of_reads_eq (h1 : Memory.wf unlisted m1 = true) (h2 : Memory.wf unlisted m2 = true)
    (h : ∀ x, (Memory.written m1 x).or (unlisted x) = (Memory.written m2 x).or (unlisted x)) : m1 = m2 := by
  induction m1 generalizing m2 with
  | nil =>
    cases m2 with
    | nil => rfl
    | cons cell m2 => exact absurd (h _).symm (reads_ne_of_unlisted h2 rfl)
  | cons cell m1 ih =>
    obtain ⟨a, b⟩ := cell
    cases m2 with
    | nil => exact absurd (h _) (reads_ne_of_unlisted h1 rfl)
    | cons cell' m2 =>
      obtain ⟨a', b'⟩ := cell'
      rcases lt_trichotomy a a' with hlt | rfl | hgt
      · exact absurd (h _) (reads_ne_of_unlisted h1 (written_none_of_lt_head h2 hlt))
      · have hb : b = b' := by
          have ha := h a
          rwa [written_cons_same, written_cons_same, Option.some_or, Option.some_or, Option.some_inj] at ha
        have htail : m1 = m2 := by
          refine ih (wf_tail h1) (wf_tail h2) fun x => ?_
          by_cases hx : x = a
          · rw [written_none_of_lt h1 x hx.le, written_none_of_lt h2 x hx.le]
          · have hx' := h x
            rwa [written_cons_other hx, written_cons_other hx] at hx'
        rw [hb, htail]
      · exact absurd (h _).symm (reads_ne_of_unlisted h2 (written_none_of_lt_head h1 hgt))

end

/-- Settles O26: the first entries of two canonical lists agree, and a write keeps the form. -/
theorem memoryCanonical : Obligations.MemoryCanonical := by
  unfold Obligations.MemoryCanonical
  exact fun unlisted m1 m2 h1 h2 => ⟨eq_of_reads_eq h1 h2, fun addr bs => wf_putBytes bs h1 addr⟩

/-! ## STR, then LDR or a host read (R65, R66) -/

theorem execStr_in {s : State} {a : RegIdx} {imm : BitVec 16} (src : RegIdx) (hin : s.effAddr a imm + 32 ≤ s.params.bufsz) :
    execStr src a imm s = .next (s.memWrite (s.effAddr a imm) (i2os (s.rNat src) 32)).complete :=
  congrArg s.finish (checkRange_in _ _ hin)

theorem execLdr_in {s : State} {a : RegIdx} {imm : BitVec 16} (d : RegIdx) (hin : s.effAddr a imm + 32 ≤ s.params.bufsz) :
    execLdr d a imm s = .next (s.writeR d (BitVec.ofNat 256 (os2i (s.memRead (s.effAddr a imm) 32)))).complete :=
  congrArg s.finish (checkRange_in _ _ hin)

/-- Four neighbouring base-256 digits of a number are 32 of its bits. -/
theorem four_digits (v e : Nat) :
    v / 256 ^ (e + 3) % 256 * 2 ^ 24 + v / 256 ^ (e + 2) % 256 * 2 ^ 16 + v / 256 ^ (e + 1) % 256 * 2 ^ 8 + v / 256 ^ e % 256 =
      v / 256 ^ e % 2 ^ 32 := by
  simp only [pow_add, ← Nat.div_div_eq_div_mul]
  omega

theorem memRead_complete (s : State) (addr n : Nat) : s.complete.memRead addr n = s.memRead addr n := rfl

theorem effAddr_complete_memWrite (s : State) (addr : Nat) (bs : Bytes) (a : RegIdx) (imm : BitVec 16) :
    (s.memWrite addr bs).complete.effAddr a imm = s.effAddr a imm := rfl

/-- The bytes of a register, stored and loaded. -/
theorem ofNat_os2i_stored (s : State) (addr : Nat) (src : RegIdx) :
    BitVec.ofNat 256 (os2i ((s.memWrite addr (i2os (s.rNat src) 32)).memRead addr 32)) = regGet s.r src := by
  have hread := memRead_memWrite s addr (i2os (s.rNat src) 32)
  rw [i2os_length] at hread
  have hlt : s.rNat src < 256 ^ 32 := (regGet s.r src).isLt
  rw [hread, os2i_i2os_of_lt hlt, State.rNat, BitVec.ofNat_toNat, BitVec.setWidth_eq]

/-- A host word inside the stored region. -/
theorem hostRead_stored (s : State) {addr v k : Nat} (hlo : addr ≤ k) (hhi : k + 4 ≤ addr + 32) :
    (hostRead (s.memWrite addr (i2os v 32)).complete (.dbuf k)).toNat = v / 256 ^ (28 - (k - addr)) % 2 ^ 32 := by
  obtain ⟨j, rfl⟩ := Nat.exists_eq_add_of_le hlo
  have hbyte (i : Nat) (hi : i ≤ 3) :
      ((s.memWrite addr (i2os v 32)).dbufByte (addr + j + i)).toNat = v / 256 ^ (28 - j + (3 - i)) % 256 := by
    rw [Nat.add_assoc, dbufByte_memWrite_i2os s addr v (by omega), show 32 - 1 - (j + i) = 28 - j + (3 - i) by omega]
  rw [hostRead, wordOfBytes_toNat, Nat.add_sub_cancel_left, ← four_digits]
  simp only [dbufByte_complete]
  rw [hbyte 1 (by omega), hbyte 2 (by omega), hbyte 3 (by omega), ← hbyte 0 (by omega)]
  rfl

/-- Settles O30: the image is read back whole, and four of its bytes are a word of the host. -/
theorem storeThenLoad : Obligations.StoreThenLoad := by
  unfold Obligations.StoreThenLoad
  intro src d a imm s hin
  have hload := execLdr_in (s := (s.memWrite (s.effAddr a imm) (i2os (s.rNat src) 32)).complete) (a := a) (imm := imm) d
    (by rwa [effAddr_complete_memWrite, State.complete_params, State.memWrite_params])
  rw [effAddr_complete_memWrite, memRead_complete, ofNat_os2i_stored] at hload
  exact ⟨_, _, execStr_in src hin, hload, regGet_regSet_same _ _ _, fun w => hostRead_stored s⟩

/-! ## The pseudo-instructions (R100) -/

theorem execAll_pair {i j : Instr} {s s1 s2 : State} (hi : exec i s = .next s1) (hj : exec j s1 = .next s2) :
    execAll [i, j] s = .next s2 := by
  simp only [execAll, hi, hj]

/-- The state after LDC. -/
def State.withConst (s : State) (t : RegIdx) (v : Nat) : State := (s.writeR t (BitVec.ofNat 256 v)).complete

theorem rNat_withConst_same (s : State) (t : RegIdx) {v : Nat} (hv : v < 2 ^ 256) : (s.withConst t v).rNat t = v :=
  (rNat_complete_writeR _ _ _).trans (Nat.mod_eq_of_lt hv)

theorem rNat_withConst_other (s : State) {t a : RegIdx} (v : Nat) (h : a ≠ t) : (s.withConst t v).rNat a = s.rNat a :=
  congrArg BitVec.toNat (regGet_regSet_other _ _ h)

/-- A constant into a temporary, then a command that writes one field register. -/
theorem execAll_ldc_then {s : State} {t d : RegIdx} {cid : BitVec 4} {v : Nat} {i : Instr} {w : Word256}
    (hv : constValue cid = some v) (hi : exec i (s.withConst t v) = .next ((s.withConst t v).writeR d w).complete) :
    ∃ s', execAll [.ldc t cid, i] s = .next s' ∧ s'.rNat d = w.toNat ∧ (d ≠ t → s'.rNat t = v) ∧
      (∀ i, i ≠ d → i ≠ t → regGet s'.r i = regGet s.r i) ∧ s'.p = s.p ∧ s'.a = s.a := by
  refine ⟨_, execAll_pair (execLdc_of_constValue s hv) hi, rNat_complete_writeR _ _ _, fun hdt => ?_, fun j hd ht => ?_, rfl, rfl⟩
  · exact (congrArg BitVec.toNat (regGet_regSet_other _ _ hdt.symm)).trans (rNat_withConst_same s t (constValue_lt hv))
  · exact (regGet_regSet_other _ _ hd).trans (regGet_regSet_other _ _ ht)

theorem constValue_r2p : constValue 8#4 = some (2 ^ 512 % modulusValue .p) := by
  rw [modulusValue, ← Config.r2p]
  rfl

theorem constValue_r2n : constValue 9#4 = some (2 ^ 512 % modulusValue .n) := by
  rw [modulusValue, ← Config.r2n]
  rfl

section
variable {s : State} {d a t : RegIdx} (m : Modulus) (hat : a ≠ t)
include hat

theorem toMont_effect {cid : BitVec 4} (hcid : constValue cid = some (2 ^ 512 % modulusValue m)) :
    ∃ s', execAll [.ldc t cid, .montmul d a t m] s = .next s' ∧ s'.rNat d = s.rNat a * 2 ^ 256 % modulusValue m ∧
      (d ≠ t → s'.rNat t = 2 ^ 512 % modulusValue m) ∧ (∀ i, i ≠ d → i ≠ t → regGet s'.r i = regGet s.r i) ∧ s'.p = s.p ∧
      s'.a = s.a := by
  obtain ⟨hpos, -⟩ := modulusValue_bounds m
  obtain ⟨s', hexec, hd, hframe⟩ := execAll_ldc_then (s := s) (d := d) (i := .montmul d a t m) hcid rfl
  refine ⟨s', hexec, ?_, hframe⟩
  rw [hd, rNat_withConst_other _ _ hat, rNat_withConst_same _ _ (constValue_lt hcid), toNat_ofNat_of_lt_modulus (montMul_lt _ _ hpos),
    montMul_radix_sq _ (modulusValue_odd m) (one_lt_modulusValue m)]

theorem fromMont_effect :
    ∃ s', execAll [.ldc t 1#4, .montmul d a t m] s = .next s' ∧ s'.rNat d < modulusValue m ∧
      s'.rNat d * 2 ^ 256 % modulusValue m = s.rNat a % modulusValue m ∧ (d ≠ t → s'.rNat t = 1) ∧
      (∀ i, i ≠ d → i ≠ t → regGet s'.r i = regGet s.r i) ∧ s'.p = s.p ∧ s'.a = s.a := by
  obtain ⟨hpos, -⟩ := modulusValue_bounds m
  obtain ⟨s', hexec, hd, hframe⟩ := execAll_ldc_then (s := s) (t := t) (d := d) (cid := 1#4) (i := .montmul d a t m) rfl rfl
  have hlt := montMul_lt (s.rNat a) 1 hpos
  have hmont := montMul_mul_radix (s.rNat a) 1 (modulusValue_odd m) (one_lt_modulusValue m)
  rw [rNat_withConst_other _ _ hat, rNat_withConst_same _ _ (by decide), toNat_ofNat_of_lt_modulus hlt] at hd
  rw [mul_one] at hmont
  exact ⟨s', hexec, hd ▸ hlt, hd ▸ hmont, hframe⟩

theorem negate_effect :
    ∃ s', execAll [.ldc t 0#4, .fsub d t a m] s = .next s' ∧ (s'.rNat d : Int) = (-(s.rNat a : Int)) % (modulusValue m : Int) ∧
      (d ≠ t → s'.rNat t = 0) ∧ (∀ i, i ≠ d → i ≠ t → regGet s'.r i = regGet s.r i) ∧ s'.p = s.p ∧ s'.a = s.a := by
  obtain ⟨hpos, -⟩ := modulusValue_bounds m
  obtain ⟨s', hexec, hd, hframe⟩ := execAll_ldc_then (s := s) (t := t) (d := d) (cid := 0#4) (i := .fsub d t a m) rfl rfl
  refine ⟨s', hexec, ?_, hframe⟩
  rw [hd, rNat_withConst_other _ _ hat, rNat_withConst_same _ _ (by decide), toNat_ofNat_of_lt_modulus (subMod_lt hpos),
    subMod_eq_int _ _ hpos, Nat.cast_zero, zero_sub]

end

theorem pubkey_effect {s : State} (d : RegIdx) {k : RegIdx} (hpos : 1 ≤ s.rNat k) (hk : s.rNat k < Config.n) :
    ∃ s', execAll [.pldg d, .smul d k d] s = .next s' ∧ s'.point d = scalarMul (s.rNat k) generator ∧
      (∀ i, i ≠ d → regGet s'.p i = regGet s.p i) ∧ s'.r = s.r ∧ s'.a = s.a := by
  have hpoint : State.point (s.writeP d (pointReg generator)).complete d = generator := by
    rw [State.point, regGet_complete_writeP, regPoint_pointReg generator_onCurve]
  have hsmul := execSmul_in (s := (s.writeP d (pointReg generator)).complete) (k := k) d (hpoint ▸ generator_onCurve) hpos hk
  refine ⟨_, execAll_pair rfl hsmul, ?_, fun i hi => ?_, rfl, rfl⟩
  · rw [hpoint]
    exact (completed_writeP_point _ d (onCurve_scalarMul generator_onCurve (hk.trans n_lt_two_pow))).2.1
  · exact (regGet_regSet_other _ _ hi).trans (regGet_regSet_other _ _ hi)

/-- Settles O5, sequence by sequence. -/
theorem pseudoInstructions : Obligations.PseudoInstructions := by
  unfold Obligations.PseudoInstructions
  refine ⟨fun d a s => ⟨rfl, ?_⟩, fun d a t m s hat => ?_, fun d a t m s hat => ⟨rfl, fromMont_effect m hat⟩,
    fun d a t m s hat => ⟨rfl, negate_effect m hat⟩, fun d k s hpos hk => ⟨rfl, pubkey_effect d hpos hk⟩⟩
  · refine ⟨_, rfl, (regGet_regSet_same _ _ _).trans (BitVec.add_zero _), fun i hi => regGet_regSet_other _ _ hi, rfl, rfl⟩
  · cases m with
    | p => exact ⟨rfl, toMont_effect .p hat constValue_r2p⟩
    | n => exact ⟨rfl, toMont_effect .n hat constValue_r2n⟩

/-! ## The hash (R220, R223) -/

/-- Settles O51: the number of zeros is the least by its definition modulo 64. -/
theorem hashShape : Obligations.HashShape := by
  unfold Obligations.HashShape
  intro msg
  refine ⟨hash_length msg, sm3ZeroBytes msg.length, rfl, ?_, fun z' hz' => ?_, ?_⟩
  · rw [sm3ZeroBytes]
    omega
  · rw [sm3ZeroBytes]
    omega
  · simp only [sm3Pad, sm3ZeroBytes, List.length_append, List.length_singleton, List.length_replicate, i2os_length]
    omega

end Sys2Proof.Machine

/-! PROOFS. The codec's round trip (R170 to R173) and encryption (R190 to R192): ENCRYPT and DECRYPT check by check, and that
DECRYPT undoes ENCRYPT. -/

namespace Sys2Proof.Machine

/-! ## Decoding an encoded point -/

/-- The prefixes of R170, by the parity of y. -/
theorem parityPrefix_mem {n y : Nat} (hn : n = 2 ∨ n = 6) :
    BitVec.ofNat 8 (n + y % 2) ∈ [BitVec.ofNat 8 n, BitVec.ofNat 8 (n + 1)] ∧ (BitVec.ofNat 8 (n + y % 2)).toNat % 2 = y % 2 := by
  rcases Nat.mod_two_eq_zero_or_one y with hy | hy <;> rcases hn with rfl | rfl <;> rw [hy] <;> decide

theorem os2i_i2os_coordinate {x : Nat} (h : x < Config.p) : os2i (i2os x 32) = x :=
  os2i_i2os_of_lt (h.trans (by decide))

theorem encodePoint_uncompressed (x y : Nat) : encodePoint x y .uncompressed = 0x04#8 :: (i2os x 32 ++ i2os y 32) := by
  rw [encodePoint, List.append_assoc, List.singleton_append]

theorem encodePoint_compressed (x y : Nat) : encodePoint x y .compressed = BitVec.ofNat 8 (2 + y % 2) :: i2os x 32 := by
  rw [encodePoint, List.singleton_append]

theorem encodePoint_hybrid (x y : Nat) :
    encodePoint x y .hybrid = BitVec.ofNat 8 (6 + y % 2) :: (i2os x 32 ++ i2os y 32) := by
  rw [encodePoint, List.append_assoc, List.singleton_append]

theorem decodePoint_encodePoint {x y : Nat} (form : PointForm) (h : onCurve (.affine x y) = true) :
    decodePoint (encodePoint x y form) = .ok (.affine x y) := by
  obtain ⟨hx, hy, heq⟩ := (onCurve_iff x y).1 h
  have hxlen := i2os_length x 32
  have hylen := i2os_length y 32
  have hxval := os2i_i2os_coordinate hx
  have hyval := os2i_i2os_coordinate hy
  cases form with
  | uncompressed =>
    rw [encodePoint_uncompressed, decodePoint_uncompressed hxlen hylen, hxval, hyval, decodedPoint_on h]
  | compressed =>
    obtain ⟨hpc, hparity⟩ := parityPrefix_mem (y := y) (.inl rfl)
    rw [encodePoint_compressed, decodePoint_abscissa hxlen hpc, hxval, decompress_root hx hy heq hparity.symm]
  | hybrid =>
    obtain ⟨hpc, hparity⟩ := parityPrefix_mem (y := y) (.inr rfl)
    rw [encodePoint_hybrid, decodePoint_hybrid hxlen hylen hpc, hxval, hyval, hparity, if_neg (not_not.2 rfl), decodedPoint_on h]

/-- Settles O47, form by form. -/
theorem codecRoundTrip : Obligations.CodecRoundTrip := by
  unfold Obligations.CodecRoundTrip
  exact ⟨fun x y form h => ⟨encodePoint_length x y form, decodePoint_encodePoint form h⟩, fun bs v => finite_onCurve_of_decodePoint⟩

/-! ## Which word a retry loop takes (R190, R201) -/

section
variable {α : Type} {attempt : Word256 → Option α} {bound : Nat} {g : Rng}

theorem retryLoop_first {j : Nat} {out : α} (hj : j < bound) (hfail : ∀ i < j, attempt (g.word i) = none)
    (hout : attempt (g.word j) = some out) : retryLoop attempt bound g = (some out, g.skip (j + 1)) := by
  rcases retryLoop_cases attempt bound g with ⟨j', out', -, hfail', hout', hloop⟩ | ⟨hall, -⟩
  · have heq : j' = j := by
      rcases lt_trichotomy j' j with h | h | h
      · cases (hfail j' h).symm.trans hout'
      · exact h
      · cases (hfail' j h).symm.trans hout
    rw [heq, hout] at hout'
    rw [hloop, heq, Option.some_inj.1 hout']
  · cases (hall j hj).symm.trans hout

theorem retryLoop_exhausted (hfail : ∀ i < bound, attempt (g.word i) = none) :
    retryLoop attempt bound g = (none, g.skip bound) := by
  rcases retryLoop_cases attempt bound g with ⟨j, out, hj, -, hout, -⟩ | ⟨-, hloop⟩
  · cases (hfail j hj).symm.trans hout
  · exact hloop

end

/-- A multiple of the generator below its order is finite (R7). -/
theorem scalarMul_generator_finite {k : Nat} (hpos : 1 ≤ k) (hk : k < Config.n) :
    ∃ x1 y1, scalarMul k generator = .affine x1 y1 ∧ onCurve (.affine x1 y1) = true := by
  have hwidth := hk.trans n_lt_two_pow
  have hon := onCurve_scalarMul generator_onCurve hwidth
  cases hp : scalarMul k generator with
  | inf => exact absurd ((scalarMul_generator_eq_inf hwidth).1 hp) (Nat.not_dvd_of_pos_of_lt hpos hk)
  | affine x1 y1 => exact ⟨x1, y1, rfl, hp ▸ hon⟩

/-! ## ENCRYPT (R190) -/

/-- What an iteration that succeeds has computed. -/
theorem encryptAttempt_some {H : Bytes → Bytes} {cfg : Cfg} {q : Point} {msg out : Bytes} {w : Word256}
    (h : encryptAttempt H cfg q msg w = some out) :
    1 ≤ w.toNat ∧ w.toNat < Config.n ∧ ∃ x1 y1 x2 y2 t, scalarMul w.toNat generator = .affine x1 y1 ∧
      onCurve (.affine x1 y1) = true ∧ scalarMul w.toNat q = .affine x2 y2 ∧ kdf H (sharedBytes x2 y2) msg.length = .ok t ∧
      out = assembleCipher cfg.mode (encodePoint x1 y1 cfg.c1form) (xorBytes msg t) (macOf H x2 y2 msg) := by
  unfold encryptAttempt at h
  dsimp only at h
  split at h
  · cases h
  next hrange =>
    have hpos : 1 ≤ w.toNat := by omega
    have hlt : w.toNat < Config.n := by omega
    obtain ⟨x1, y1, hc1, hon⟩ := scalarMul_generator_finite hpos hlt
    split at h
    · cases h
    next x2 y2 hq =>
      split at h
      · cases h
      next t ht =>
        cases h
        exact ⟨hpos, hlt, x1, y1, x2, y2, t, hc1, hon, hq, ht, by rw [hc1]; rfl⟩

section
variable {o d src l q : RegIdx} {s : State}

theorem encrypt_faultsWith {c : FaultCode} (h : encryptOperands d src l q s = .error c) : FaultsWith (.encrypt o d src l q) s c := by
  have hexec : execEncrypt o d src l q s = .next (s.raise c) := by simp only [execEncrypt, h]
  exact ⟨_, hexec, faulted_raise _ s c⟩

/-- The state ENCRYPT leaves with a ciphertext, `g` being the port after its draws. -/
def State.writeCipher (s : State) (o d l : RegIdx) (out : Bytes) (g : Rng) : State :=
  (((s.withRng g).memWrite (s.aNat d) out).writeA o (BitVec.ofNat 32 (cipherLength s.cfg (s.aNat l)))).complete

variable {msg : Bytes} (hop : encryptOperands d src l q s = .ok msg)
include hop

theorem execEncrypt_of_some {out : Bytes} {g : Rng}
    (h : retryLoop (encryptAttempt Config.hash s.cfg (s.point q) msg) s.params.retryMax s.rng = (some out, g)) :
    execEncrypt o d src l q s = .next (s.writeCipher o d l out g) := by
  simp only [execEncrypt, hop, h, State.writeCipher]

theorem execEncrypt_of_none {g : Rng}
    (h : retryLoop (encryptAttempt Config.hash s.cfg (s.point q) msg) s.params.retryMax s.rng = (none, g)) :
    execEncrypt o d src l q s = .next ((s.withRng g).raise .retryExhausted) := by
  simp only [execEncrypt, hop, h]

omit hop in
theorem memRead_writeCipher {out : Bytes} (g : Rng) (hlen : out.length = cipherLength s.cfg (s.aNat l)) :
    (s.writeCipher o d l out g).memRead (s.aNat d) (cipherLength s.cfg (s.aNat l)) = out := by
  rw [← hlen]
  exact memRead_complete_writeA_memWrite (s.withRng g) _ _ _ _

theorem encryptAttempt_cipherLength {out : Bytes} {w : Word256}
    (h : encryptAttempt Config.hash s.cfg (s.point q) msg w = some out) : out.length = cipherLength s.cfg (s.aNat l) := by
  obtain ⟨-, -, -, -, -, rfl⟩ := encryptOperands_ok.1 hop
  rw [encryptAttempt_length hash_length h, memRead_length]

theorem encryptAttempt_eq_none_iff {w : Word256} : encryptAttempt Config.hash s.cfg (s.point q) msg w = none ↔
    EncryptWordFails Config.hash (s.point q) (s.aNat l) w.toNat := by
  obtain ⟨h0, -, -, -, -, rfl⟩ := encryptOperands_ok.1 hop
  rw [encryptAttempt_none (List.ne_nil_of_length_pos (by rw [memRead_length]; omega)), memRead_length]

end

/-- Settles O52: the operand checks decide in order, and the loop takes the first word that does not fail. -/
theorem encryptCommand : Obligations.EncryptCommand := by
  unfold Obligations.EncryptCommand
  intro o d src l q s
  refine ⟨fun h0 => encrypt_faultsWith (if_pos h0), fun h0 hsrc => encrypt_faultsWith ((if_neg h0).trans (checkRange_out _ _ hsrc)),
    fun h0 hsrc hdst => encrypt_faultsWith ?_, fun h0 hsrc hdst => ?_⟩
  · exact (if_neg h0).trans ((checkRange_in _ _ hsrc).trans (checkRange_out _ _ hdst))
  have hchecked : encryptOperands d src l q s = checkFinite (s.point q) (.ok (s.memRead (s.aNat src) (s.aNat l))) :=
    (if_neg h0).trans ((checkRange_in _ _ hsrc).trans (checkRange_in _ _ hdst))
  refine ⟨fun hinf => encrypt_faultsWith (hchecked.trans (checkFinite_inf _ hinf)),
    fun _ hoff => encrypt_faultsWith (hchecked.trans (checkFinite_off _ hoff)), fun hfin hon => ?_⟩
  have hop : encryptOperands d src l q s = .ok (s.memRead (s.aNat src) (s.aNat l)) :=
    encryptOperands_ok.2 ⟨h0, hsrc, hdst, hfin, hon, rfl⟩
  refine ⟨fun j hj hfail hgood => ?_, fun hall => ?_⟩
  · obtain ⟨out, hout⟩ := Option.ne_none_iff_exists'.1 (mt (encryptAttempt_eq_none_iff hop).1 hgood)
    have hloop := retryLoop_first hj (fun i hi => (encryptAttempt_eq_none_iff hop).2 (hfail i hi)) hout
    have hlen := encryptAttempt_cipherLength hop hout
    obtain ⟨-, -, x1, y1, x2, y2, t, hc1, -, hq, ht, rfl⟩ := encryptAttempt_some hout
    rw [memRead_length] at ht
    refine ⟨_, x1, y1, x2, y2, t, execEncrypt_of_some hop hloop, completed_memWrite_writeA_rng s _ _ _ hlen.le o _, rfl,
      regGet_regSet_same _ _ _, hc1, hq, ht, ?_⟩
    rw [memRead_writeCipher _ hlen]
    cases s.cfg.mode <;> rfl
  · have hloop := retryLoop_exhausted fun i hi => (encryptAttempt_eq_none_iff hop).2 (hall i hi)
    exact ⟨_, execEncrypt_of_none hop hloop, faulted_raise_rng s _ _, rfl⟩

/-! ## DECRYPT (R191, R192) -/

theorem slice_memRead (s : State) (addr : Nat) {len start n : Nat} (h : start + n ≤ len) :
    slice (s.memRead addr len) start n = s.memRead (addr + start) n := by
  have hlen : (slice (s.memRead addr len) start n).length = n := slice_length (by rwa [memRead_length])
  refine List.ext_getElem? fun i => ?_
  by_cases hi : i < n
  · rw [memRead_getElem? s _ hi, slice, List.getElem?_take_of_lt hi, List.getElem?_drop, memRead_getElem? s _ (by omega),
      Nat.add_assoc]
  · rw [List.getElem?_eq_none (by omega), List.getElem?_eq_none (by rw [memRead_length]; omega)]

theorem c1Length_empty {c : Bytes} (h : c.length = 0) : c1Length false c = .error .shortCiphertext :=
  (if_neg Bool.false_ne_true).trans (if_pos h)

theorem c1Length_byPrefix {c : Bytes} (h : c.length ≠ 0) : c1Length false c =
    if byteAt c 0 = 0x04 ∨ byteAt c 0 = 0x06 ∨ byteAt c 0 = 0x07 then .ok 65
    else if byteAt c 0 = 0x02 ∨ byteAt c 0 = 0x03 then .ok 33 else .error .badPrefix :=
  (if_neg Bool.false_ne_true).trans (if_neg h)

/-- The first byte decides the length of C1 (R191). -/
theorem c1Length_of_C1Length {raw : Bool} {c : Bytes} {c1len : Nat} (h : C1Length raw c c1len) : c1Length raw c = .ok c1len := by
  rcases h with ⟨rfl, rfl⟩ | ⟨rfl, ⟨b, rest, rfl, hb, rfl⟩ | ⟨b, rest, rfl, hb, rfl⟩⟩
  · rfl
  · rw [c1Length_byPrefix (c := b :: rest) (Nat.succ_ne_zero _), byteAt_cons_zero, if_pos (mem_fullPrefixes.1 hb)]
  · rw [c1Length_byPrefix (c := b :: rest) (Nat.succ_ne_zero _), byteAt_cons_zero, if_neg (not_fullPrefix_of_compressedPrefix hb),
      if_pos (mem_compressedPrefixes.1 hb)]

theorem c1Length_badPrefix {c : Bytes} {b : Byte} (h0 : c.length ≠ 0) (hb : byteAt c 0 = b.toNat)
    (h : b ∉ [0x02#8, 0x03#8, 0x04#8, 0x06#8, 0x07#8]) : c1Length false c = .error .badPrefix := by
  have hfull : ¬(b.toNat = 0x04 ∨ b.toNat = 0x06 ∨ b.toNat = 0x07) := fun hm =>
    h (List.mem_append_right [0x02#8, 0x03#8] (mem_fullPrefixes.2 hm))
  have hcompressed : ¬(b.toNat = 0x02 ∨ b.toNat = 0x03) := fun hm =>
    h (List.mem_append_left [0x04#8, 0x06#8, 0x07#8] (mem_compressedPrefixes.2 hm))
  rw [c1Length_byPrefix h0, hb, if_neg hfull, if_neg hcompressed]

section
variable {H : Bytes → Bytes} {mode : Mode} {c : Bytes} {c1len mlen k : Nat} {c1 : Point}

theorem decryptBody_decodeError {f : FaultCode} (h : decodePoint (slice c 0 c1len) = .error f) :
    decryptBody H mode c c1len mlen k = .error f := by
  simp only [decryptBody, h]

variable (h : decodePoint (slice c 0 c1len) = .ok c1)
include h

theorem decryptBody_scalarRange (hk : k = 0 ∨ Config.n ≤ k) : decryptBody H mode c c1len mlen k = .error .scalarRange := by
  simp only [decryptBody, h, checkScalar_out _ hk]

theorem decryptBody_infinity (hpos : 1 ≤ k) (hk : k < Config.n) (hinf : scalarMul k c1 = .inf) :
    decryptBody H mode c c1len mlen k = .error .infinity := by
  simp only [decryptBody, h, checkScalar_in _ hpos hk, hinf]

theorem decryptBody_shared {x2 y2 : Nat} (hpos : 1 ≤ k) (hk : k < Config.n) (hp : scalarMul k c1 = .affine x2 y2) :
    decryptBody H mode c c1len mlen k = openCipher H x2 y2 (cipherC2 mode c c1len mlen) (cipherC3 mode c c1len mlen) := by
  simp only [decryptBody, h, checkScalar_in _ hpos hk, hp]

end

section
variable {H : Bytes → Bytes} {x2 y2 : Nat} {c2 c3 t : Bytes}

theorem openCipher_kdfError {f : FaultCode} (h : kdf H (sharedBytes x2 y2) c2.length = .error f) :
    openCipher H x2 y2 c2 c3 = .error f := by
  simp only [openCipher, h]

variable (h : kdf H (sharedBytes x2 y2) c2.length = .ok t)
include h

theorem openCipher_macMismatch (hmac : macOf H x2 y2 (xorBytes c2 t) ≠ c3) : openCipher H x2 y2 c2 c3 = .error .mac := by
  simp only [openCipher, h, if_pos hmac]

theorem openCipher_macMatch (hmac : macOf H x2 y2 (xorBytes c2 t) = c3) : openCipher H x2 y2 c2 c3 = .ok (xorBytes c2 t) := by
  simp only [openCipher, h, if_neg (not_not.2 hmac)]

end

section
variable {o d src l k : RegIdx} {raw : Bool} {s : State}

theorem decrypt_faultsWith {c : FaultCode} (h : decryptResult Config.hash d src l k raw s = .error c) :
    FaultsWith (.decrypt o d src l k raw) s c := by
  have hexec : execDecrypt o d src l k raw s = .next (s.raise c) := by simp only [execDecrypt, h, finish_error]
  exact ⟨_, hexec, faulted_raise _ s c⟩

theorem decrypt_completes {msg : Bytes} {mlen : Nat} (h : decryptResult Config.hash d src l k raw s = .ok msg)
    (hlen : msg.length = mlen) :
    ∃ s', exec (.decrypt o d src l k raw) s = .next s' ∧ State.Completed { a := [o], dbuf := (s.aNat d, mlen) } s s' ∧
      s'.memRead (s.aNat d) mlen = msg ∧ regGet s'.a o = BitVec.ofNat 32 mlen := by
  subst hlen
  have hexec : execDecrypt o d src l k raw s =
      .next ((s.memWrite (s.aNat d) msg).writeA o (BitVec.ofNat 32 msg.length)).complete := by
    simp only [execDecrypt, h, finish_ok]
  exact ⟨_, hexec, completed_memWrite_writeA s _ _ le_rfl o _, memRead_complete_writeA_memWrite s _ _ _ _, regGet_regSet_same _ _ _⟩

section
variable (hsrc : s.aNat src + s.aNat l ≤ s.params.bufsz)
include hsrc

theorem decryptResult_c1Error {f : FaultCode} (h : c1Length raw (s.memRead (s.aNat src) (s.aNat l)) = .error f) :
    decryptResult Config.hash d src l k raw s = .error f := by
  simp only [decryptResult, checkRange_in _ _ hsrc, h]

variable {c1len : Nat} (hc1 : C1Length raw (s.memRead (s.aNat src) (s.aNat l)) c1len)
include hc1

theorem decryptResult_short (h : s.aNat l < c1len + 32 + 1) :
    decryptResult Config.hash d src l k raw s = .error .shortCiphertext := by
  simp only [decryptResult, checkRange_in _ _ hsrc, c1Length_of_C1Length hc1, if_pos h]

theorem decryptResult_parsed {mlen : Nat} (hpos : 1 ≤ mlen) (h : s.aNat l = c1len + 32 + mlen) :
    decryptResult Config.hash d src l k raw s = checkRange s.params.bufsz (s.aNat d) mlen .dstRange
      (decryptBody Config.hash s.cfg.mode (s.memRead (s.aNat src) (s.aNat l)) c1len mlen (s.rNat k)) := by
  have hlong : ¬s.aNat l < c1len + 32 + 1 := by omega
  have hmlen : s.aNat l - c1len - 32 = mlen := by omega
  simp only [decryptResult, checkRange_in _ _ hsrc, c1Length_of_C1Length hc1, if_neg hlong, hmlen]

end

/-- C2 and C3 of a ciphertext in DBUF, by CFG.MODE (R192). -/
theorem cipherParts_memRead {c1len mlen : Nat} {c2 c3 : Bytes} (hl : s.aNat l = c1len + 32 + mlen)
    (h : match s.cfg.mode with
      | .c1c2c3 => c2 = s.memRead (s.aNat src + c1len) mlen ∧ c3 = s.memRead (s.aNat src + c1len + mlen) 32
      | .c1c3c2 => c3 = s.memRead (s.aNat src + c1len) 32 ∧ c2 = s.memRead (s.aNat src + c1len + 32) mlen) :
    cipherC2 s.cfg.mode (s.memRead (s.aNat src) (s.aNat l)) c1len mlen = c2 ∧
      cipherC3 s.cfg.mode (s.memRead (s.aNat src) (s.aNat l)) c1len mlen = c3 ∧ c2.length = mlen := by
  cases hmode : s.cfg.mode with
  | c1c2c3 =>
    rw [hmode] at h
    obtain ⟨rfl, rfl⟩ := h
    exact ⟨slice_memRead s _ (by omega), by rw [Nat.add_assoc]; exact slice_memRead s _ (by omega), memRead_length _ _ _⟩
  | c1c3c2 =>
    rw [hmode] at h
    obtain ⟨rfl, rfl⟩ := h
    exact ⟨by rw [Nat.add_assoc]; exact slice_memRead s _ (by omega), slice_memRead s _ (by omega), memRead_length _ _ _⟩

end

/-- Settles O53: the checks of the rule one after the other, each an equation of the result. -/
theorem decryptCommand : Obligations.DecryptCommand := by
  unfold Obligations.DecryptCommand
  intro o d src l k raw s
  refine ⟨fun hout => decrypt_faultsWith (checkRange_out _ _ hout), fun hsrc => ⟨fun hraw h0 => ?_, fun hraw h0 hprefix => ?_,
    fun c1len hc1 => ⟨fun hshort => decrypt_faultsWith (decryptResult_short hsrc hc1 hshort), fun mlen hpos hl => ?_⟩⟩⟩
  · subst hraw
    exact decrypt_faultsWith (decryptResult_c1Error hsrc (c1Length_empty (by rw [memRead_length, h0])))
  · subst hraw
    exact decrypt_faultsWith (decryptResult_c1Error hsrc
      (c1Length_badPrefix (by rwa [memRead_length]) (byteAt_memRead s _ (Nat.pos_of_ne_zero h0)) hprefix))
  have hparsed := decryptResult_parsed (d := d) (k := k) hsrc hc1 hpos hl
  refine ⟨fun hdst => decrypt_faultsWith (hparsed.trans (checkRange_out _ _ hdst)), fun hdst => ?_⟩
  rw [checkRange_in _ _ hdst] at hparsed
  have hslice : slice (s.memRead (s.aNat src) (s.aNat l)) 0 c1len = s.memRead (s.aNat src) c1len := slice_memRead s _ (by omega)
  rw [← hslice]
  refine ⟨fun c hc => decrypt_faultsWith (hparsed.trans (decryptBody_decodeError hc)), fun c1 hok => ⟨fun hk => ?_, fun hkpos hk => ?_⟩⟩
  · exact decrypt_faultsWith (hparsed.trans (decryptBody_scalarRange hok hk))
  refine ⟨fun hinf => decrypt_faultsWith (hparsed.trans (decryptBody_infinity hok hkpos hk hinf)), fun x2 y2 c2 c3 hshared hparts => ?_⟩
  obtain ⟨hc2, hc3, hlen⟩ := cipherParts_memRead hl hparts
  have hopen := hparsed.trans (decryptBody_shared hok hkpos hk hshared)
  rw [hc2, hc3] at hopen
  rw [← hlen]
  refine ⟨fun hzero => decrypt_faultsWith (hopen.trans (openCipher_kdfError hzero)), fun t ht => ⟨fun hmac => ?_, fun hmac => ?_⟩⟩
  · exact decrypt_faultsWith (hopen.trans (openCipher_macMismatch ht hmac))
  · refine decrypt_completes (hopen.trans (openCipher_macMatch ht hmac)) ?_
    rw [xorBytes_length, kdf_ok_length hash_length ht, Nat.min_self]

/-! ## DECRYPT undoes ENCRYPT (D0 §8) -/

theorem scalarMul_comm {v : Point} (hv : onCurve v = true) {j k : Nat} (hj : j < 2 ^ 256) (hk : k < 2 ^ 256) :
    scalarMul j (scalarMul k v) = scalarMul k (scalarMul j v) := by
  have := fact_p
  obtain ⟨q, hq⟩ := represents_of_onCurve hv
  have h := scalarMul_represents (scalarMul_represents hq hk) hj
  rw [smul_comm] at h
  exact represents_unique h (scalarMul_represents (scalarMul_represents hq hj) hk)

/-- An ENCRYPT that completed has left the ciphertext of an iteration that succeeded. -/
theorem encrypt_completed {o d src l q : RegIdx} {s s1 : State} (h : exec (.encrypt o d src l q) s = .next s1)
    (hcnt : s1.cmdcnt = s.cmdcnt + 1) :
    s.aNat l ≠ 0 ∧ ∃ w, encryptAttempt Config.hash s.cfg (s.point q) (s.memRead (s.aNat src) (s.aNat l)) w =
      some (s1.memRead (s.aNat d) (cipherLength s.cfg (s.aNat l))) := by
  cases hop : encryptOperands d src l q s with
  | error c =>
    obtain ⟨s', hexec, hf⟩ := encrypt_faultsWith (o := o) hop
    cases h.symm.trans hexec
    exact absurd (hf.cmdcnt.symm.trans hcnt) (ne_add_one _)
  | ok msg =>
    rcases retryLoop_cases (encryptAttempt Config.hash s.cfg (s.point q) msg) s.params.retryMax s.rng with
      ⟨j, out, -, -, hout, hloop⟩ | ⟨-, hloop⟩
    · cases h.symm.trans (execEncrypt_of_some hop hloop)
      have hlen := encryptAttempt_cipherLength hop hout
      obtain ⟨h0, -, -, -, -, rfl⟩ := encryptOperands_ok.1 hop
      exact ⟨h0, _, by rw [hout, memRead_writeCipher _ hlen]⟩
    · cases h.symm.trans (execEncrypt_of_none hop hloop)
      exact absurd hcnt (ne_add_one _)

section
variable (mode : Mode) (c1 c2 c3 : Bytes)

theorem exists_assembleCipher_eq_append : ∃ rest, assembleCipher mode c1 c2 c3 = c1 ++ rest := by
  cases mode with
  | c1c2c3 => exact ⟨c2 ++ c3, List.append_assoc c1 c2 c3⟩
  | c1c3c2 => exact ⟨c3 ++ c2, List.append_assoc c1 c3 c2⟩

theorem assembleCipher_cons (b : Byte) : assembleCipher mode (b :: c1) c2 c3 = b :: assembleCipher mode c1 c2 c3 := by
  cases mode <;> rfl

theorem slice_assembleCipher : slice (assembleCipher mode c1 c2 c3) 0 c1.length = c1 := by
  obtain ⟨rest, h⟩ := exists_assembleCipher_eq_append mode c1 c2 c3
  rw [h]
  exact slice_middle [] c1 rest

variable {c3} (h3 : c3.length = 32)
include h3

theorem assembleCipher_length : (assembleCipher mode c1 c2 c3).length = c1.length + 32 + c2.length := by
  cases mode with
  | c1c2c3 =>
    rw [assembleCipher, List.length_append, List.length_append, h3]
    omega
  | c1c3c2 => rw [assembleCipher, List.length_append, List.length_append, h3]

theorem cipherC2_assembleCipher : cipherC2 mode (assembleCipher mode c1 c2 c3) c1.length c2.length = c2 := by
  cases mode with
  | c1c2c3 => exact slice_middle c1 c2 c3
  | c1c3c2 =>
    have h := slice_middle (c1 ++ c3) c2 []
    rwa [List.append_nil, List.length_append, h3] at h

theorem cipherC3_assembleCipher : cipherC3 mode (assembleCipher mode c1 c2 c3) c1.length c2.length = c3 := by
  cases mode with
  | c1c2c3 =>
    have h := slice_middle (c1 ++ c2) c3 []
    rwa [List.append_nil, List.length_append, h3] at h
  | c1c3c2 =>
    have h := slice_middle c1 c3 c2
    rwa [h3] at h

end

/-- The first byte of an encoded point says its length (R170, R191). -/
theorem C1Length_encodePoint (x y : Nat) (form : PointForm) (rest : Bytes) :
    C1Length false (encodePoint x y form ++ rest) (encodePoint x y form).length := by
  rw [encodePoint_length]
  cases form with
  | uncompressed => exact .inr ⟨rfl, .inl ⟨_, _, by rw [encodePoint_uncompressed, List.cons_append], by decide, rfl⟩⟩
  | compressed =>
    exact .inr ⟨rfl, .inr ⟨_, _, by rw [encodePoint_compressed, List.cons_append], (parityPrefix_mem (.inl rfl)).1, rfl⟩⟩
  | hybrid =>
    exact .inr ⟨rfl, .inl ⟨_, _, by rw [encodePoint_hybrid, List.cons_append],
      List.mem_cons_of_mem _ (parityPrefix_mem (.inr rfl)).1, rfl⟩⟩

/-- DECRYPT of an assembled ciphertext: its C1 decodes to a point, the scalar times it is the shared point, and the MAC is C3. -/
theorem decryptResult_assembled {d src l k : RegIdx} {raw : Bool} {s : State} {c1 c2 c3 t : Bytes} {p1 : Point} {x2 y2 : Nat}
    (hsrc : s.aNat src + s.aNat l ≤ s.params.bufsz) (hdst : s.aNat d + c2.length ≤ s.params.bufsz)
    (hread : s.memRead (s.aNat src) (s.aNat l) = assembleCipher s.cfg.mode c1 c2 c3) (h3 : c3.length = 32) (h2 : 1 ≤ c2.length)
    (hc1 : C1Length raw (assembleCipher s.cfg.mode c1 c2 c3) c1.length) (hdecode : decodePoint c1 = .ok p1)
    (hpos : 1 ≤ s.rNat k) (hk : s.rNat k < Config.n) (hshared : scalarMul (s.rNat k) p1 = .affine x2 y2)
    (ht : kdf Config.hash (sharedBytes x2 y2) c2.length = .ok t) (hmac : macOf Config.hash x2 y2 (xorBytes c2 t) = c3) :
    decryptResult Config.hash d src l k raw s = .ok (xorBytes c2 t) := by
  have hl : s.aNat l = c1.length + 32 + c2.length := by
    rw [← assembleCipher_length s.cfg.mode c1 c2 h3, ← hread, memRead_length]
  have hslice : decodePoint (slice (s.memRead (s.aNat src) (s.aNat l)) 0 c1.length) = .ok p1 := by
    rw [hread, slice_assembleCipher, hdecode]
  rw [← hread] at hc1
  rw [decryptResult_parsed hsrc hc1 h2 hl, checkRange_in _ _ hdst, decryptBody_shared hslice hpos hk hshared, hread,
    cipherC2_assembleCipher _ _ _ h3, cipherC3_assembleCipher _ _ _ h3, openCipher_macMatch ht hmac]

/-- The C1 that DECRYPT meets: the encoded point, or under RAW64 an uncompressed one without its first byte. -/
theorem exists_c1_of_ciphertext {mode : Mode} {x1 y1 : Nat} {form : PointForm} {c c2 c3 : Bytes} {raw : Bool}
    (hon : onCurve (.affine x1 y1) = true)
    (h : raw = false ∧ c = assembleCipher mode (encodePoint x1 y1 form) c2 c3 ∨
      raw = true ∧ form = .uncompressed ∧ 0x04#8 :: c = assembleCipher mode (encodePoint x1 y1 form) c2 c3) :
    ∃ c1, c = assembleCipher mode c1 c2 c3 ∧ C1Length raw c c1.length ∧ decodePoint c1 = .ok (.affine x1 y1) := by
  rcases h with ⟨rfl, rfl⟩ | ⟨rfl, rfl, hc⟩
  · obtain ⟨rest, happend⟩ := exists_assembleCipher_eq_append mode (encodePoint x1 y1 form) c2 c3
    exact ⟨_, rfl, happend ▸ C1Length_encodePoint x1 y1 form rest, decodePoint_encodePoint form hon⟩
  · rw [encodePoint_uncompressed, assembleCipher_cons] at hc
    have hlen : (i2os x1 32 ++ i2os y1 32).length = 64 := by rw [List.length_append, i2os_length, i2os_length]
    refine ⟨_, (List.cons.inj hc).2, .inl ⟨rfl, hlen⟩, ?_⟩
    rw [decodePoint_prefixless hlen, ← encodePoint_uncompressed, decodePoint_encodePoint _ hon]

/-- Settles O54: both sides compute one shared point, `k*(x*G) = x*(k*G)`, so the key stream and the MAC agree. -/
theorem decryptInvertsEncrypt : Obligations.DecryptInvertsEncrypt := by
  unfold Obligations.DecryptInvertsEncrypt
  intro o d src l q o' d' src' l' k s s1 s2 x raw hxpos hx hq hexec hcnt hmode hk hsrc hdst hbytes
  obtain ⟨h0, w, hout⟩ := encrypt_completed hexec hcnt
  obtain ⟨hwpos, hw, x1, y1, x2, y2, t, hc1, hon, hshared, ht, hcipher⟩ := encryptAttempt_some hout
  rw [hcipher] at hbytes
  rw [memRead_length] at ht
  have htlen := kdf_ok_length hash_length ht
  have hc2 : (xorBytes (s.memRead (s.aNat src) (s.aNat l)) t).length = s.aNat l := by
    rw [xorBytes_length, memRead_length, htlen, Nat.min_self]
  have hcancel : xorBytes (xorBytes (s.memRead (s.aNat src) (s.aNat l)) t) t = s.memRead (s.aNat src) (s.aNat l) :=
    xorBytes_cancel (by rw [memRead_length, htlen])
  have hpoint : scalarMul (s2.rNat k) (.affine x1 y1) = .affine x2 y2 := by
    rw [hk, ← hc1, scalarMul_comm generator_onCurve (hx.trans n_lt_two_pow) (hw.trans n_lt_two_pow), ← hq, hshared]
  obtain ⟨c1, hread, hc1len, hdecode⟩ := exists_c1_of_ciphertext hon hbytes
  rw [hread] at hc1len
  rw [← hmode] at hread hc1len
  have hresult := decryptResult_assembled hsrc (hc2.symm ▸ hdst) hread (hash_length _) (by omega) hc1len hdecode (by omega)
    (by omega) hpoint (hc2.symm ▸ ht) (by rw [hcancel])
  rw [hcancel] at hresult
  obtain ⟨s3, hexec3, hcompleted, hplain, ho⟩ := decrypt_completes (o := o') hresult (memRead_length _ _ _)
  refine ⟨s3, hexec3, hcompleted, hplain, ho.trans ?_⟩
  rw [State.aNat, BitVec.ofNat_toNat, BitVec.setWidth_eq]

end Sys2Proof.Machine

/-! PROOFS. Signature encodings (R204, R205): which contents a DER INTEGER has, the parser by the string it looks at, and that it
accepts exactly the encodings. -/

namespace Sys2Proof.Machine

/-! ## The contents of a DER INTEGER -/

theorem two_pow_263 : 2 ^ 263 = 128 * 256 ^ 32 := by
  rw [show 263 = 7 + 8 * 32 from rfl, pow_add, pow_mul, show 2 ^ 7 = 128 from rfl, show 2 ^ 8 = 256 from rfl]

theorem two_pow_256_lt : 2 ^ 256 < 2 ^ 263 := by
  gcongr <;> decide

/-- At most 33 bytes and not negative: below 2^263 (log 22). -/
theorem DerContents.lt {v : Nat} {c : Bytes} (h : DerContents v c) : v < 2 ^ 263 := by
  obtain ⟨rfl, hpos, hshort, hsign, -⟩ := h
  cases c with
  | nil => exact absurd hpos (by decide)
  | cons b rest =>
    rw [byteAt_cons_zero] at hsign
    rw [List.length_cons] at hshort
    have hpow : 256 ^ rest.length ≤ 256 ^ 32 := Nat.pow_le_pow_right (by decide) (by omega)
    calc os2i (b :: rest) = b.toNat * 256 ^ rest.length + os2i rest := os2i_cons b rest
      _ < 128 * 256 ^ rest.length := by nlinarith [os2i_lt rest]
      _ ≤ 2 ^ 263 := two_pow_263 ▸ Nat.mul_le_mul_left 128 hpow

/-- There is one string of contents for each number. -/
theorem DerContents.eq {v : Nat} {c : Bytes} (h : DerContents v c) : c = derContents v := by
  obtain ⟨rfl, hpos, -, hsign, hminimal⟩ := h
  refine (derContents_unique hpos hsign ?_).symm
  rintro ⟨hlen, h0, h1⟩
  exact absurd h1 (Nat.not_lt.2 (hminimal hlen h0))

/-- A longer minimal string has a value from 2^263 on. -/
theorem derContents_length_le {v : Nat} (hv : v < 2 ^ 263) : (derContents v).length ≤ 33 := by
  obtain ⟨hval, -, -, hminimal, -⟩ := derContents_spec v
  by_contra hlong
  generalize derContents v = c at hval hminimal hlong
  subst hval
  match c with
  | [] | [_] => exact hlong (by simp)
  | b :: b' :: rest =>
    simp only [List.length_cons] at hlong hminimal
    have hpow : 256 ^ 32 ≤ 256 ^ rest.length := Nat.pow_le_pow_right (by decide) (by omega)
    have hb' : byteAt (b :: b' :: rest) 1 = b'.toNat := rfl
    rw [byteAt_cons_zero, hb'] at hminimal
    rw [os2i_cons, os2i_cons, List.length_cons, pow_succ, two_pow_263] at hv
    have hbytes : 1 ≤ b.toNat ∨ 128 ≤ b'.toNat := by omega
    generalize 256 ^ 32 = D at hv hpow
    generalize 256 ^ rest.length = E at hv hpow
    rcases hbytes with h | h
    · have := Nat.mul_le_mul_right (E * 256) h
      omega
    · have := Nat.mul_le_mul_right E h
      omega

theorem derContents_iff {v : Nat} {c : Bytes} : DerContents v c ↔ c = derContents v ∧ v < 2 ^ 263 := by
  constructor
  · exact fun h => ⟨h.eq, h.lt⟩
  · rintro ⟨rfl, hv⟩
    obtain ⟨hval, hpos, hsign, hminimal, -⟩ := derContents_spec v
    exact ⟨hval, hpos, derContents_length_le hv, hsign, fun hlen h0 => Nat.not_lt.1 fun h1 => hminimal ⟨hlen, h0, h1⟩⟩

/-! ## The INTEGER a string begins with (R205) -/

theorem slice_append_right (a b : Bytes) (p n : Nat) : slice (a ++ b) (a.length + p) n = slice b p n := by
  rw [slice, slice, List.drop_append, List.drop_eq_nil_of_le (by omega), List.nil_append, Nat.add_sub_cancel_left]

theorem byteAt_slice (bs : Bytes) (p : Nat) {n i : Nat} (h : i < n) : byteAt (slice bs p n) i = byteAt bs (p + i) := by
  simp only [byteAt, slice, List.getD_eq_getElem?_getD, List.getElem?_take_of_lt h, List.getElem?_drop]

/-- What `parseDerInt` answers at the beginning of a string: the value alone. -/
def parseLeadingInt (bs : Bytes) : Except FaultCode Nat :=
  if bs.length < 2 ∨ byteAt bs 0 ≠ 0x02 then .error .badDer
  else if byteAt bs 1 = 0 ∨ 0x80 ≤ byteAt bs 1 ∨ bs.length < 2 + byteAt bs 1 then .error .badDer
  else if 0x80 ≤ byteAt bs 2 then .error .intNegative
  else if 1 < byteAt bs 1 ∧ byteAt bs 2 = 0x00 ∧ byteAt bs 3 < 0x80 then .error .intNonminimal
  else if 33 < byteAt bs 1 then .error .intTooLong
  else .ok (os2i (slice bs 2 (byteAt bs 1)))

/-- The parser at a position looks at the string from there on alone. -/
theorem parseDerInt_append (pre bs : Bytes) :
    parseDerInt (pre ++ bs) pre.length = (parseLeadingInt bs).map fun v => (v, pre.length + 2 + byteAt bs 1) := by
  have h0 : byteAt (pre ++ bs) pre.length = byteAt bs 0 := byteAt_append_right pre bs 0
  simp only [parseDerInt, parseLeadingInt, h0, byteAt_append_right, Nat.add_assoc, slice_append_right, List.length_append,
    gt_iff_lt, ge_iff_le, Nat.add_lt_add_iff_left]
  by_cases h1 : bs.length < 2 ∨ byteAt bs 0 ≠ 0x02
  · rw [if_pos h1, if_pos h1]
    rfl
  rw [if_neg h1, if_neg h1]
  by_cases h2 : byteAt bs 1 = 0 ∨ 0x80 ≤ byteAt bs 1 ∨ bs.length < 2 + byteAt bs 1
  · rw [if_pos h2, if_pos h2]
    rfl
  rw [if_neg h2, if_neg h2, byteAt_slice bs 2 (by omega : 0 < byteAt bs 1)]
  by_cases h3 : 0x80 ≤ byteAt bs 2
  · rw [if_pos h3, if_pos h3]
    rfl
  rw [if_neg h3, if_neg h3]
  have h4 : (1 < byteAt bs 1 ∧ byteAt bs (2 + 0) = 0 ∧ byteAt (slice bs 2 (byteAt bs 1)) 1 < 0x80) ↔
      (1 < byteAt bs 1 ∧ byteAt bs 2 = 0 ∧ byteAt bs 3 < 0x80) := and_congr_right fun h => by rw [byteAt_slice bs 2 h]
  simp only [h4]
  split
  · rfl
  · split <;> rfl

/-- The string begins with an INTEGER of these contents. -/
theorem parseLeadingInt_contents {v : Nat} {c : Bytes} (rest : Bytes) (h : DerContents v c) :
    parseLeadingInt (0x02#8 :: BitVec.ofNat 8 c.length :: (c ++ rest)) = .ok v := by
  obtain ⟨rfl, hpos, hshort, hsign, hminimal⟩ := h
  have h1 : byteAt (0x02#8 :: BitVec.ofNat 8 c.length :: (c ++ rest)) 1 = c.length := by
    rw [show byteAt (0x02#8 :: BitVec.ofNat 8 c.length :: (c ++ rest)) 1 = (BitVec.ofNat 8 c.length).toNat from rfl,
      BitVec.toNat_ofNat, Nat.mod_eq_of_lt (by omega)]
  have h2 : byteAt (0x02#8 :: BitVec.ofNat 8 c.length :: (c ++ rest)) 2 = byteAt c 0 := byteAt_append_left rest hpos
  have h3 : 1 < c.length → byteAt (0x02#8 :: BitVec.ofNat 8 c.length :: (c ++ rest)) 3 = byteAt c 1 := byteAt_append_left rest
  have hslice : slice (0x02#8 :: BitVec.ofNat 8 c.length :: (c ++ rest)) 2 c.length = c :=
    slice_middle [0x02#8, BitVec.ofNat 8 c.length] c rest
  have hminimal' : ¬(1 < c.length ∧ byteAt c 0 = 0 ∧ byteAt (0x02#8 :: BitVec.ofNat 8 c.length :: (c ++ rest)) 3 < 0x80) := by
    rintro ⟨hlen, h0, hlt⟩
    exact absurd (hminimal hlen h0) (Nat.not_le.2 (h3 hlen ▸ hlt))
  have hlen : (0x02#8 :: BitVec.ofNat 8 c.length :: (c ++ rest)).length = c.length + rest.length + 2 := by
    simp only [List.length_cons, List.length_append]
  have h0 : byteAt (0x02#8 :: BitVec.ofNat 8 c.length :: (c ++ rest)) 0 = 0x02 := rfl
  rw [parseLeadingInt, h0, h1, h2, hslice, hlen, if_neg (by omega), if_neg (by omega), if_neg (by omega), if_neg hminimal',
    if_neg (by omega)]

/-- The tag, the length byte, the contents and what follows them. -/
theorem leadingInt_split {bs : Bytes} (hlen : 2 ≤ bs.length) (htag : byteAt bs 0 = 0x02) :
    bs = 0x02#8 :: BitVec.ofNat 8 (byteAt bs 1) :: (slice bs 2 (byteAt bs 1) ++ bs.drop (2 + byteAt bs 1)) := by
  match bs with
  | [] | [_] => exact absurd hlen (by simp)
  | b0 :: b1 :: tail =>
    obtain rfl : b0 = 0x02#8 := BitVec.eq_of_toNat_eq htag
    have h1 : byteAt (0x02#8 :: b1 :: tail) 1 = b1.toNat := rfl
    rw [h1, BitVec.ofNat_toNat, BitVec.setWidth_eq, ← List.drop_drop]
    exact congrArg _ (congrArg _ (List.take_append_drop _ _).symm)

/-- Where the parser answers a value, the string begins with its contents. -/
theorem contents_of_parseLeadingInt {bs : Bytes} {v : Nat} (h : parseLeadingInt bs = .ok v) :
    ∃ c rest, bs = 0x02#8 :: BitVec.ofNat 8 c.length :: (c ++ rest) ∧ DerContents v c := by
  unfold parseLeadingInt at h
  by_cases h1 : bs.length < 2 ∨ byteAt bs 0 ≠ 0x02
  · rw [if_pos h1] at h
    cases h
  rw [if_neg h1] at h
  by_cases h2 : byteAt bs 1 = 0 ∨ 0x80 ≤ byteAt bs 1 ∨ bs.length < 2 + byteAt bs 1
  · rw [if_pos h2] at h
    cases h
  rw [if_neg h2] at h
  by_cases h3 : 0x80 ≤ byteAt bs 2
  · rw [if_pos h3] at h
    cases h
  rw [if_neg h3] at h
  by_cases h4 : 1 < byteAt bs 1 ∧ byteAt bs 2 = 0x00 ∧ byteAt bs 3 < 0x80
  · rw [if_pos h4] at h
    cases h
  rw [if_neg h4] at h
  by_cases h5 : 33 < byteAt bs 1
  · rw [if_pos h5] at h
    cases h
  rw [if_neg h5] at h
  cases h
  have hlen : (slice bs 2 (byteAt bs 1)).length = byteAt bs 1 := slice_length (by omega)
  refine ⟨slice bs 2 (byteAt bs 1), bs.drop (2 + byteAt bs 1), ?_, rfl, by omega, by omega, ?_, fun hl h0 => ?_⟩
  · rw [hlen]
    exact leadingInt_split (by omega) (by omega)
  · rw [byteAt_slice bs 2 (by omega : 0 < byteAt bs 1), Nat.add_zero]
    omega
  · rw [hlen] at hl
    rw [byteAt_slice bs 2 (by omega : 0 < byteAt bs 1), Nat.add_zero] at h0
    rw [byteAt_slice bs 2 (by omega : 1 < byteAt bs 1)]
    show 0x80 ≤ byteAt bs 3
    omega

/-- A fault of the leading INTEGER is what the parser finds first. -/
theorem parseLeadingInt_fault {bs : Bytes} {c : FaultCode} (h : DerIntFault bs c) : parseLeadingInt bs = .error c := by
  unfold parseLeadingInt
  rcases h with ⟨hbad, rfl⟩ | ⟨htag, hpos, hlow, hlen, h⟩
  · by_cases h1 : bs.length < 2 ∨ byteAt bs 0 ≠ 0x02
    · rw [if_pos h1]
    · rw [if_neg h1, if_pos (by omega)]
  · rw [if_neg (by omega), if_neg (by omega)]
    rcases h with ⟨hneg, rfl⟩ | ⟨hmany, h0, hmin, rfl⟩ | ⟨hsign, hmin, hlong, rfl⟩
    · rw [if_pos hneg]
    · rw [if_neg (by omega), if_pos ⟨hmany, h0, hmin⟩]
    · rw [if_neg (by omega), if_neg (by omega), if_pos hlong]

/-! ## The SEQUENCE (R205) -/

/-- The length byte of a short body. -/
theorem toNat_ofNat_length {body : Bytes} (h : body.length < 0x80) : (BitVec.ofNat 8 body.length).toNat = body.length :=
  (BitVec.toNat_ofNat _ _).trans (Nat.mod_eq_of_lt (by omega))

theorem parseDer_header_fault {bs : Bytes}
    (h : bs.length < 2 ∨ byteAt bs 0 ≠ 0x30 ∨ 0x80 ≤ byteAt bs 1 ∨ byteAt bs 1 ≠ bs.length - 2) : parseDer bs = .error .badDer :=
  if_pos h

/-- A string with a good header is the SEQUENCE of its body. -/
theorem exists_body_of_header {bs : Bytes}
    (h : ¬(bs.length < 2 ∨ byteAt bs 0 ≠ 0x30 ∨ 0x80 ≤ byteAt bs 1 ∨ byteAt bs 1 ≠ bs.length - 2)) :
    ∃ body, bs = 0x30#8 :: BitVec.ofNat 8 body.length :: body ∧ body.length < 0x80 := by
  match bs with
  | [] | [_] => exact absurd (.inl (by simp)) h
  | b0 :: b1 :: body =>
    have hb1 : byteAt (b0 :: b1 :: body) 1 = b1.toNat := rfl
    rw [byteAt_cons_zero, hb1] at h
    simp only [List.length_cons] at h
    have h0 : b0 = 0x30#8 := BitVec.eq_of_toNat_eq (by rw [show (0x30#8).toNat = 0x30 from rfl]; omega)
    have hlen : body.length < 0x80 := by omega
    have h1 : b1 = BitVec.ofNat 8 body.length := BitVec.eq_of_toNat_eq (by rw [toNat_ofNat_length hlen]; omega)
    exact ⟨body, by rw [h0, h1], hlen⟩

section
variable {body : Bytes} (hbody : body.length < 0x80)
include hbody

theorem parseDer_body : parseDer (0x30#8 :: BitVec.ofNat 8 body.length :: body) =
    match parseDerInt (0x30#8 :: BitVec.ofNat 8 body.length :: body) 2 with
    | .error c => .error c
    | .ok (r, pos) =>
      match parseDerInt (0x30#8 :: BitVec.ofNat 8 body.length :: body) pos with
      | .error c => .error c
      | .ok (s, pos') => if pos' ≠ body.length + 2 then .error .badDer else .ok (r, s) := by
  have h1 : byteAt (0x30#8 :: BitVec.ofNat 8 body.length :: body) 1 = body.length := toNat_ofNat_length hbody
  have h0 : byteAt (0x30#8 :: BitVec.ofNat 8 body.length :: body) 0 = 0x30 := rfl
  refine if_neg ?_
  rw [h0, h1, List.length_cons, List.length_cons]
  omega

/-- A fault of the first INTEGER. -/
theorem parseDer_first_fault {c : FaultCode} (h : parseLeadingInt body = .error c) :
    parseDer (0x30#8 :: BitVec.ofNat 8 body.length :: body) = .error c := by
  have hint := parseDerInt_append [0x30#8, BitVec.ofNat 8 body.length] body
  rw [h] at hint
  rw [parseDer_body hbody, show parseDerInt (0x30#8 :: BitVec.ofNat 8 body.length :: body) 2 = .error c from hint]

end

section
variable {r : Nat} {vr rest : Bytes} (hr : DerContents r vr)
include hr

/-- Behind the header stands the first INTEGER. -/
theorem parseDerInt_first (L : Byte) :
    parseDerInt (0x30#8 :: L :: 0x02#8 :: BitVec.ofNat 8 vr.length :: (vr ++ rest)) 2 = .ok (r, vr.length + 4) := by
  have hshort := hr.short
  have hlen : byteAt (0x02#8 :: BitVec.ofNat 8 vr.length :: (vr ++ rest)) 1 = vr.length := toNat_ofNat_length (by omega)
  have h := parseDerInt_append [0x30#8, L] (0x02#8 :: BitVec.ofNat 8 vr.length :: (vr ++ rest))
  rw [parseLeadingInt_contents rest hr, hlen] at h
  rw [Nat.add_comm vr.length 4]
  exact h

/-- The SEQUENCE of a good first INTEGER and whatever follows: the second INTEGER, then the end. -/
theorem parseDer_second (hlen : 2 + vr.length + rest.length < 0x80) :
    parseDer (0x30#8 :: BitVec.ofNat 8 (2 + vr.length + rest.length) :: 0x02#8 :: BitVec.ofNat 8 vr.length :: (vr ++ rest)) =
      (parseLeadingInt rest).bind fun v => if 2 + byteAt rest 1 = rest.length then .ok (r, v) else .error .badDer := by
  have hbody : (0x02#8 :: BitVec.ofNat 8 vr.length :: (vr ++ rest)).length = 2 + vr.length + rest.length := by
    simp only [List.length_cons, List.length_append]
    omega
  have hseq := parseDer_body (hbody ▸ hlen)
  have hsecond : parseDerInt
      (0x30#8 :: BitVec.ofNat 8 (2 + vr.length + rest.length) :: 0x02#8 :: BitVec.ofNat 8 vr.length :: (vr ++ rest)) (vr.length + 4) =
      (parseLeadingInt rest).map fun v => (v, vr.length + 4 + 2 + byteAt rest 1) :=
    parseDerInt_append (0x30#8 :: BitVec.ofNat 8 (2 + vr.length + rest.length) :: 0x02#8 :: BitVec.ofNat 8 vr.length :: vr) rest
  rw [hbody, parseDerInt_first hr] at hseq
  dsimp only at hseq
  rw [hsecond] at hseq
  rw [hseq]
  cases parseLeadingInt rest with
  | error c => rfl
  | ok v =>
    by_cases hend : 2 + byteAt rest 1 = rest.length
    · exact (if_neg (by omega)).trans (if_pos hend).symm
    · exact (if_pos (by omega)).trans (if_neg hend).symm

/-- Two good INTEGERs and whatever follows: nothing may. -/
theorem parseDer_two {s : Nat} {vs : Bytes} (hs : DerContents s vs)
    (hlen : 2 + vr.length + (2 + vs.length) + rest.length < 0x80) :
    parseDer (0x30#8 :: BitVec.ofNat 8 (2 + vr.length + (2 + vs.length) + rest.length) :: 0x02#8 :: BitVec.ofNat 8 vr.length ::
      (vr ++ (0x02#8 :: BitVec.ofNat 8 vs.length :: (vs ++ rest)))) =
      if rest = [] then .ok (r, s) else .error .badDer := by
  have hsecond : (0x02#8 :: BitVec.ofNat 8 vs.length :: (vs ++ rest)).length = 2 + vs.length + rest.length := by
    simp only [List.length_cons, List.length_append]
    omega
  have hvs : byteAt (0x02#8 :: BitVec.ofNat 8 vs.length :: (vs ++ rest)) 1 = vs.length := toNat_ofNat_length (by omega)
  have h := parseDer_second hr (rest := 0x02#8 :: BitVec.ofNat 8 vs.length :: (vs ++ rest)) (by omega)
  rw [hsecond, parseLeadingInt_contents rest hs, hvs, ← Nat.add_assoc (2 + vr.length)] at h
  refine h.trans (if_congr ?_ rfl rfl)
  rw [← List.length_eq_zero_iff]
  omega

end

/-! ## O58 -/

/-- The encoding written with the contents of its INTEGERs, nothing behind them. -/
theorem encodeSig_der {r s : Nat} {vr vs : Bytes} (hr : DerContents r vr) (hs : DerContents s vs) :
    encodeSig r s .der = 0x30#8 :: BitVec.ofNat 8 (2 + vr.length + (2 + vs.length)) :: 0x02#8 :: BitVec.ofNat 8 vr.length ::
      (vr ++ (0x02#8 :: BitVec.ofNat 8 vs.length :: (vs ++ []))) := by
  have hlength : ∀ c : Bytes, ([0x02#8, BitVec.ofNat 8 c.length] ++ c).length = 2 + c.length := fun c => by
    rw [List.length_append]
    rfl
  rw [encodeSig, derInt, derInt, ← hr.eq, ← hs.eq, hlength, hlength, List.append_nil]
  rfl

/-- The DER parser accepts the encoding of a pair that has one. -/
theorem parseDer_encodeSig {r s : Nat} (hr : r < 2 ^ 263) (hs : s < 2 ^ 263) : parseDer (encodeSig r s .der) = .ok (r, s) := by
  have hcr := derContents_iff.2 ⟨rfl, hr⟩
  have hcs := derContents_iff.2 ⟨rfl, hs⟩
  have hshort := hcr.short
  have hshort' := hcs.short
  rw [encodeSig_der hcr hcs]
  exact (parseDer_two hcr (rest := []) hcs (by rw [List.length_nil]; omega)).trans (if_pos rfl)

/-- The DER parser accepts nothing else. -/
theorem eq_encodeSig_of_parseDer {bs : Bytes} {r s : Nat} (h : parseDer bs = .ok (r, s)) :
    bs = encodeSig r s .der ∧ r < 2 ^ 263 ∧ s < 2 ^ 263 := by
  by_cases hheader : bs.length < 2 ∨ byteAt bs 0 ≠ 0x30 ∨ 0x80 ≤ byteAt bs 1 ∨ byteAt bs 1 ≠ bs.length - 2
  · rw [parseDer_header_fault hheader] at h
    cases h
  obtain ⟨body, rfl, hbody⟩ := exists_body_of_header hheader
  cases hfirst : parseLeadingInt body with
  | error c =>
    rw [parseDer_first_fault hbody hfirst] at h
    cases h
  | ok r' =>
    obtain ⟨vr, rest, rfl, hr⟩ := contents_of_parseLeadingInt hfirst
    have hlen : (0x02#8 :: BitVec.ofNat 8 vr.length :: (vr ++ rest)).length = 2 + vr.length + rest.length := by
      simp only [List.length_cons, List.length_append]
      omega
    rw [hlen] at h hbody ⊢
    rw [parseDer_second hr hbody] at h
    cases hsecond : parseLeadingInt rest with
    | error c =>
      rw [hsecond] at h
      cases h
    | ok s' =>
      obtain ⟨vs, rest', rfl, hs⟩ := contents_of_parseLeadingInt hsecond
      have hlen' : (0x02#8 :: BitVec.ofNat 8 vs.length :: (vs ++ rest')).length = 2 + vs.length + rest'.length := by
        simp only [List.length_cons, List.length_append]
        omega
      rw [← parseDer_second hr hbody, hlen', ← Nat.add_assoc] at h
      rw [hlen', ← Nat.add_assoc] at hbody ⊢
      rw [parseDer_two hr hs hbody] at h
      by_cases hend : rest' = []
      · rw [if_pos hend] at h
        cases h
        subst hend
        exact ⟨(encodeSig_der hr hs).symm, hr.lt, hs.lt⟩
      · rw [if_neg hend] at h
        cases h

theorem parsePlain_encodeSig {r s : Nat} (hr : r < 2 ^ 256) (hs : s < 2 ^ 256) : parsePlain (encodeSig r s .plain) = .ok (r, s) := by
  have hlen : (encodeSig r s .plain).length = 64 := by simp only [encodeSig, List.length_append, i2os_length]
  have hr' : slice (encodeSig r s .plain) 0 32 = i2os r 32 := List.take_left' (i2os_length r 32)
  have hs' : slice (encodeSig r s .plain) 32 32 = i2os s 32 := by
    rw [slice, encodeSig, List.drop_left' (i2os_length r 32), List.take_of_length_le (i2os_length s 32).le]
  have hpow : 2 ^ 256 = 256 ^ 32 := pow_mul 2 8 32
  rw [parsePlain, hlen, if_neg (not_not.2 rfl), hr', hs', os2i_i2os_of_lt (hpow ▸ hr), os2i_i2os_of_lt (hpow ▸ hs)]

theorem eq_encodeSig_of_parsePlain {bs : Bytes} {r s : Nat} (h : parsePlain bs = .ok (r, s)) :
    bs = encodeSig r s .plain ∧ r < 2 ^ 256 ∧ s < 2 ^ 256 := by
  unfold parsePlain at h
  by_cases hlen : bs.length = 64
  · rw [if_neg (not_not.2 hlen)] at h
    cases h
    have hr : (slice bs 0 32).length = 32 := slice_length (by omega)
    have hs : (slice bs 32 32).length = 32 := slice_length (by omega)
    have hpow : 2 ^ 256 = 256 ^ 32 := pow_mul 2 8 32
    have hr' := os2i_lt (slice bs 0 32)
    have hs' := os2i_lt (slice bs 32 32)
    rw [hr, ← hpow] at hr'
    rw [hs, ← hpow] at hs'
    refine ⟨?_, hr', hs'⟩
    have hbytes := i2os_os2i (slice bs 0 32)
    have hbytes' := i2os_os2i (slice bs 32 32)
    rw [hr] at hbytes
    rw [hs] at hbytes'
    rw [encodeSig, hbytes, hbytes', ← slice_append bs 0 32 32]
    exact (List.take_of_length_le hlen.le).symm
  · rw [if_pos hlen] at h
    cases h

/-- Both parsers accept what the pair's own encoding is. -/
theorem parseSig_encodeSig {r s : Nat} (hr : r < 2 ^ 256) (hs : s < 2 ^ 256) (enc : SigEnc) :
    parseSig (encodeSig r s enc) enc = .ok (r, s) := by
  cases enc with
  | plain => exact parsePlain_encodeSig hr hs
  | der => exact parseDer_encodeSig (hr.trans two_pow_256_lt) (hs.trans two_pow_256_lt)

/-- Settles O58: the DER contents are determined by their value; both parsers accept the encodings alone. -/
theorem signatureCodec : Obligations.SignatureCodec := by
  unfold Obligations.SignatureCodec
  refine ⟨fun r s => rfl, fun r s _ hr _ hs => ?_,
    fun bs r s => ⟨eq_encodeSig_of_parsePlain, fun ⟨hbs, hr, hs⟩ => hbs ▸ parsePlain_encodeSig hr hs⟩,
    fun bs r s => ⟨eq_encodeSig_of_parseDer, fun ⟨hbs, hr, hs⟩ => hbs ▸ parseDer_encodeSig hr hs⟩⟩
  have hn : Config.n < 2 ^ 263 := n_lt_two_pow.trans two_pow_256_lt
  have hcr := derContents_iff.2 ⟨rfl, hr.trans hn⟩
  have hcs := derContents_iff.2 ⟨rfl, hs.trans hn⟩
  have hder := encodeSig_der hcr hcs
  refine ⟨by simp only [encodeSig, List.length_append, i2os_length], ?_, encodeSig_length_le hr hs .der, _, _, hcr, hcs, ?_⟩
  · have hr1 := hcr.notEmpty
    have hs1 := hcs.notEmpty
    rw [hder]
    simp only [List.length_cons, List.length_append]
    omega
  · rw [hder, List.append_nil]
    rfl

/-! ## O59 -/

/-- Settles O59: each clause is the first test of R205 that its string fails. -/
theorem signatureFaults : Obligations.SignatureFaults := by
  unfold Obligations.SignatureFaults
  refine ⟨fun bs h => if_pos h, fun bs h => parseDer_header_fault h,
    fun body c hbody h => parseDer_first_fault hbody (parseLeadingInt_fault h), fun r v rest c hr hlen h => ?_,
    fun r s vr vs rest hr hs hrest hlen => ?_⟩
  · exact (parseDer_second hr hlen).trans (by rw [parseLeadingInt_fault h]; rfl)
  · exact (parseDer_two hr hs hlen).trans (if_neg hrest)

end Sys2Proof.Machine

/-! PROOFS. SIGN (R201): the signature equation of an iteration that succeeds, and that VERIFY accepts its pair (R203). -/

namespace Sys2Proof.Machine

/-! ## The signature equation -/

/-- The pair (r, sg) is what R201 computes for the scalar `d`, the digest `e` and the word `k`. -/
structure SignatureOf (d e k r sg : Nat) : Prop where
  wordPos : 1 ≤ k
  wordLt : k < Config.n
  rEq : r = signR e k
  rPos : 1 ≤ r
  sumNe : r + k ≠ Config.n
  sgPos : 1 ≤ sg
  sgLt : sg < Config.n
  equation : ((sg : Int) * (1 + d)) % Config.n = ((k : Int) - r * d) % Config.n

theorem SignatureOf.rLt {d e k r sg : Nat} (h : SignatureOf d e k r sg) : r < Config.n :=
  h.rEq ▸ Nat.mod_lt _ n_pos

/-- What an iteration that succeeds has computed. -/
theorem signAttempt_some {d e r sg : Nat} {w : Word256} (hd : d < Config.n - 1)
    (h : signAttempt d e (inv ((1 + d) % Config.n) Config.n) w = some (r, sg)) : SignatureOf d e w.toNat r sg := by
  have hrange := signAttempt_range h
  unfold signAttempt at h
  dsimp only at h
  split at h
  · cases h
  next hk =>
    split at h
    · cases h
    next hr =>
      split at h
      · cases h
      next hsg =>
        cases h
        obtain ⟨hr0, hsum⟩ := not_or.1 hr
        exact ⟨by omega, by omega, rfl, Nat.pos_of_ne_zero hr0, hsum, Nat.pos_of_ne_zero hsg, hrange.2, signS_spec hd⟩

/-! ## SIGN -/

section
variable {o dst src l k : RegIdx} {s : State}

/-- The digest SIGN signs, for the message `msg`. -/
def State.signedDigest (s : State) (k : RegIdx) (msg : Bytes) : Nat := signDigest Config.hash s.userId (s.rNat k) msg

/-- An iteration of SIGN in the state `s`. -/
def State.signAttempt (s : State) (k : RegIdx) (msg : Bytes) : Word256 → Option (Nat × Nat) :=
  Machine.signAttempt (s.rNat k) (s.signedDigest k msg) (inv ((1 + s.rNat k) % Config.n) Config.n)

/-- The state SIGN leaves with a signature, `g` being the port after its draws. -/
def State.writeSignature (s : State) (o dst : RegIdx) (sig : Bytes) (g : Rng) : State :=
  (((s.withRng g).memWrite (s.aNat dst) sig).writeA o (BitVec.ofNat 32 sig.length)).complete

theorem sign_faultsWith {c : FaultCode} (h : signOperands dst src l k s = .error c) : FaultsWith (.sign o dst src l k) s c := by
  have hexec : execSign o dst src l k s = .next (s.raise c) := by simp only [execSign, h]
  exact ⟨_, hexec, faulted_raise _ s c⟩

section
variable {msg : Bytes} (hop : signOperands dst src l k s = .ok msg)
include hop

theorem execSign_of_some {r sg : Nat} {g : Rng}
    (h : retryLoop (s.signAttempt k msg) s.params.retryMax s.rng = (some (r, sg), g)) :
    execSign o dst src l k s = .next (s.writeSignature o dst (encodeSig r sg s.cfg.sigenc) g) := by
  unfold State.signAttempt State.signedDigest at h
  simp only [execSign, hop, h, State.writeSignature]

theorem execSign_of_none {g : Rng} (h : retryLoop (s.signAttempt k msg) s.params.retryMax s.rng = (none, g)) :
    execSign o dst src l k s = .next ((s.withRng g).raise .retryExhausted) := by
  unfold State.signAttempt State.signedDigest at h
  simp only [execSign, hop, h]

theorem scalar_lt_of_signOperands : s.rNat k < Config.n - 1 := by
  obtain ⟨-, -, -, hk, hne, -⟩ := signOperands_ok.1 hop
  omega

theorem signatureOf_of_signAttempt {r sg : Nat} {w : Word256} (h : s.signAttempt k msg w = some (r, sg)) :
    SignatureOf (s.rNat k) (s.signedDigest k msg) w.toNat r sg := signAttempt_some (scalar_lt_of_signOperands hop) h

theorem signAttempt_eq_none_iff {w : Word256} :
    s.signAttempt k msg w = none ↔ SignWordFails (s.rNat k) (s.signedDigest k msg) w.toNat :=
  signAttempt_none (scalar_lt_of_signOperands hop)

end

theorem memRead_writeSignature (sig : Bytes) (g : Rng) :
    (s.writeSignature o dst sig g).memRead (s.aNat dst) sig.length = sig :=
  memRead_complete_writeA_memWrite (s.withRng g) _ _ _ _

/-- The length in A[o] fits its 32 bits. -/
theorem aNat_writeSignature {r sg : Nat} (g : Rng) (hr : r < Config.n) (hsg : sg < Config.n) :
    (s.writeSignature o dst (encodeSig r sg s.cfg.sigenc) g).aNat o = (encodeSig r sg s.cfg.sigenc).length := by
  have hlen := encodeSig_length_le hr hsg s.cfg.sigenc
  have hmax : sigMax s.cfg.sigenc < 2 ^ 32 := by cases s.cfg.sigenc <;> decide
  have hreg : regGet (s.writeSignature o dst (encodeSig r sg s.cfg.sigenc) g).a o =
      BitVec.ofNat 32 (encodeSig r sg s.cfg.sigenc).length := regGet_regSet_same _ _ _
  rw [State.aNat, hreg, BitVec.toNat_ofNat, Nat.mod_eq_of_lt (by omega)]

end

theorem sigMax_eq (enc : SigEnc) : sigMax enc = if enc = .plain then 64 else 72 := by
  cases enc <;> rfl

/-- Settles O56: the operand checks decide in order, and the loop takes the first word that does not fail. -/
theorem signCommand : Obligations.SignCommand := by
  unfold Obligations.SignCommand
  intro o dst src l k s
  rw [← sigMax_eq]
  refine ⟨fun hsrc => sign_faultsWith (checkRange_out _ _ hsrc),
    fun hsrc hdst => sign_faultsWith ((checkRange_in _ _ hsrc).trans (checkRange_out _ _ hdst)), fun hsrc hdst => ?_⟩
  have hchecked : signOperands dst src l k s = checkScalar (s.rNat k)
      (if s.rNat k = Config.n - 1 then .error .noInverse else .ok (s.memRead (s.aNat src) (s.aNat l))) :=
    (checkRange_in _ _ hsrc).trans (checkRange_in _ _ hdst)
  have hn : 1 < Config.n := n_prime.one_lt
  refine ⟨fun hk => sign_faultsWith (hchecked.trans (checkScalar_out _ hk)), fun hk => sign_faultsWith (hchecked.trans ?_), ?_⟩
  · rw [if_pos hk, checkScalar_in _ (by omega) (by omega)]
  rintro hpos hk _ rfl
  have hop : signOperands dst src l k s = .ok (s.memRead (s.aNat src) (s.aNat l)) :=
    signOperands_ok.2 ⟨hsrc, hdst, hpos, by omega, by omega, rfl⟩
  refine ⟨fun j hj hfail hgood => ?_, fun hall => ?_⟩
  · obtain ⟨⟨r, sg⟩, hout⟩ := Option.ne_none_iff_exists'.1 (mt (signAttempt_eq_none_iff hop).1 hgood)
    have hloop := retryLoop_first hj (fun i hi => (signAttempt_eq_none_iff hop).2 (hfail i hi)) hout
    have hsig := signatureOf_of_signAttempt hop hout
    exact ⟨_, r, sg, execSign_of_some hop hloop, hsig.rPos, hsig.rLt, hsig.sgPos, hsig.sgLt, hsig.rEq, hsig.equation,
      completed_memWrite_writeA_rng s _ _ _ le_rfl o _, rfl, memRead_writeSignature _ _, aNat_writeSignature _ hsig.rLt hsig.sgLt⟩
  · have hloop := retryLoop_exhausted fun i hi => (signAttempt_eq_none_iff hop).2 (hall i hi)
    exact ⟨_, execSign_of_none hop hloop, faulted_raise_rng s _ _, rfl⟩

/-! ## VERIFY of what SIGN wrote -/

/-- A SIGN that completed has left the encoding of a pair that solves the signature equation. -/
theorem sign_completed {o dst src l k : RegIdx} {s s1 : State} (h : exec (.sign o dst src l k) s = .next s1)
    (hcnt : s1.cmdcnt = s.cmdcnt + 1) :
    1 ≤ s.rNat k ∧ s.rNat k < Config.n ∧ ∃ w r sg,
      SignatureOf (s.rNat k) (s.signedDigest k (s.memRead (s.aNat src) (s.aNat l))) w r sg ∧
        s1.memRead (s.aNat dst) (s1.aNat o) = encodeSig r sg s.cfg.sigenc := by
  cases hop : signOperands dst src l k s with
  | error c =>
    obtain ⟨s', hexec, hf⟩ := sign_faultsWith (o := o) hop
    cases h.symm.trans hexec
    exact absurd (hf.cmdcnt.symm.trans hcnt) (ne_add_one _)
  | ok msg =>
    rcases retryLoop_cases (s.signAttempt k msg) s.params.retryMax s.rng with ⟨j, ⟨r, sg⟩, -, -, hout, hloop⟩ | ⟨-, hloop⟩
    · cases h.symm.trans (execSign_of_some hop hloop)
      have hsig := signatureOf_of_signAttempt hop hout
      obtain ⟨-, -, hpos, hk, -, rfl⟩ := signOperands_ok.1 hop
      refine ⟨hpos, hk, _, r, sg, hsig, ?_⟩
      rw [aNat_writeSignature _ hsig.rLt hsig.sgLt, memRead_writeSignature]
    · cases h.symm.trans (execSign_of_none hop hloop)
      exact absurd hcnt (ne_add_one _)

section
variable {d e k r sg : Nat} (h : SignatureOf d e k r sg)
include h

/-- `sg*(1+d) = k - r*d` solved for the word. -/
theorem SignatureOf.word_modEq : sg + (r + sg) % Config.n * d ≡ k [MOD Config.n] := by
  have hint : ((sg + (r + sg) * d : Nat) : Int) ≡ (k : Nat) [ZMOD (Config.n : Nat)] := by
    push_cast
    calc (sg + (r + sg) * d : Int) = sg * (1 + d) + r * d := by ring
      _ ≡ (k - r * d) + r * d [ZMOD (Config.n : Nat)] := Int.ModEq.add_right _ h.equation
      _ = k := by ring
  exact (((Nat.mod_modEq _ _).mul_right d).add_left sg).trans (Int.natCast_modEq_iff.1 hint)

/-- `r + sg` is 0 modulo n only where `r + k` is n, which R201 excludes. -/
theorem SignatureOf.add_mod_ne_zero : (r + sg) % Config.n ≠ 0 := by
  intro hzero
  have hword := h.word_modEq
  rw [hzero, Nat.zero_mul, Nat.add_zero] at hword
  obtain rfl := Nat.ModEq.eq_of_lt_of_lt hword h.sgLt h.wordLt
  obtain ⟨c, hc⟩ := Nat.dvd_of_mod_eq_zero hzero
  have hrPos := h.rPos
  have hrLt := h.rLt
  have hsgLt := h.sgLt
  have hone : c = 1 := by nlinarith
  exact h.sumNe (by rw [hc, hone, Nat.mul_one])

/-- The point of R203 is `k*G` again. -/
theorem SignatureOf.verify_point (hd : d < Config.n) :
    pointAdd (scalarMul sg generator) (scalarMul ((r + sg) % Config.n) (scalarMul d generator)) = scalarMul k generator := by
  have := fact_p
  have hn := n_lt_two_pow
  obtain ⟨g, hg, horder⟩ := generator_represents
  have hmod : (r + sg) % Config.n < 2 ^ 256 := (Nat.mod_lt _ n_pos).trans hn
  have hsum := pointAdd_represents (scalarMul_represents hg (h.sgLt.trans hn))
    (scalarMul_represents (scalarMul_represents hg (hd.trans hn)) hmod)
  have hword : (sg + (r + sg) % Config.n * d) • g = k • g := nsmul_eq_nsmul_iff_modEq.2 (horder ▸ h.word_modEq)
  rw [← mul_nsmul', ← add_nsmul, hword] at hsum
  exact represents_unique hsum (scalarMul_represents hg (h.wordLt.trans hn))

theorem SignatureOf.verifies (hd : d < Config.n) : verifyEquation e r sg (scalarMul d generator) = true := by
  obtain ⟨x1, y1, hp, -⟩ := scalarMul_generator_finite h.wordPos h.wordLt
  have hr := h.rEq
  rw [signR, hp] at hr
  exact (verifyEquation_iff e r sg _).2 ⟨h.add_mod_ne_zero, x1, y1, (h.verify_point hd).trans hp, hr.symm⟩

end

/-- Settles O60: SIGN's bytes parse to its pair, and that pair solves the equation VERIFY tests. -/
theorem verifyAcceptsSign : Obligations.VerifyAcceptsSign := by
  unfold Obligations.VerifyAcceptsSign
  intro o dst src l k src' l' g h q s s1 s2 hexec hcnt henc hid hkey hsrc hsig hmsg hbytes
  obtain ⟨hpos, hk, w, r, sg, hpair, hwritten⟩ := sign_completed hexec hcnt
  have hn := n_lt_two_pow
  have hparse : parseSig (s2.memRead (s2.aNat g) (s2.aNat h)) s2.cfg.sigenc = .ok (r, sg) := by
    rw [hbytes, hwritten, henc]
    exact parseSig_encodeSig (hpair.rLt.trans hn) (hpair.sgLt.trans hn) _
  obtain ⟨x, y, hq, hon⟩ := scalarMul_generator_finite hpos hk
  have hfin : scalarMul (s.rNat k) generator ≠ .inf := hq ▸ Point.noConfusion
  have hres := verifyResult_parsed (q := q) hsrc hsig hparse
  rw [verifyPair_inRange _ _ _ _ hpair.rPos hpair.rLt hpair.sgPos hpair.sgLt, hkey, checkFinite_on _ hfin (hq ▸ hon), hid, hmsg] at hres
  exact verify_completes (hres.trans (congrArg Except.ok (hpair.verifies hk)))

end Sys2Proof.Machine
